-- ==== Sys2Proof/Word.lean ====
section
/-! DEFINITION. The plain data of the XCB: bytes, byte strings, the fixed-length byte strings (keys, blocks, tags)
and the command word (spec 00_scope.md R9, R10; 10_state.md R26, R28, R29). Byte-order helpers stand in
Machine/Operands.lean. -/

namespace Sys2Proof

/-- One byte, unsigned (R9). -/
abbrev Byte := BitVec 8

/-- A byte string, byte 0 first (R10). -/
abbrev Bytes := List Byte

/-- The 32-bit host command word, format H (R50). -/
abbrev Word32 := BitVec 32

/-- A 32-byte value: a public key, an opaque key pair, a DH output, the root key, the pre-shared secret, a
password-hash block, the digest (R7: KEY_LEN, PH_BLOCK_LEN; R8: PSK_LEN). -/
abbrev Key := Vector Byte 32

/-- A 16-byte authentication tag (R7: TAG_LEN). -/
abbrev Tag := Vector Byte 16

/-- 32 bytes of 0x00, the `zero(32)` of R10. -/
def Key.zero : Key := Vector.replicate 32 0

/-- 16 bytes of 0x00. -/
def Tag.zero : Tag := Vector.replicate 16 0

end Sys2Proof
end

