-- ==== Sys2Proof/Syntax.lean ====
section
/-! DEFINITION. The abstract syntax: one constructor of `Instr` per row of spec/opcode_table.json (formats H, T, U, P
and D of 30_encoding.md R50 to R58), and the names its operands use. -/

namespace Sys2Proof

/-- The five formats of 30_encoding.md section 1: H the host command word (R50), T a token (R51), U a symmetric-state
micro-operation (R52), P a sponge-port operation and D a DH-port operation (R53). -/
inductive Format where
  | H | T | U | P | D
deriving DecidableEq, Repr

/-- HS.ROLE (R22): 0 initiator, 1 responder. -/
inductive Role where
  | initiator | responder
deriving DecidableEq, Repr

/-- The sponge contexts with their ids 0 to 3 (R16, R53). -/
inductive Ctx where
  | T | S | R | X
deriving DecidableEq, Repr

/-- One instruction. Format H carries its fields; the operands of the internal formats are on the operand lines of
the state (Machine/State.lean, `Operands`), since their encodings hold none (R51 to R53). -/
inductive Instr where
  /-- HS_INIT pat, role (R95); `pat` 9 to 15 is ill-formed (R64). -/
  | hsInit (pat : BitVec 4) (role : Role)
  /-- HS_WRITE (R117). -/
  | hsWrite
  /-- HS_READ (R118). -/
  | hsRead
  /-- HS_ENCPAY (R119). -/
  | hsEncpay
  /-- HS_DECPAY (R120). -/
  | hsDecpay
  /-- HS_FINAL (R123). -/
  | hsFinal
  /-- TC_ENC adp (R126). -/
  | tcEnc (adp : Bool)
  /-- TC_DEC adp (R127). -/
  | tcDec (adp : Bool)
  /-- TC_REKEY_S (R129). -/
  | tcRekeyS
  /-- TC_REKEY_R (R130). -/
  | tcRekeyR
  /-- TC_REKEY (R131). -/
  | tcRekey
  /-- PH_HASH (R136). -/
  | phHash
  /-- RESET (R159). -/
  | reset
  /-- Token END: end of a token list, no operation (R56, R107). -/
  | tokEnd
  /-- Token E (R97 writing, R98 reading). -/
  | tokE
  /-- Token S (R99 writing, R100 reading). -/
  | tokS
  /-- Token EE (R101). -/
  | tokEe
  /-- Token ES (R102). -/
  | tokEs
  /-- Token SE (R103). -/
  | tokSe
  /-- Token SS (R104). -/
  | tokSs
  /-- Token PSK (R105). -/
  | tokPsk
  /-- SS_INIT (R84). -/
  | ssInit
  /-- SS_MIXHASH (R85). -/
  | ssMixhash
  /-- SS_MIXKEY (R86). -/
  | ssMixkey
  /-- SS_ENCRYPT (R87). -/
  | ssEncrypt
  /-- SS_DECRYPT (R88). -/
  | ssDecrypt
  /-- SP.INIT (R71). -/
  | spInit (c : Ctx)
  /-- SP.ABSORB (R72). -/
  | spAbsorb (c : Ctx)
  /-- SP.SQUEEZE (R73). -/
  | spSqueeze (c : Ctx)
  /-- SP.ENCRYPT (R74). -/
  | spEncrypt (c : Ctx)
  /-- SP.DECRYPT (R75). -/
  | spDecrypt (c : Ctx)
  /-- SP.RATCHET (R76). -/
  | spRatchet (c : Ctx)
  /-- SP.CLONE (R77); `c` names the source. -/
  | spClone (c : Ctx)
  /-- SP.LANESEED (R78). -/
  | spLaneseed (c : Ctx)
  /-- DH.COMBINE (R81). -/
  | dhCombine
  /-- DH.PUB (R82). -/
  | dhPub
deriving DecidableEq, Repr

/-- The format of an instruction's encoding (the column "format" of the opcode table). -/
def Instr.format : Instr → Format
  | .hsInit _ _ | .hsWrite | .hsRead | .hsEncpay | .hsDecpay | .hsFinal | .tcEnc _ | .tcDec _
  | .tcRekeyS | .tcRekeyR | .tcRekey | .phHash | .reset => .H
  | .tokEnd | .tokE | .tokS | .tokEe | .tokEs | .tokSe | .tokSs | .tokPsk => .T
  | .ssInit | .ssMixhash | .ssMixkey | .ssEncrypt | .ssDecrypt => .U
  | .spInit _ | .spAbsorb _ | .spSqueeze _ | .spEncrypt _ | .spDecrypt _ | .spRatchet _
  | .spClone _ | .spLaneseed _ => .P
  | .dhCombine | .dhPub => .D

end Sys2Proof
end

