-- ==== Sys2Proof/WellFormed.lean ====
section
/-! DEFINITION. Which terms of `Instr` some encoding stands for. The one field whose type is wider than its legal
values is HS_INIT's pattern code: 9 to 15 are reserved (30_encoding.md R55, R64). -/

namespace Sys2Proof

/-- An instruction that some word of its format encodes. -/
def Instr.wf : Instr → Bool
  | .hsInit pat _ => decide (pat.toNat ≤ 8)
  | _ => true

end Sys2Proof
end

