-- ==== Sys2Proof/Decode.lean ====
section
/-! DEFINITION. The decoder and, after it, the encoder (spec 30_encoding.md R50 to R58, R64; opcode_table.json). The
decoder is total on any bytes and rejects by name. A command word is four bytes, least significant first (R38(f));
a code of format T, U, P or D is one byte whose bits above the format's width are 0. -/

namespace Sys2Proof

/-- Why a word decodes to nothing (R64 for format H; R56, R57 for the internal formats). -/
inductive Reject where
  /-- Not as many bytes as the format has. -/
  | badLength
  /-- Format H: a bit of 31:14 is 1. -/
  | reservedBits
  /-- Format H: `op` is not one of the 13 opcodes of R54. -/
  | unknownOpcode
  /-- Format H: `pat` is not 0 and the opcode is not HS_INIT. -/
  | unusedPat
  /-- Format H: `role` is 1 and the opcode is not HS_INIT. -/
  | unusedRole
  /-- Format H: `adp` is 1 and the opcode is neither TC_ENC nor TC_DEC. -/
  | unusedAdp
  /-- HS_INIT with `pat` 9 to 15. -/
  | reservedPattern
  /-- An internal code with a bit above its format's width set. -/
  | tooWide
  /-- A token code 8 to 15 (R56). -/
  | reservedToken
  /-- A micro-operation code 5 to 7 (R57). -/
  | reservedMicro
deriving DecidableEq, Repr

/-- The role bit (R50, R22). -/
def Role.ofBit (b : Bool) : Role := if b then .responder else .initiator

/-- The role bit back. -/
def Role.toBit : Role → Bool
  | .initiator => false
  | .responder => true

/-- The context id of `P[4:3]` (R53). -/
def Ctx.ofId (c : BitVec 2) : Ctx :=
  match c.toNat with
  | 0 => .T
  | 1 => .S
  | 2 => .R
  | _ => .X

/-- The context id back. -/
def Ctx.id : Ctx → BitVec 2
  | .T => 0
  | .S => 1
  | .R => 2
  | .X => 3

/-- A command whose opcode uses no field of the word: pat, role and adp must be 0 (R50, R64). -/
def decodePlain (w : Word32) (i : Instr) : Except Reject Instr :=
  if w.extractLsb' 8 4 ≠ 0 then .error .unusedPat
  else if w.getLsbD 12 then .error .unusedRole
  else if w.getLsbD 13 then .error .unusedAdp
  else .ok i

/-- A transport command, which uses `adp` alone (R50, R64). -/
def decodeAdp (w : Word32) (i : Bool → Instr) : Except Reject Instr :=
  if w.extractLsb' 8 4 ≠ 0 then .error .unusedPat
  else if w.getLsbD 12 then .error .unusedRole
  else .ok (i (w.getLsbD 13))

/-- HS_INIT, which uses `pat` and `role` (R50, R64). -/
def decodeInit (w : Word32) : Except Reject Instr :=
  if w.getLsbD 13 then .error .unusedAdp
  else if 8 < (w.extractLsb' 8 4).toNat then .error .reservedPattern
  else .ok (.hsInit (w.extractLsb' 8 4) (Role.ofBit (w.getLsbD 12)))

/-- The host command word (R50, R54, R64). -/
def decodeCommand (w : Word32) : Except Reject Instr :=
  if w.extractLsb' 14 18 ≠ 0 then .error .reservedBits
  else match (w.extractLsb' 0 8).toNat with
    | 0x01 => decodeInit w
    | 0x02 => decodePlain w .hsWrite
    | 0x03 => decodePlain w .hsRead
    | 0x04 => decodePlain w .hsEncpay
    | 0x05 => decodePlain w .hsDecpay
    | 0x06 => decodePlain w .hsFinal
    | 0x10 => decodeAdp w .tcEnc
    | 0x11 => decodeAdp w .tcDec
    | 0x12 => decodePlain w .tcRekeyS
    | 0x13 => decodePlain w .tcRekeyR
    | 0x14 => decodePlain w .tcRekey
    | 0x20 => decodePlain w .phHash
    | 0x3F => decodePlain w .reset
    | _ => .error .unknownOpcode

/-- A token, 4 bits (R51, R56). -/
def decodeToken (w : Byte) : Except Reject Instr :=
  match w.toNat with
  | 0 => .ok .tokEnd
  | 1 => .ok .tokE
  | 2 => .ok .tokS
  | 3 => .ok .tokEe
  | 4 => .ok .tokEs
  | 5 => .ok .tokSe
  | 6 => .ok .tokSs
  | 7 => .ok .tokPsk
  | n => if n < 16 then .error .reservedToken else .error .tooWide

/-- A symmetric-state micro-operation, 3 bits (R52, R57). -/
def decodeMicro (w : Byte) : Except Reject Instr :=
  match w.toNat with
  | 0 => .ok .ssInit
  | 1 => .ok .ssMixhash
  | 2 => .ok .ssMixkey
  | 3 => .ok .ssEncrypt
  | 4 => .ok .ssDecrypt
  | n => if n < 8 then .error .reservedMicro else .error .tooWide

/-- A sponge-port operation, 5 bits: `P[2:0]` the operation, `P[4:3]` the context (R53, R58). -/
def decodeSponge (w : Byte) : Except Reject Instr :=
  if w.extractLsb' 5 3 ≠ 0 then .error .tooWide
  else
    let c := Ctx.ofId (w.extractLsb' 3 2)
    match (w.extractLsb' 0 3).toNat with
    | 0 => .ok (.spInit c)
    | 1 => .ok (.spAbsorb c)
    | 2 => .ok (.spSqueeze c)
    | 3 => .ok (.spEncrypt c)
    | 4 => .ok (.spDecrypt c)
    | 5 => .ok (.spRatchet c)
    | 6 => .ok (.spClone c)
    | _ => .ok (.spLaneseed c)

/-- A DH-port operation, 1 bit (R53, R58). -/
def decodeDh (w : Byte) : Except Reject Instr :=
  match w.toNat with
  | 0 => .ok .dhCombine
  | 1 => .ok .dhPub
  | _ => .error .tooWide

/-- The command word of four bytes, least significant first (R38(f)). -/
def wordOfBytes (b0 b1 b2 b3 : Byte) : Word32 := b3 ++ b2 ++ b1 ++ b0

/-- The four bytes of a command word, least significant first (R38(f)). -/
def bytesOfWord (w : Word32) : Bytes :=
  [w.extractLsb' 0 8, w.extractLsb' 8 8, w.extractLsb' 16 8, w.extractLsb' 24 8]

/-- The instruction that a byte string of a given format stands for. -/
def decode (f : Format) (bs : Bytes) : Except Reject Instr :=
  match f, bs with
  | .H, [b0, b1, b2, b3] => decodeCommand (wordOfBytes b0 b1 b2 b3)
  | .T, [b] => decodeToken b
  | .U, [b] => decodeMicro b
  | .P, [b] => decodeSponge b
  | .D, [b] => decodeDh b
  | _, _ => .error .badLength

/-- The word of a format H instruction from its fields: op, pat, role, adp, and 18 bits of 0 (R50). -/
def commandWord (op : BitVec 8) (pat : BitVec 4) (role adp : Bool) : Word32 :=
  (0 : BitVec 18) ++ BitVec.ofBool adp ++ BitVec.ofBool role ++ pat ++ op

/-- The bits of an instruction of format H (R50, R54). -/
def encodeCommand : Instr → Option Word32
  | .hsInit pat role => some (commandWord 0x01 pat role.toBit false)
  | .hsWrite => some (commandWord 0x02 0 false false)
  | .hsRead => some (commandWord 0x03 0 false false)
  | .hsEncpay => some (commandWord 0x04 0 false false)
  | .hsDecpay => some (commandWord 0x05 0 false false)
  | .hsFinal => some (commandWord 0x06 0 false false)
  | .tcEnc adp => some (commandWord 0x10 0 false adp)
  | .tcDec adp => some (commandWord 0x11 0 false adp)
  | .tcRekeyS => some (commandWord 0x12 0 false false)
  | .tcRekeyR => some (commandWord 0x13 0 false false)
  | .tcRekey => some (commandWord 0x14 0 false false)
  | .phHash => some (commandWord 0x20 0 false false)
  | .reset => some (commandWord 0x3F 0 false false)
  | _ => none

/-- The byte of a sponge-port operation: three bits of 0, the context id, the operation code (R53, R58). -/
def spongeByte (c : Ctx) (op : BitVec 3) : Byte := (0 : BitVec 3) ++ c.id ++ op

/-- The code of an instruction of format T, U, P or D in one byte (R56 to R58). -/
def encodeInternal : Instr → Option Byte
  | .tokEnd => some 0
  | .tokE => some 1
  | .tokS => some 2
  | .tokEe => some 3
  | .tokEs => some 4
  | .tokSe => some 5
  | .tokSs => some 6
  | .tokPsk => some 7
  | .ssInit => some 0
  | .ssMixhash => some 1
  | .ssMixkey => some 2
  | .ssEncrypt => some 3
  | .ssDecrypt => some 4
  | .spInit c => some (spongeByte c 0)
  | .spAbsorb c => some (spongeByte c 1)
  | .spSqueeze c => some (spongeByte c 2)
  | .spEncrypt c => some (spongeByte c 3)
  | .spDecrypt c => some (spongeByte c 4)
  | .spRatchet c => some (spongeByte c 5)
  | .spClone c => some (spongeByte c 6)
  | .spLaneseed c => some (spongeByte c 7)
  | .dhCombine => some 0
  | .dhPub => some 1
  | _ => none

/-- The bytes of a well-formed instruction in its format. -/
def encode (i : Instr) : Bytes :=
  match encodeCommand i with
  | some w => bytesOfWord w
  | none => (encodeInternal i).toList

/-- The format that a table row of `nbits` bits is read in: 32 bits is format H; a row of 4, 3, 5 or 1 bits is a row of
format T, U, P or D (R65). A width given in whole bytes (8) does not say which of the four one-byte formats is meant,
since their codes overlap; it is read as format T, the one internal format that is stored (in the pattern ROM, R48),
where the others exist only on a port. DESIGN CHOICE: assumption 6. -/
def formatOfBits (nbits : Nat) : Option Format :=
  match nbits with
  | 32 => some .H
  | 4 => some .T
  | 3 => some .U
  | 5 => some .P
  | 1 => some .D
  | 8 => some .T
  | _ => none

/-- The bytes that hold the number `w` in a format, least significant first. -/
def bytesOfBits (f : Format) (w : Nat) : Bytes :=
  match f with
  | .H => bytesOfWord (BitVec.ofNat 32 w)
  | _ => [BitVec.ofNat 8 w]

/-- The instruction the decoder reads from a table row's bits. -/
def decodeTableWord (nbits w : Nat) : Option Instr :=
  match formatOfBits nbits with
  | none => none
  | some f =>
    match decode f (bytesOfBits f w) with
    | .ok i => some i
    | .error _ => none

end Sys2Proof
end

