-- ==== Sys2Proof/Config.lean ====
section
/-! DEFINITION. What one implementation fixes and the spec leaves open: the sponge functions, the group functions,
PH_MAX_SPACE (spec 00_scope.md R8, R15; 40_symmetric_state.md R68, R69, R79, R80; 93 U1 to U3), the constants of R7
and R8, and the free bytes of 93 U6. Every open value is an opaque constant without a body. -/

namespace Sys2Proof

/-- A sponge state, the opaque type `Sponge` of R16 and R68. Its width and structure are not in the spec
(91_not_in_source.md N2); any finite sponge state is coded by some number, and nothing in the model looks at the
number. DESIGN CHOICE, safe: assumption 1. -/
structure Sponge where
  code : Nat
deriving DecidableEq, Repr, Inhabited

/-- The parameters of the step relation (R15): the external primitives with exactly the named properties of R69 and
R80, and PH_MAX_SPACE with the bounds of R134. SP-DET and LS-DET and DH-DET are that these are functions;
SP-SEP is that nothing relates separate calls; SP-DIST is no equation and is not here. -/
structure Params where
  /-- `sp_init` (R71). -/
  spInit : Bytes → Sponge
  /-- `sp_absorb` (R72). -/
  spAbsorb : Sponge → Bytes → Sponge
  /-- `sp_squeeze` (R73); that exactly n bytes come out (SP-LEN) is in the type. -/
  spSqueeze : Sponge → (n : Nat) → Sponge × Vector Byte n
  /-- `sp_encrypt` (R74). -/
  spEncrypt : Sponge → Bytes → Sponge × Bytes
  /-- `sp_decrypt` (R75). -/
  spDecrypt : Sponge → Bytes → Sponge × Bytes
  /-- `sp_ratchet` (R76). -/
  spRatchet : Sponge → Sponge
  /-- `sp_laneseed` (R78), one uninterpreted function of the root key and the identifier byte. -/
  spLaneseed : Key → Byte → Sponge
  /-- `dh_pub` (R79, R82). -/
  dhPub : Key → Key
  /-- `dh_combine` (R79, R81); `none` is `fail`. -/
  dhCombine : Key → Key → Option Key
  /-- The largest `spaceCost` the working buffer holds (R134). -/
  phMaxSpace : Nat
  /-- SP-LEN for `sp_encrypt` (R69). -/
  spEncrypt_length : ∀ s p, (spEncrypt s p).2.length = p.length
  /-- SP-LEN for `sp_decrypt` (R69). -/
  spDecrypt_length : ∀ s c, (spDecrypt s c).2.length = c.length
  /-- SP-INV (R69): decrypt is the inverse of encrypt, states included. -/
  spDecrypt_spEncrypt : ∀ s p, spDecrypt s (spEncrypt s p).2 = ((spEncrypt s p).1, p)
  /-- DH-COMM (R80): where both sides succeed they agree. Failure is not assumed symmetric. -/
  dhCombine_comm : ∀ a b x y,
    dhCombine a (dhPub b) = some x → dhCombine b (dhPub a) = some y → x = y
  /-- PH_MAX_SPACE is at least 1 (93 U3). -/
  phMaxSpace_pos : 1 ≤ phMaxSpace
  /-- PH_MAX_SPACE is at most 2^32 - 1 (R134, 93 U3). -/
  phMaxSpace_le : phMaxSpace ≤ 2 ^ 32 - 1

/-- A trivial set of parameters: it only shows that the properties of `Params` can be met together, so that an
opaque constant of the type may be declared. No value of it is used. -/
def Params.some : Params where
  spInit _ := ⟨0⟩
  spAbsorb s _ := s
  spSqueeze s n := (s, Vector.replicate n 0)
  spEncrypt s p := (s, p)
  spDecrypt s c := (s, c)
  spRatchet s := s
  spLaneseed _ _ := ⟨0⟩
  dhPub k := k
  dhCombine _ _ := none
  phMaxSpace := 1
  spEncrypt_length _ _ := rfl
  spDecrypt_length _ _ := rfl
  spDecrypt_spEncrypt _ _ := rfl
  dhCombine_comm _ _ _ _ h := nomatch h
  phMaxSpace_pos := Nat.le_refl _
  phMaxSpace_le := by decide

/-- Some set of parameters, no body: nothing in Lean can evaluate it or prove a value of it. -/
opaque Config.paramsOf [Inhabited Params] : Params

/-- The parameters of this machine: the primitives and PH_MAX_SPACE of the one implementation that the model is of
(R15). Opaque but for the properties that `Params` carries. -/
def Config.params : Params := @Config.paramsOf ⟨Params.some⟩

/-- What a byte of MSG, DAT or AD that stood at or beyond the length register reads as once the length covers it:
any value (R32, R36, 93 U6), a fresh one for every number. A free value, no body: assumption 4. -/
opaque Config.freeByte : Nat → Byte

/-- MAX_MSG_LEN (R7), also the capacity of each of the three buffers (R32; AD_MAX_LEN of R8). -/
def Config.maxMsgLen : Nat := 65535

/-- TAG_LEN (R7). -/
def Config.tagLen : Nat := 16

/-- KEY_LEN (R7). -/
def Config.keyLen : Nat := 32

/-- ENC_KEY_BLOCK_LEN (R7): an encrypted public key on the wire. -/
def Config.encKeyBlockLen : Nat := 48

/-- NONCE_MAX = 2^64 - 1 (R8, R132). -/
def Config.nonceMax : BitVec 64 := BitVec.allOnes 64

/-- PH_DELTA (R7). -/
def Config.phDelta : Nat := 3

/-- PH_ID (R8): the sponge identifier of each password-hash call is the empty byte string. -/
def Config.phId : Bytes := []

end Sys2Proof
end

