-- ==== Sys2Proof/Machine/State.lean ====
section
/-! DEFINITION. The state of one XCB as plain data (spec 10_state.md R14 to R33), the reasons a step can stop, and the
state after reset (R33, R158). A context or key slot whose valid bit is 0 is `none`: 93 U13 lets a
model drop the value of a zeroized context, R26 has the remote keys modelled as an option type, and no command reads an
invalid own slot's value (assumption 18). The fields `op`, `res`, `inbox` and `freeCtr` are the model's own. -/

namespace Sys2Proof.Machine

/-- HS.PHASE (R21): 0 IDLE, 1 ACTIVE, 2 DONE, 3 FAILED. -/
inductive Phase where
  | idle | active | done | failed
deriving DecidableEq, Repr

/-- HS.PATTERN: the nine patterns, codes 0 to 8 in this order (R55). -/
inductive Pattern where
  | K | N | X | NNpsk2 | KK | NK | NX | XX | IK
deriving DecidableEq, Repr

/-- A token of the pattern ROM (R56). -/
inductive Token where
  | tEnd | e | s | ee | es | se | ss | psk
deriving DecidableEq, Repr

/-- The three runtime errors (R144). -/
inductive RtErr where
  | ciphertextTooShort | messageCorrupted | dhFailure
deriving DecidableEq, Repr

/-- STATUS.ERR: the result of the last command (R31, R144). Codes 4 to 14 are never produced. -/
inductive Err where
  | ok | ciphertextTooShort | messageCorrupted | dhFailure | contractViolation
deriving DecidableEq, Repr

/-- CV: the cause of the contract violation (R145). Codes 10 to 15 are never produced. -/
inductive Cause where
  | none | illegal | seq | terminal | len | nonce | notKeyed | keySlot | param | noCtx
deriving DecidableEq, Repr

/-- The five key slots, KV bits 0 to 4 in this order (R26). -/
inductive Slot where
  | S | E | RS | RE | PSK
deriving DecidableEq, Repr

/-- The key-pair operand of a DH-port operation: K.S or K.E (R81, R82). -/
inductive KpSlot where
  | S | E
deriving DecidableEq, Repr

/-- The public-key operand of DH.COMBINE: K.RS or K.RE (R81). -/
inductive PkSlot where
  | RS | RE
deriving DecidableEq, Repr

/-- The three data buffers (R32). -/
inductive Buf where
  | MSG | DAT | AD
deriving DecidableEq, Repr

/-- The form in which tokens run: HS_WRITE runs the writing form, HS_READ the reading form (R107, R140). -/
inductive Form where
  | writing | reading
deriving DecidableEq, Repr

/-- The operand lines of the internal formats T, U, P and D: what their rules call operands and their encodings give no
bits (R51 to R53). The model's own (assumption 5). -/
structure Operands where
  /-- The form of a token (R107). -/
  form : Form
  /-- The running offset `off` into MSG (R96). Its width is not stated; 16 bits, as HS.OFF, which takes its value
  (DESIGN CHOICE: assumption 21). -/
  off : BitVec 16
  /-- The byte string operand of a micro-operation (R52), of SP.INIT, SP.ABSORB, SP.ENCRYPT, SP.DECRYPT (R71 to R75). -/
  data : Bytes
  /-- The byte count n of SP.SQUEEZE (R73). -/
  count : Nat
  /-- The identifier byte of SP.LANESEED (R78); its key is the register RK. -/
  idb : Byte
  /-- The key-pair slot of DH.COMBINE and DH.PUB (R81, R82). -/
  kp : KpSlot
  /-- The public-key slot of DH.COMBINE (R81). -/
  pk : PkSlot
deriving DecidableEq, Repr

/-- One access at the XCB's interface, the unit `step` works on. All but the last are the host's (R30, R32, R26). -/
inductive Event where
  /-- A write of register 0, CMD: it executes the command word (R30). -/
  | cmd (w : Word32)
  /-- A write of another register by its number (R30). -/
  | reg (n : Nat) (v : Word32)
  /-- A whole buffer is loaded, its length register with it (R32, R160). -/
  | load (b : Buf) (data : Bytes)
  /-- Bytes are written at an offset of a buffer (R36); its length stays. -/
  | poke (b : Buf) (a : Nat) (data : Bytes)
  /-- A key slot is loaded (R26). -/
  | slot (k : Slot) (v : Key)
  /-- A sequencer issues an instruction of an internal format with its operands (R51 to R53); the host cannot (R83). -/
  | issue (f : Format) (w : Byte) (o : Operands)
deriving DecidableEq, Repr

/-- The state of one XCB (R14). -/
structure State where
  /-- CTX_T, the handshake transcript (R16). -/
  ctxT : Option Sponge
  /-- CTX_S, the transport send lane (R16). -/
  ctxS : Option Sponge
  /-- CTX_R, the transport receive lane (R16). -/
  ctxR : Option Sponge
  /-- CTX_X, the disposable context (R16). -/
  ctxX : Option Sponge
  /-- SS.KEYED (R17). -/
  keyed : Bool
  /-- HS.PHASE (R21). -/
  phase : Phase
  /-- HS.ROLE (R22). -/
  role : Role
  /-- HS.PATTERN (R22). -/
  pattern : Pattern
  /-- HS.SEQ (R23). -/
  seq : BitVec 2
  /-- HS.OFF (R24). -/
  off : BitVec 16
  /-- HS.MSGCUR (R25). -/
  msgcur : Bool
  /-- HS.LASTW (R25). -/
  lastw : Bool
  /-- HS.PAYDONE (R25). -/
  paydone : Bool
  /-- K.S, own static key pair (R26). -/
  kS : Option Key
  /-- K.E, own ephemeral key pair (R26). -/
  kE : Option Key
  /-- K.RS, remote static public key (R26). -/
  kRS : Option Key
  /-- K.RE, remote ephemeral public key (R26). -/
  kRE : Option Key
  /-- K.PSK, pre-shared secret (R26). -/
  kPSK : Option Key
  /-- TC.VALID (R19). -/
  tcValid : Bool
  /-- TC.ABORTED (R18). -/
  tcAborted : Bool
  /-- TC.SNONCE (R27). -/
  snonce : BitVec 64
  /-- TC.RNONCE (R27). -/
  rnonce : BitVec 64
  /-- PHB, the password-hash working buffer, by block index (R28, R37). -/
  phb : List Key
  /-- PH.CNT, the call counter (R28). -/
  phCnt : BitVec 64
  /-- PH.T, the round (R28). -/
  phT : BitVec 64
  /-- PH.M, the block (R28). -/
  phM : BitVec 64
  /-- PH.L, the link (R28). -/
  phL : BitVec 64
  /-- PH.J, the derived random index (R28). -/
  phJ : BitVec 64
  /-- DIGEST, the output of the password hash (R28). -/
  digest : Key
  /-- DHO, the output of one DH.COMBINE (R29). -/
  dho : Key
  /-- RK, the root key squeezed at HS_FINAL (R29). -/
  rk : Key
  /-- TAGX, the expected tag (R29). -/
  tagx : Tag
  /-- PTX, the plaintext before its tag is checked (R29). -/
  ptx : Bytes
  /-- FATAL (R20). -/
  fatal : Bool
  /-- CV (R20). -/
  cv : Cause
  /-- STATUS.ERR (R31). -/
  err : Err
  /-- P0, `spaceCost` (R30). -/
  p0 : BitVec 32
  /-- P1, `timeCost` (R30). -/
  p1 : BitVec 32
  /-- MSG with MSGLEN (R32). -/
  msg : Bytes
  /-- DAT with DATLEN (R32). -/
  dat : Bytes
  /-- AD with ADLEN (R32). -/
  ad : Bytes
  /-- The operand lines of the internal formats (the model's own). -/
  op : Operands
  /-- The result byte string of an internal operation that ran as a step of its own (the model's own). -/
  res : Bytes
  /-- The accesses not yet performed, in program order (the model's own; R45). -/
  inbox : List Event
  /-- The number of the next free byte (the model's own; 93 U6). -/
  freeCtr : Nat
deriving DecidableEq, Repr

/-- Reasons a step stops with a fault: a host access to something the spec says does not exist. The machine's own
errors are states, not faults (R144, R146; assumption 3). -/
inductive Fault where
  /-- A host write of a register number above 9 (R30). Raised by the event `reg`. Safe: there is no such access. -/
  | noSuchRegister
  /-- A host load of more than 65535 bytes into a buffer (R32). Raised by the event `load`. Safe: there is no such
  access. -/
  | beyondCapacity
deriving DecidableEq, Repr

/-- Reasons a step is refused. -/
inductive Refusal where
  /-- An instruction that has no meaning yet; raised by an arm of `exec` only. Safe. No arm raises it. -/
  | notModelled (mnemonic : String)
  /-- An internal code that the spec reserves (R56: "the ROM contains none"; R57: "no sequencer issues them") or a byte
  with bits above its format's width. Raised by the event `issue`. Safe: no sequencer issues one. -/
  | reservedCode
deriving DecidableEq, Repr

/-- The operand lines after reset and at the end of every command (DESIGN CHOICE: assumption 11). -/
def Operands.zero : Operands where
  form := .writing
  off := 0
  data := []
  count := 0
  idb := 0
  kp := .S
  pk := .RS

/-- The state right after hardware reset (R33, R158). Every value is the spec's but those of the model's own fields
`op`, `res`, `inbox` and `freeCtr`. -/
def State.reset : State where
  ctxT := none
  ctxS := none
  ctxR := none
  ctxX := none
  keyed := false
  phase := .idle
  role := .initiator
  pattern := .K
  seq := 0
  off := 0
  msgcur := false
  lastw := false
  paydone := false
  kS := none
  kE := none
  kRS := none
  kRE := none
  kPSK := none
  tcValid := false
  tcAborted := false
  snonce := 0
  rnonce := 0
  phb := []
  phCnt := 0
  phT := 0
  phM := 0
  phL := 0
  phJ := 0
  digest := Key.zero
  dho := Key.zero
  rk := Key.zero
  tagx := Tag.zero
  ptx := []
  fatal := false
  cv := .none
  err := .ok
  p0 := 0
  p1 := 0
  msg := []
  dat := []
  ad := []
  op := Operands.zero
  res := []
  inbox := []
  freeCtr := 0

end Sys2Proof.Machine
end

