-- ==== Sys2Proof/Machine/Operands.lean ====
section
/-! DEFINITION. Every operand form of the XCB: byte order (20_memory.md R38; 00_scope.md R10), slots, contexts and
buffers by name, MemRead and MemWrite (R36, R142), the operands assembled from constants and counters
(30_encoding.md R59 to R63), the role byte (41_handshake.md R122). -/

namespace Sys2Proof.Machine

/-- `le_k(n)` (R10): byte i is `(n >> 8i) & 0xFF`. -/
def leBytes (k n : Nat) : Bytes := (List.range k).map fun i => BitVec.ofNat 8 (n >>> (8 * i))

/-- `LE(b)` (R10): the sum of `b[i]·2^(8i)`. -/
def leNat : Bytes → Nat
  | [] => 0
  | b :: bs => b.toNat + 256 * leNat bs

/-- The first n bytes of a byte string as a fixed-length one; its callers give exactly n bytes. -/
def vecOfBytes (n : Nat) (b : Bytes) : Vector Byte n :=
  ⟨((b ++ List.replicate n 0).take n).toArray, by simp⟩

/-- A 32-byte value from a slice of a buffer (R98, R100). -/
def keyOfBytes (b : Bytes) : Key := vecOfBytes 32 b

/-- The ASCII bytes of a text (R10). -/
def asciiBytes (cs : List Char) : Bytes := cs.map fun c => BitVec.ofNat 8 c.toNat

/-- The code of a pattern (R55). -/
def Pattern.code : Pattern → BitVec 4
  | .K => 0
  | .N => 1
  | .X => 2
  | .NNpsk2 => 3
  | .KK => 4
  | .NK => 5
  | .NX => 6
  | .XX => 7
  | .IK => 8

/-- The pattern of a code; 9 to 15 are reserved (R55). -/
def Pattern.ofCode (c : BitVec 4) : Option Pattern :=
  match c.toNat with
  | 0 => some .K
  | 1 => some .N
  | 2 => some .X
  | 3 => some .NNpsk2
  | 4 => some .KK
  | 5 => some .NK
  | 6 => some .NX
  | 7 => some .XX
  | 8 => some .IK
  | _ => none

/-- The exact, case-sensitive spelling of a pattern's name (R55). -/
def Pattern.name : Pattern → List Char
  | .K => ['K']
  | .N => ['N']
  | .X => ['X']
  | .NNpsk2 => ['N', 'N', 'p', 's', 'k', '2']
  | .KK => ['K', 'K']
  | .NK => ['N', 'K']
  | .NX => ['N', 'X']
  | .XX => ['X', 'X']
  | .IK => ['I', 'K']

/-- The protocol identifier (R59): product "Xisco", "-v", version "0", "_", the pattern's name. -/
def protocolId (p : Pattern) : Bytes :=
  asciiBytes (['X', 'i', 's', 'c', 'o'] ++ ['-', 'v'] ++ ['0'] ++ ['_'] ++ p.name)

/-- ROLE_BYTE (R8, R122). -/
def roleByte : Role → Byte
  | .initiator => 0x00
  | .responder => 0xFF

/-- The nonce operand of a transport command (R61): `le_8` of the counter. -/
def nonceBytes (n : BitVec 64) : Bytes := leBytes 8 n.toNat

/-- The value of a context (R16). -/
def State.ctx (s : State) : Ctx → Option Sponge
  | .T => s.ctxT
  | .S => s.ctxS
  | .R => s.ctxR
  | .X => s.ctxX

/-- A context replaced. -/
def State.setCtx (s : State) (c : Ctx) (v : Option Sponge) : State :=
  match c with
  | .T => { s with ctxT := v }
  | .S => { s with ctxS := v }
  | .R => { s with ctxR := v }
  | .X => { s with ctxX := v }

/-- The value of a key slot (R26). -/
def State.slotVal (s : State) : Slot → Option Key
  | .S => s.kS
  | .E => s.kE
  | .RS => s.kRS
  | .RE => s.kRE
  | .PSK => s.kPSK

/-- A key slot replaced. -/
def State.setSlot (s : State) (k : Slot) (v : Option Key) : State :=
  match k with
  | .S => { s with kS := v }
  | .E => { s with kE := v }
  | .RS => { s with kRS := v }
  | .RE => { s with kRE := v }
  | .PSK => { s with kPSK := v }

/-- The key-pair slot a DH-port operation names (R81, R82). -/
def State.kpVal (s : State) : KpSlot → Option Key
  | .S => s.kS
  | .E => s.kE

/-- The public-key slot DH.COMBINE names (R81). -/
def State.pkVal (s : State) : PkSlot → Option Key
  | .RS => s.kRS
  | .RE => s.kRE

/-- The byte string a buffer holds (R32); its length is the length register. -/
def State.buf (s : State) : Buf → Bytes
  | .MSG => s.msg
  | .DAT => s.dat
  | .AD => s.ad

/-- A buffer replaced, its length register with it. -/
def State.setBuf (s : State) (b : Buf) (v : Bytes) : State :=
  match b with
  | .MSG => { s with msg := v }
  | .DAT => { s with dat := v }
  | .AD => { s with ad := v }

/-- One byte of a buffer; at or beyond the length there is none (R32, R35). -/
def State.readByte (s : State) (b : Buf) (a : Nat) : Option Byte := (s.buf b)[a]?

/-- The canonical form of one buffer: at most MAX_MSG_LEN bytes (R32). A byte string lists every index below its
length once and no other, so equal buffers are equal data. -/
def Memory.wf (b : Bytes) : Bool := decide (b.length ≤ Config.maxMsgLen)

/-- All three buffers in their canonical form. -/
def State.memWf (s : State) : Bool := Memory.wf s.msg && Memory.wf s.dat && Memory.wf s.ad

/-- `n` free bytes, numbered from `k` (93 U6). -/
def freeBytes (k n : Nat) : Bytes := (List.range n).map fun i => Config.freeByte (k + i)

/-- `MemRead(space, a, n)` (R36). Every command checks a + n against the length first; bytes at or beyond it, which
only a token issued as a step of its own can ask for, are any value (93 U6). -/
def memRead (b : Buf) (a n : Nat) (s : State) : Bytes × State :=
  let have_ := ((s.buf b).drop a).take n
  let miss := n - have_.length
  (have_ ++ freeBytes s.freeCtr miss, { s with freeCtr := s.freeCtr + miss })

/-- The byte string that results from writing `data` at offset `a` (R36, R142): a write that ends beyond the old
length extends the buffer; bytes between the old length and `a` are any value (93 U6). -/
def overwrite (cur : Bytes) (k a : Nat) (data : Bytes) : Bytes :=
  cur.take a ++ freeBytes k (a - cur.length) ++ data ++ cur.drop (a + data.length)

/-- `MemWrite(space, a, b)` (R36) within the capacity. -/
def memWrite (b : Buf) (a : Nat) (data : Bytes) (s : State) : State :=
  let s' := s.setBuf b (overwrite (s.buf b) s.freeCtr a data)
  { s' with freeCtr := s.freeCtr + (a - (s.buf b).length) }

/-- The associated data operand (R61): AD[0..ADLEN) when adp = 1, absent when adp = 0. -/
def adOperand (adp : Bool) (s : State) : Option Bytes := if adp then some s.ad else none

end Sys2Proof.Machine
end

