-- ==== Sys2Proof/Machine/Flags.lean ====
section
/-! DEFINITION. Every flag and status computation: the codes of ERR, CV and HS.PHASE, the STATUS word (10_state.md
R31), KV (R26, R30), and the tag comparison (40_symmetric_state.md R89). -/

namespace Sys2Proof.Machine

/-- HS.PHASE as two bits (R21). -/
def Phase.code : Phase → BitVec 2
  | .idle => 0
  | .active => 1
  | .done => 2
  | .failed => 3

/-- ERR as four bits (R31, R144). -/
def Err.code : Err → BitVec 4
  | .ok => 0
  | .ciphertextTooShort => 1
  | .messageCorrupted => 2
  | .dhFailure => 3
  | .contractViolation => 15

/-- CV as four bits (R145). -/
def Cause.code : Cause → BitVec 4
  | .none => 0
  | .illegal => 1
  | .seq => 2
  | .terminal => 3
  | .len => 4
  | .nonce => 5
  | .notKeyed => 6
  | .keySlot => 7
  | .param => 8
  | .noCtx => 9

/-- The STATUS.ERR value of a runtime error (R144). -/
def RtErr.toErr : RtErr → Err
  | .ciphertextTooShort => .ciphertextTooShort
  | .messageCorrupted => .messageCorrupted
  | .dhFailure => .dhFailure

/-- STATUS (R31), bit 31 left: reserved 31:24, PATTERN 23:20, ROLE 19, TC_ABORTED 18, TC_VALID 17, MSGCUR 16,
LASTW 15, PAYDONE 14, SS_KEYED 13, SEQ 12:11, HS_PHASE 10:9, FATAL 8, CV 7:4, ERR 3:0. -/
def State.status (s : State) : BitVec 32 :=
  (0 : BitVec 8) ++ s.pattern.code ++ BitVec.ofBool s.role.toBit ++ BitVec.ofBool s.tcAborted
    ++ BitVec.ofBool s.tcValid ++ BitVec.ofBool s.msgcur ++ BitVec.ofBool s.lastw
    ++ BitVec.ofBool s.paydone ++ BitVec.ofBool s.keyed ++ s.seq ++ s.phase.code
    ++ BitVec.ofBool s.fatal ++ s.cv.code ++ s.err.code

/-- KV (R30): the valid bits of the key slots, bits 4:0 PSK, RE, RS, E, S (R26). -/
def State.kv (s : State) : BitVec 5 :=
  BitVec.ofBool s.kPSK.isSome ++ BitVec.ofBool s.kRE.isSome ++ BitVec.ofBool s.kRS.isSome
    ++ BitVec.ofBool s.kE.isSome ++ BitVec.ofBool s.kS.isSome

/-- `tag_differs` (R89): the OR of the byte-wise XORs is not 0. -/
def tagDiffers (a b : Bytes) : Bool :=
  (List.zipWith (fun x y => x ^^^ y) a b).foldl (fun d x => d ||| x) (0 : Byte) ≠ 0

end Sys2Proof.Machine
end

