-- ==== Sys2Proof/Machine/Ops.lean ====
section
/-! DEFINITION. The shared operations of the XCB: how a command's lines follow one another and end (00_scope.md R11:
`require`, `raise`), what is zeroized at the end of every command (10_state.md R29; 70 R168), TAKING A CONTRACT
VIOLATION (60_exceptions.md R146), the refusal while FATAL = 1 (R148), a runtime error (R147), `hs_fail`
(41_handshake.md R121), and the return: RESET (70 R159). -/

namespace Sys2Proof.Machine

/-- How a piece of a command ends: its lines ran (`ok`), an error was raised (`err`), or a `require` failed (`viol`);
the state is the one at that point (R11, R146: what was written before stays written). -/
inductive Res (α : Type) where
  | ok (a : α) (s : State)
  | err (e : RtErr) (s : State)
  | viol (c : Cause) (s : State)

/-- Run `f` after a piece that ended well; an error or a violation ends the command (R11). -/
def Res.bind {α β : Type} (r : Res α) (f : α → State → Res β) : Res β :=
  match r with
  | .ok a s => f a s
  | .err e s => .err e s
  | .viol c s => .viol c s

/-- The result of a piece changed, its state kept. -/
def Res.map {α β : Type} (f : α → β) (r : Res α) : Res β :=
  match r with
  | .ok a s => .ok (f a) s
  | .err e s => .err e s
  | .viol c s => .viol c s

/-- `require c else v` (R11). -/
def require (c : Prop) [Decidable c] (v : Cause) (s : State) : Res Unit :=
  if c then .ok () s else .viol v s

/-- `for i = 0 .. n-1: f i` (R140(c)). -/
def forUp (n : Nat) (f : Nat → State → Res Unit) (s : State) : Res Unit :=
  match n with
  | 0 => .ok () s
  | m + 1 => (forUp m f s).bind fun _ s' => f m s'

/-- The transient registers and CTX_X zeroized, as at the end of every command (R16, R28, R29, R168); the operand lines
of the internal formats hold nothing between commands either (assumption 11). -/
def State.wipe (s : State) : State :=
  { s with
    ctxX := none
    dho := Key.zero, rk := Key.zero, tagx := Tag.zero, ptx := []
    phb := [], phCnt := 0, phT := 0, phM := 0, phL := 0, phJ := 0
    op := Operands.zero, res := [] }

/-- What a contract violation with cause `c` does at the point of the failed `require` (R146). -/
def enterViolation (c : Cause) (s : State) : State :=
  { s.wipe with
    fatal := true, cv := c, err := .contractViolation
    ctxT := none, ctxS := none, ctxR := none
    keyed := false, tcValid := false
    kS := none, kE := none, kPSK := none
    dat := [] }

/-- A command word while FATAL = 1: refused, no state changes but STATUS.ERR, which is written 15 (R148). -/
def refuseFatal (s : State) : State := { s with err := .contractViolation }

/-- The end of a command: OK; a runtime error, whose code goes to STATUS.ERR (R147); or a contract violation (R146).
The transient registers are zeroized on every exit path (R29). -/
def finishCommand (r : Res Unit) : State :=
  match r with
  | .ok _ s => { s.wipe with err := .ok }
  | .err e s => { s.wipe with err := e.toErr }
  | .viol c s => enterViolation c s

/-- One host command other than RESET: refused while FATAL = 1 (R148, R150), else run to its end as one atomic
transition (R5, R40). -/
def runCommand (f : State → Res Unit) (s : State) : Host.Outcome State Fault Refusal :=
  .next (if s.fatal then refuseFatal s else finishCommand (f s))

/-- An illegal command word (R64): CV_ILLEGAL, or refused undecoded while FATAL = 1 (R148, R150). -/
def illegalCommand (s : State) : State :=
  if s.fatal then refuseFatal s else enterViolation .illegal s

/-- The end of an internal operation that runs as a step of its own (assumption 5): its result goes to the issuer
(R70); an error it raises is reported in STATUS.ERR (R147); a failed `require` is a contract violation (R146). -/
def finishInternal (r : Res Bytes) : State :=
  match r with
  | .ok b s => { s with res := b }
  | .err e s => { s with err := e.toErr }
  | .viol c s => enterViolation c s

/-- One internal operation as a step of its own; while FATAL = 1 nothing is executed (R148; assumption 5). -/
def runInternal (f : State → Res Bytes) (s : State) : Host.Outcome State Fault Refusal :=
  .next (if s.fatal then refuseFatal s else finishInternal (f s))

/-- An operation without a result byte string (R52: "one byte string or nothing"). -/
def noResult (r : Res Unit) : Res Bytes := r.map fun _ => []

/-- `hs_fail` (R121); `isWrite` says that the command is HS_WRITE. STATUS.ERR is written at the end of the command. -/
def hsFail (isWrite : Bool) (s : State) : State :=
  { s with
    phase := .failed
    ctxT := none, keyed := false
    kS := none, kE := none, kPSK := none
    dho := Key.zero, ptx := [], tagx := Tag.zero
    dat := []
    msg := if isWrite then [] else s.msg }

/-- `hs_phasecheck` (R92). -/
def hsPhaseCheck (s : State) : Res Unit :=
  match s.phase with
  | .done => .viol .terminal s
  | .failed => .viol .terminal s
  | .idle => .viol .seq s
  | .active => .ok () s

/-- `tc_precheck` (R125). -/
def tcPrecheck (s : State) : Res Unit :=
  (require (s.tcValid = true) .noCtx s).bind fun _ s =>
  require (s.tcAborted = false) .terminal s

/-- Every state element at its value after reset (R33, R159). The events not yet performed and the numbering of the
free bytes are not the XCB's and stay (assumption 14). -/
def resetState (s : State) : State :=
  { State.reset with inbox := s.inbox, freeCtr := s.freeCtr }

end Sys2Proof.Machine
end

