-- ==== Sys2Proof/Machine/Rom.lean ====
section
/-! DEFINITION. The pattern ROM (41_handshake.md R107), the number of messages of a pattern (R93), who writes a message
(R93), and the key slots a pattern and role need at HS_INIT (R94). Nothing can write it (20_memory.md R48). -/

namespace Sys2Proof.Machine

/-- nmsgs (R93). -/
def Pattern.nmsgs : Pattern → Nat
  | .K | .N | .X => 1
  | .NNpsk2 | .KK | .NK | .NX | .IK => 2
  | .XX => 3

/-- The token list of message k of a pattern, ended by END (R107); no message, no token. -/
def rom (p : Pattern) (k : Nat) : List Token :=
  match p, k with
  | .N, 0 => [.e, .es, .tEnd]
  | .K, 0 => [.e, .es, .ss, .tEnd]
  | .X, 0 => [.e, .es, .s, .ss, .tEnd]
  | .NNpsk2, 0 => [.e, .tEnd]
  | .NNpsk2, 1 => [.e, .ee, .psk, .tEnd]
  | .KK, 0 => [.e, .es, .ss, .tEnd]
  | .KK, 1 => [.e, .ee, .se, .tEnd]
  | .NK, 0 => [.e, .es, .tEnd]
  | .NK, 1 => [.e, .ee, .tEnd]
  | .NX, 0 => [.e, .tEnd]
  | .NX, 1 => [.e, .ee, .s, .es, .tEnd]
  | .XX, 0 => [.e, .tEnd]
  | .XX, 1 => [.e, .ee, .s, .es, .tEnd]
  | .XX, 2 => [.s, .se, .tEnd]
  | .IK, 0 => [.e, .es, .s, .ss, .tEnd]
  | .IK, 1 => [.e, .ee, .se, .tEnd]
  | _, _ => [.tEnd]

/-- The fixed-field length of a token list (R118): 32 for each E, 48 for each S. -/
def fixedLen (ts : List Token) : Nat :=
  Config.keyLen * ts.count .e + Config.encKeyBlockLen * ts.count .s

/-- The writer of message k: the initiator when k is even (R93). -/
def writerOf (k : Nat) : Role := if k % 2 = 0 then .initiator else .responder

/-- The key slots that must be valid at HS_INIT (R94). -/
def need : Pattern → Role → List Slot
  | .N, .initiator => [.E, .RS]
  | .N, .responder => [.S]
  | .K, .initiator => [.S, .E, .RS]
  | .K, .responder => [.S, .RS]
  | .X, .initiator => [.S, .E, .RS]
  | .X, .responder => [.S]
  | .NNpsk2, .initiator => [.E, .PSK]
  | .NNpsk2, .responder => [.E, .PSK]
  | .KK, .initiator => [.S, .E, .RS]
  | .KK, .responder => [.S, .E, .RS]
  | .NK, .initiator => [.E, .RS]
  | .NK, .responder => [.S, .E]
  | .NX, .initiator => [.E]
  | .NX, .responder => [.S, .E]
  | .XX, .initiator => [.S, .E]
  | .XX, .responder => [.S, .E]
  | .IK, .initiator => [.S, .E, .RS]
  | .IK, .responder => [.S, .E]

/-- Every slot a list names is valid. -/
def slotsValid (ks : List Slot) (s : State) : Bool := ks.all fun k => (s.slotVal k).isSome

/-- A slot kept when the list names it, else cleared (R95). -/
def keepSlot (ks : List Slot) (k : Slot) (v : Option Key) : Option Key :=
  if ks.contains k then v else none

end Sys2Proof.Machine
end

