-- ==== Sys2Proof/Machine/Dh.lean ====
section
/-! DEFINITION. The DH-port operations (40_symmetric_state.md R79 to R82). -/

namespace Sys2Proof.Machine

/-- DH.COMBINE(kp, pk) (R81): both slots valid, else CV_KEYSLOT; the secret goes to DHO, or DHFailure is raised. -/
def dhCombine (P : Params) (kp : KpSlot) (pk : PkSlot) (s : State) : Res Unit :=
  match s.kpVal kp, s.pkVal pk with
  | some a, some b =>
    match P.dhCombine a b with
    | some z => .ok () { s with dho := z }
    | none => .err .dhFailure s
  | _, _ => .viol .keySlot s

/-- DH.PUB(kp) (R82): the slot valid, else CV_KEYSLOT; the result is the public key. -/
def dhPub (P : Params) (kp : KpSlot) (s : State) : Res Key :=
  match s.kpVal kp with
  | some a => .ok (P.dhPub a) s
  | none => .viol .keySlot s

/-- DH.COMBINE as a step of its own. -/
def execDhCombine (s : State) : Host.Outcome State Fault Refusal :=
  runInternal (fun s => noResult (dhCombine Config.params s.op.kp s.op.pk s)) s

/-- DH.PUB as a step of its own. -/
def execDhPub (s : State) : Host.Outcome State Fault Refusal :=
  runInternal (fun s => (dhPub Config.params s.op.kp s).map Vector.toList) s

end Sys2Proof.Machine
end

