-- ==== Sys2Proof/Machine/Sponge.lean ====
section
/-! DEFINITION. The lane threader and the sponge-port operations (40_symmetric_state.md R70 to R78): the shared
operations `sp…`, which the sequencers call, and the meanings `execSp…`, which take their operands from the
operand lines. -/

namespace Sys2Proof.Machine

/-- The threader's read (R70): a port operation on an invalid context is a contract violation CV_SEQ. -/
def withCtx {α : Type} (c : Ctx) (s : State) (f : Sponge → Res α) : Res α :=
  match s.ctx c with
  | none => .viol .seq s
  | some x => f x

/-- SP.INIT(c, id) (R71). -/
def spInit (P : Params) (c : Ctx) (id : Bytes) (s : State) : Res Unit :=
  .ok () (s.setCtx c (some (P.spInit id)))

/-- SP.ABSORB(c, data) (R72). -/
def spAbsorb (P : Params) (c : Ctx) (data : Bytes) (s : State) : Res Unit :=
  withCtx c s fun x => .ok () (s.setCtx c (some (P.spAbsorb x data)))

/-- SP.SQUEEZE(c, n) (R73). -/
def spSqueeze (P : Params) (c : Ctx) (n : Nat) (s : State) : Res (Vector Byte n) :=
  withCtx c s fun x => .ok (P.spSqueeze x n).2 (s.setCtx c (some (P.spSqueeze x n).1))

/-- SP.ENCRYPT(c, pt) (R74). -/
def spEncrypt (P : Params) (c : Ctx) (pt : Bytes) (s : State) : Res Bytes :=
  withCtx c s fun x => .ok (P.spEncrypt x pt).2 (s.setCtx c (some (P.spEncrypt x pt).1))

/-- SP.DECRYPT(c, ct) (R75). -/
def spDecrypt (P : Params) (c : Ctx) (ct : Bytes) (s : State) : Res Bytes :=
  withCtx c s fun x => .ok (P.spDecrypt x ct).2 (s.setCtx c (some (P.spDecrypt x ct).1))

/-- SP.RATCHET(c) (R76). -/
def spRatchet (P : Params) (c : Ctx) (s : State) : Res Unit :=
  withCtx c s fun x => .ok () (s.setCtx c (some (P.spRatchet x)))

/-- SP.CLONE(CTX_X, c) (R77): no primitive function is involved. -/
def spClone (c : Ctx) (s : State) : Res Unit :=
  withCtx c s fun x => .ok () (s.setCtx .X (some x))

/-- SP.LANESEED(c, key, idb) (R78). -/
def spLaneseed (P : Params) (c : Ctx) (key : Key) (idb : Byte) (s : State) : Res Unit :=
  .ok () (s.setCtx c (some (P.spLaneseed key idb)))

/-- SP.INIT as a step of its own. -/
def execSpInit (c : Ctx) (s : State) : Host.Outcome State Fault Refusal :=
  runInternal (fun s => noResult (spInit Config.params c s.op.data s)) s

/-- SP.ABSORB as a step of its own. -/
def execSpAbsorb (c : Ctx) (s : State) : Host.Outcome State Fault Refusal :=
  runInternal (fun s => noResult (spAbsorb Config.params c s.op.data s)) s

/-- SP.SQUEEZE as a step of its own. -/
def execSpSqueeze (c : Ctx) (s : State) : Host.Outcome State Fault Refusal :=
  runInternal (fun s => (spSqueeze Config.params c s.op.count s).map Vector.toList) s

/-- SP.ENCRYPT as a step of its own. -/
def execSpEncrypt (c : Ctx) (s : State) : Host.Outcome State Fault Refusal :=
  runInternal (fun s => spEncrypt Config.params c s.op.data s) s

/-- SP.DECRYPT as a step of its own. -/
def execSpDecrypt (c : Ctx) (s : State) : Host.Outcome State Fault Refusal :=
  runInternal (fun s => spDecrypt Config.params c s.op.data s) s

/-- SP.RATCHET as a step of its own. -/
def execSpRatchet (c : Ctx) (s : State) : Host.Outcome State Fault Refusal :=
  runInternal (fun s => noResult (spRatchet Config.params c s)) s

/-- SP.CLONE as a step of its own. -/
def execSpClone (c : Ctx) (s : State) : Host.Outcome State Fault Refusal :=
  runInternal (fun s => noResult (spClone c s)) s

/-- SP.LANESEED as a step of its own; the key is the register RK (R78). -/
def execSpLaneseed (c : Ctx) (s : State) : Host.Outcome State Fault Refusal :=
  runInternal (fun s => noResult (spLaneseed Config.params c s.rk s.op.idb s)) s

end Sys2Proof.Machine
end

