-- ==== Sys2Proof/Machine/Symmetric.lean ====
section
/-! DEFINITION. The symmetric-state mixer (40_symmetric_state.md R83 to R88): the micro-operations `ss…`, which the
handshake sequencer calls, and their meanings `execSs…`. -/

namespace Sys2Proof.Machine

/-- SS_INIT(pid) (R84). -/
def ssInit (P : Params) (pid : Bytes) (s : State) : Res Unit :=
  (spInit P .T pid s).bind fun _ s => .ok () { s with keyed := false }

/-- SS_MIXHASH(data) (R85). -/
def ssMixhash (P : Params) (data : Bytes) (s : State) : Res Unit := spAbsorb P .T data s

/-- SS_MIXKEY(secret) (R86). -/
def ssMixkey (P : Params) (secret : Bytes) (s : State) : Res Unit :=
  (spAbsorb P .T secret s).bind fun _ s => .ok () { s with keyed := true }

/-- SS_ENCRYPT(pt) (R87): the result is ct ‖ tag. -/
def ssEncrypt (P : Params) (pt : Bytes) (s : State) : Res Bytes :=
  (require (s.keyed = true) .notKeyed s).bind fun _ s =>
  (spEncrypt P .T pt s).bind fun ct s =>
  (spSqueeze P .T 16 s).bind fun tag s =>
  .ok (ct ++ tag.toList) s

/-- SS_DECRYPT(in) (R88). TAGX and PTX are zeroized at the end of each decrypt, whatever its outcome (R168). -/
def ssDecrypt (P : Params) (inp : Bytes) (s : State) : Res Bytes :=
  (require (s.keyed = true) .notKeyed s).bind fun _ s =>
  if inp.length < Config.tagLen then .err .ciphertextTooShort s
  else
    let n := inp.length - Config.tagLen
    (spDecrypt P .T (inp.take n) s).bind fun pt s =>
    (spSqueeze P .T 16 { s with ptx := pt }).bind fun tag s =>
    let s := { s with tagx := tag }
    if tagDiffers (inp.drop n) s.tagx.toList then
      .err .messageCorrupted { s with ptx := [], tagx := Tag.zero }
    else
      .ok s.ptx { s with ptx := [], tagx := Tag.zero }

/-- SS_INIT as a step of its own. -/
def execSsInit (s : State) : Host.Outcome State Fault Refusal :=
  runInternal (fun s => noResult (ssInit Config.params s.op.data s)) s

/-- SS_MIXHASH as a step of its own. -/
def execSsMixhash (s : State) : Host.Outcome State Fault Refusal :=
  runInternal (fun s => noResult (ssMixhash Config.params s.op.data s)) s

/-- SS_MIXKEY as a step of its own. -/
def execSsMixkey (s : State) : Host.Outcome State Fault Refusal :=
  runInternal (fun s => noResult (ssMixkey Config.params s.op.data s)) s

/-- SS_ENCRYPT as a step of its own. -/
def execSsEncrypt (s : State) : Host.Outcome State Fault Refusal :=
  runInternal (fun s => ssEncrypt Config.params s.op.data s) s

/-- SS_DECRYPT as a step of its own. -/
def execSsDecrypt (s : State) : Host.Outcome State Fault Refusal :=
  runInternal (fun s => ssDecrypt Config.params s.op.data s) s

end Sys2Proof.Machine
end

