-- ==== Sys2Proof/Machine/Tokens.lean ====
section
/-! DEFINITION. The tokens (41_handshake.md R96 to R106). A token runs in the form (writing or reading) and at the
running offset that the operand lines hold; HS_WRITE and HS_READ set both. -/

namespace Sys2Proof.Machine

/-- `off <- off + n` (R97 to R100). In a command the result is at most 80 (R139(b)). The width of `off` is not stated; at
16 bits a token issued as a step of its own near 65535 wraps it (DESIGN CHOICE: assumption 21). -/
def advanceOff (n : BitVec 16) (s : State) : State :=
  { s with op := { s.op with off := s.op.off + n } }

/-- MemWrite(MSG, off, b) of a token (R142), inside the capacity of MSG: R142 has every range checked; the check cannot
fail in a command, whose tokens end at offset 80 or less (R139(b)). CV_LEN: assumption 12. -/
def tokenWrite (b : Bytes) (s : State) : Res Unit :=
  (require (s.op.off.toNat + b.length ≤ Config.maxMsgLen) .len s).bind fun _ s =>
  .ok () (memWrite .MSG s.op.off.toNat b s)

/-- Token E, writing side (R97). -/
def tokenEWrite (P : Params) (s : State) : Res Unit :=
  (require (s.kE.isSome = true) .keySlot s).bind fun _ s =>
  (dhPub P .E s).bind fun pk s =>
  (tokenWrite pk.toList s).bind fun _ s =>
  (ssMixhash P pk.toList s).bind fun _ s =>
  .ok () (advanceOff 32 s)

/-- Token E, reading side (R98). -/
def tokenERead (P : Params) (s : State) : Res Unit :=
  (require (s.kRE.isSome = false) .keySlot s).bind fun _ s =>
  let r := memRead .MSG s.op.off.toNat 32 s
  let pk := keyOfBytes r.1
  (ssMixhash P pk.toList { r.2 with kRE := some pk }).bind fun _ s =>
  .ok () (advanceOff 32 s)

/-- Token S, writing side (R99). -/
def tokenSWrite (P : Params) (s : State) : Res Unit :=
  (require (s.kS.isSome = true) .keySlot s).bind fun _ s =>
  (dhPub P .S s).bind fun pk s =>
  (ssEncrypt P pk.toList s).bind fun blk s =>
  (tokenWrite blk s).bind fun _ s =>
  .ok () (advanceOff 48 s)

/-- Token S, reading side (R100). -/
def tokenSRead (P : Params) (s : State) : Res Unit :=
  (require (s.kRS.isSome = false) .keySlot s).bind fun _ s =>
  let r := memRead .MSG s.op.off.toNat 48 s
  (ssDecrypt P r.1 r.2).bind fun pt s =>
  .ok () (advanceOff 48 { s with kRS := some (keyOfBytes pt) })

/-- DH.COMBINE, then SS_MIXKEY of DHO, then DHO zeroized: the common part of the DH tokens (R101 to R104). -/
def mixDh (P : Params) (kp : KpSlot) (pk : PkSlot) (s : State) : Res Unit :=
  (dhCombine P kp pk s).bind fun _ s =>
  (ssMixkey P s.dho.toList s).bind fun _ s =>
  .ok () { s with dho := Key.zero }

/-- Token E in the form that runs (R107). -/
def tokenE (P : Params) (s : State) : Res Unit :=
  match s.op.form with
  | .writing => tokenEWrite P s
  | .reading => tokenERead P s

/-- Token S in the form that runs (R107). -/
def tokenS (P : Params) (s : State) : Res Unit :=
  match s.op.form with
  | .writing => tokenSWrite P s
  | .reading => tokenSRead P s

/-- Token EE (R101). -/
def tokenEe (P : Params) (s : State) : Res Unit := mixDh P .E .RE s

/-- Token ES (R102): the initiator's ephemeral with the responder's static key. -/
def tokenEs (P : Params) (s : State) : Res Unit :=
  match s.role with
  | .initiator => mixDh P .E .RS s
  | .responder => mixDh P .S .RE s

/-- Token SE (R103): the initiator's static with the responder's ephemeral key. -/
def tokenSe (P : Params) (s : State) : Res Unit :=
  match s.role with
  | .initiator => mixDh P .S .RE s
  | .responder => mixDh P .E .RS s

/-- Token SS (R104). -/
def tokenSs (P : Params) (s : State) : Res Unit := mixDh P .S .RS s

/-- Token PSK (R105). -/
def tokenPsk (P : Params) (s : State) : Res Unit :=
  match s.kPSK with
  | none => .viol .keySlot s
  | some k => ssMixkey P k.toList s

/-- One token of a list (R107). -/
def runToken (P : Params) (t : Token) (s : State) : Res Unit :=
  match t with
  | .tEnd => .ok () s
  | .e => tokenE P s
  | .s => tokenS P s
  | .ee => tokenEe P s
  | .es => tokenEs P s
  | .se => tokenSe P s
  | .ss => tokenSs P s
  | .psk => tokenPsk P s

/-- A token list from its first token to END, without skipping or repeating; the only early exit is an error or a
contract violation (R106, R140(a)). -/
def runTokens (P : Params) (ts : List Token) (s : State) : Res Unit :=
  match ts with
  | [] => .ok () s
  | t :: rest => (runToken P t s).bind fun _ s => runTokens P rest s

/-- END as a step of its own: no operation (R56). -/
def execTokEnd (s : State) : Host.Outcome State Fault Refusal :=
  runInternal (fun s => noResult (runToken Config.params .tEnd s)) s

/-- E as a step of its own. -/
def execTokE (s : State) : Host.Outcome State Fault Refusal :=
  runInternal (fun s => noResult (tokenE Config.params s)) s

/-- S as a step of its own. -/
def execTokS (s : State) : Host.Outcome State Fault Refusal :=
  runInternal (fun s => noResult (tokenS Config.params s)) s

/-- EE as a step of its own. -/
def execTokEe (s : State) : Host.Outcome State Fault Refusal :=
  runInternal (fun s => noResult (tokenEe Config.params s)) s

/-- ES as a step of its own. -/
def execTokEs (s : State) : Host.Outcome State Fault Refusal :=
  runInternal (fun s => noResult (tokenEs Config.params s)) s

/-- SE as a step of its own. -/
def execTokSe (s : State) : Host.Outcome State Fault Refusal :=
  runInternal (fun s => noResult (tokenSe Config.params s)) s

/-- SS as a step of its own. -/
def execTokSs (s : State) : Host.Outcome State Fault Refusal :=
  runInternal (fun s => noResult (tokenSs Config.params s)) s

/-- PSK as a step of its own. -/
def execTokPsk (s : State) : Host.Outcome State Fault Refusal :=
  runInternal (fun s => noResult (tokenPsk Config.params s)) s

end Sys2Proof.Machine
end

