-- ==== Sys2Proof/Machine/Handshake.lean ====
section
/-! DEFINITION. The handshake commands (41_handshake.md R95, R117 to R123): a body over the parameters for each, and
its meaning. -/

namespace Sys2Proof.Machine

/-- The state that HS_INIT hands to SS_INIT (R95): unneeded slots cleared, the handshake control set. -/
def hsInitControl (p : Pattern) (role : Role) (s : State) : State :=
  { s with
    kS := keepSlot (need p role) .S s.kS
    kE := keepSlot (need p role) .E s.kE
    kRS := keepSlot (need p role) .RS s.kRS
    kRE := keepSlot (need p role) .RE s.kRE
    kPSK := keepSlot (need p role) .PSK s.kPSK
    role := role, pattern := p, seq := 0, off := 0
    msgcur := false, lastw := false, paydone := false }

/-- HS_INIT pat, role (R95). -/
def hsInit (P : Params) (pat : BitVec 4) (role : Role) (s : State) : Res Unit :=
  match Pattern.ofCode pat with
  | none => .viol .illegal s
  | some p =>
    (require (slotsValid (need p role) s = true) .keySlot s).bind fun _ s =>
    (ssInit P (protocolId p) (hsInitControl p role s)).bind fun _ s =>
    .ok () { s with phase := .active }

/-- The state in which HS_WRITE runs its tokens (R117): HS.SEQ advanced, MSG empty, off = 0, the writing form. -/
def hsWriteStart (s : State) : State :=
  { s with seq := s.seq + 1, msg := [], op := { s.op with form := .writing, off := 0 } }

/-- What HS_WRITE writes after its last token (R117). -/
def hsWriteEnd (s : State) : State :=
  { s with
    off := s.op.off, msg := s.msg.take s.op.off.toNat
    msgcur := true, lastw := true, paydone := false }

/-- HS_WRITE (R117). -/
def hsWrite (P : Params) (s : State) : Res Unit :=
  (hsPhaseCheck s).bind fun _ s =>
  (require (s.seq.toNat < s.pattern.nmsgs) .seq s).bind fun _ s =>
  (require (writerOf s.seq.toNat = s.role) .seq s).bind fun _ s =>
  match runTokens P (rom s.pattern s.seq.toNat) (hsWriteStart s) with
  | .ok _ s => .ok () (hsWriteEnd s)
  | .err e s => .err e (hsFail true s)
  | .viol c s => .viol c s

/-- The state in which HS_READ checks the frame length and runs its tokens (R118): HS.SEQ advanced, off = 0, the reading
form. -/
def hsReadStart (s : State) : State :=
  { s with seq := s.seq + 1, op := { s.op with form := .reading, off := 0 } }

/-- What HS_READ writes after its last token (R118). -/
def hsReadEnd (s : State) : State :=
  { s with off := s.op.off, msgcur := true, lastw := false, paydone := false }

/-- HS_READ (R118). -/
def hsRead (P : Params) (s : State) : Res Unit :=
  (hsPhaseCheck s).bind fun _ s =>
  (require (s.seq.toNat < s.pattern.nmsgs) .seq s).bind fun _ s =>
  (require (writerOf s.seq.toNat ≠ s.role) .seq s).bind fun _ s =>
  if s.msg.length < fixedLen (rom s.pattern s.seq.toNat) then
    .err .ciphertextTooShort (hsFail false (hsReadStart s))
  else
    match runTokens P (rom s.pattern s.seq.toNat) (hsReadStart s) with
    | .ok _ s => .ok () (hsReadEnd s)
    | .err e s => .err e (hsFail false s)
    | .viol c s => .viol c s

/-- HS_ENCPAY (R119). -/
def hsEncpay (P : Params) (s : State) : Res Unit :=
  (hsPhaseCheck s).bind fun _ s =>
  (require (s.msgcur = true ∧ s.lastw = true ∧ s.paydone = false) .seq s).bind fun _ s =>
  (require (s.keyed = true) .notKeyed s).bind fun _ s =>
  (require (s.off.toNat + s.dat.length + Config.tagLen ≤ Config.maxMsgLen) .len s).bind fun _ s =>
  (ssEncrypt P s.dat s).bind fun blk s =>
  let len := s.off.toNat + s.dat.length + Config.tagLen
  let s := memWrite .MSG s.off.toNat blk s
  .ok () { s with msg := s.msg.take len, paydone := true }

/-- HS_DECPAY (R120). -/
def hsDecpay (P : Params) (s : State) : Res Unit :=
  (hsPhaseCheck s).bind fun _ s =>
  (require (s.msgcur = true ∧ s.lastw = false ∧ s.paydone = false) .seq s).bind fun _ s =>
  (require (s.keyed = true) .notKeyed s).bind fun _ s =>
  if s.msg.length < s.off.toNat + Config.tagLen then
    .err .ciphertextTooShort (hsFail false s)
  else
    match ssDecrypt P (s.msg.drop s.off.toNat) s with
    | .ok pt s => .ok () { s with dat := pt, paydone := true }
    | .err e s => .err e (hsFail false s)
    | .viol c s => .viol c s

/-- What HS_FINAL writes after the two lanes are seeded (R123). -/
def hsFinalEnd (s : State) : State :=
  { s with
    snonce := 0, rnonce := 0, tcAborted := false, tcValid := true
    phase := .done, msgcur := false
    ctxT := none, keyed := false
    kS := none, kE := none, kPSK := none
    rk := Key.zero }

/-- HS_FINAL (R123), with the lane identifiers of R122. -/
def hsFinal (P : Params) (s : State) : Res Unit :=
  (hsPhaseCheck s).bind fun _ s =>
  (require (s.seq.toNat = s.pattern.nmsgs) .seq s).bind fun _ s =>
  (spSqueeze P .T 32 s).bind fun rk s =>
  let s := { s with rk := rk }
  (spLaneseed P .S s.rk (roleByte s.role) s).bind fun _ s =>
  (spLaneseed P .R s.rk (~~~ (roleByte s.role)) s).bind fun _ s =>
  .ok () (hsFinalEnd s)

/-- The meaning of HS_INIT. -/
def execHsInit (pat : BitVec 4) (role : Role) (s : State) : Host.Outcome State Fault Refusal :=
  runCommand (hsInit Config.params pat role) s

/-- The meaning of HS_WRITE. -/
def execHsWrite (s : State) : Host.Outcome State Fault Refusal :=
  runCommand (hsWrite Config.params) s

/-- The meaning of HS_READ. -/
def execHsRead (s : State) : Host.Outcome State Fault Refusal :=
  runCommand (hsRead Config.params) s

/-- The meaning of HS_ENCPAY. -/
def execHsEncpay (s : State) : Host.Outcome State Fault Refusal :=
  runCommand (hsEncpay Config.params) s

/-- The meaning of HS_DECPAY. -/
def execHsDecpay (s : State) : Host.Outcome State Fault Refusal :=
  runCommand (hsDecpay Config.params) s

/-- The meaning of HS_FINAL. -/
def execHsFinal (s : State) : Host.Outcome State Fault Refusal :=
  runCommand (hsFinal Config.params) s

end Sys2Proof.Machine
end

