-- ==== Sys2Proof/Machine/PasswordHash.lean ====
section
/-! DEFINITION. The password-hash sequencer (43_password_hash.md R133 to R138). -/

namespace Sys2Proof.Machine

/-- One SP.ABSORB on CTX_X per input, in order (R135). -/
def absorbAll (P : Params) (xs : List Bytes) (s : State) : Res Unit :=
  match xs with
  | [] => .ok () s
  | x :: rest => (spAbsorb P .X x s).bind fun _ s => absorbAll P rest s

/-- The hash call H(x1, ..., xk) (R135): a fresh sponge, the call counter first, then the inputs. -/
def phH (P : Params) (xs : List Bytes) (s : State) : Res Key :=
  (spInit P .X Config.phId s).bind fun _ s =>
  (spAbsorb P .X (leBytes 8 s.phCnt.toNat) s).bind fun _ s =>
  (absorbAll P xs { s with phCnt := s.phCnt + 1 }).bind fun _ s =>
  (spSqueeze P .X 32 s).bind fun out s =>
  .ok out { s with ctxX := none }

/-- PHB[m], as bytes (R37). -/
def block (s : State) (m : Nat) : Bytes := (s.phb.getD m Key.zero).toList

/-- `B[m] <- H(xs)` (R136). -/
def hashToBlock (P : Params) (m : Nat) (xs : List Bytes) (s : State) : Res Unit :=
  (phH P xs s).bind fun b s => .ok () { s with phb := s.phb.set m b }

/-- `(m - 1) mod N`: m - 1 for m ≥ 1 and N - 1 for m = 0 (R139(f)). -/
def prevIndex (n m : Nat) : Nat := (m + n - 1) % n

/-- One link of step 2 (R136): the index hash, the index, the mixing hash. -/
def phLink (P : Params) (n l : Nat) (s : State) : Res Unit :=
  let s := { s with phL := BitVec.ofNat 64 l }
  (phH P [s.ad, leBytes 8 s.phT.toNat, leBytes 8 s.phM.toNat, leBytes 8 s.phL.toNat] s).bind fun r s =>
  let s := { s with phJ := BitVec.ofNat 64 (leNat r.toList % n) }
  hashToBlock P s.phM.toNat [block s s.phM.toNat, block s s.phJ.toNat] s

/-- One block of step 2 (R136): the recompute from the previous block, then PH_DELTA links. -/
def phBlock (P : Params) (n m : Nat) (s : State) : Res Unit :=
  let s := { s with phM := BitVec.ofNat 64 m }
  (hashToBlock P m [block s (prevIndex n m), block s m] s).bind fun _ s =>
  forUp Config.phDelta (phLink P n) s

/-- One round of step 2 (R136). -/
def phRound (P : Params) (n t : Nat) (s : State) : Res Unit :=
  forUp n (phBlock P n) { s with phT := BitVec.ofNat 64 t }

/-- Step 1 of R136, the seeding chain. -/
def phSeed (P : Params) (n : Nat) (s : State) : Res Unit :=
  (hashToBlock P 0 [s.dat, s.ad] s).bind fun _ s =>
  forUp (n - 1) (fun i s => hashToBlock P (i + 1) [block s i] s) s

/-- PH_HASH (R136); the legal parameter range is R134's, in unbounded arithmetic (R139(g)). -/
def phHash (P : Params) (s : State) : Res Unit :=
  let n := s.p0.toNat
  let t := s.p1.toNat
  (require ((1 ≤ n ∧ n ≤ P.phMaxSpace) ∧ n + 7 * t * n ≤ 2 ^ 64) .param s).bind fun _ s =>
  (phSeed P n { s with phCnt := 0, phb := List.replicate n Key.zero }).bind fun _ s =>
  (forUp t (phRound P n) s).bind fun _ s =>
  .ok () { s with
    digest := s.phb.getD (n - 1) Key.zero
    phb := [], phCnt := 0, phT := 0, phM := 0, phL := 0, phJ := 0, ctxX := none }

/-- The meaning of PH_HASH. -/
def execPhHash (s : State) : Host.Outcome State Fault Refusal :=
  runCommand (phHash Config.params) s

end Sys2Proof.Machine
end

