-- ==== Sys2Proof/Machine/System.lean ====
section
/-! DEFINITION. The system command RESET (70_reset_and_hazards.md R159): the return from FATAL (60_exceptions.md R149). -/

namespace Sys2Proof.Machine

/-- The meaning of RESET: exactly the effect of hardware reset, in every state, FATAL = 1 included. -/
def execReset (s : State) : Host.Outcome State Fault Refusal := .next (resetState s)

end Sys2Proof.Machine
end

