-- ==== Sys2Proof/Machine/Transport.lean ====
section
/-! DEFINITION. The transport commands (42_transport.md R124 to R132). -/

namespace Sys2Proof.Machine

/-- `if adp = 1 then SP.ABSORB(CTX_X, AD[0..ADLEN))` (R126, R127). -/
def absorbAd (P : Params) (adp : Bool) (s : State) : Res Unit :=
  match adOperand adp s with
  | some d => spAbsorb P .X d s
  | none => .ok () s

/-- TC_ENC adp (R126). -/
def tcEnc (P : Params) (adp : Bool) (s : State) : Res Unit :=
  (tcPrecheck s).bind fun _ s =>
  (require (s.dat.length + Config.tagLen ≤ Config.maxMsgLen) .len s).bind fun _ s =>
  (require (s.snonce.toNat < Config.nonceMax.toNat) .nonce s).bind fun _ s =>
  (spClone .S s).bind fun _ s =>
  (spAbsorb P .X (nonceBytes s.snonce) s).bind fun _ s =>
  (absorbAd P adp s).bind fun _ s =>
  (spEncrypt P .X s.dat s).bind fun ct s =>
  (spSqueeze P .X 16 s).bind fun tag s =>
  .ok () { s with msg := ct ++ tag.toList, snonce := s.snonce + 1, ctxX := none }

/-- TC_DEC adp (R127). The comparison with 65535 is always true of a buffer in its canonical form. -/
def tcDec (P : Params) (adp : Bool) (s : State) : Res Unit :=
  (tcPrecheck s).bind fun _ s =>
  (require (s.msg.length ≤ Config.maxMsgLen) .len s).bind fun _ s =>
  (require (s.rnonce.toNat < Config.nonceMax.toNat) .nonce s).bind fun _ s =>
  if s.msg.length < Config.tagLen then .err .ciphertextTooShort s
  else
    let n := s.msg.length - Config.tagLen
    (spClone .R s).bind fun _ s =>
    (spAbsorb P .X (nonceBytes s.rnonce) s).bind fun _ s =>
    (absorbAd P adp s).bind fun _ s =>
    (spDecrypt P .X (s.msg.take n) s).bind fun pt s =>
    (spSqueeze P .X 16 { s with ptx := pt }).bind fun tag s =>
    let s := { s with tagx := tag }
    if tagDiffers (s.msg.drop n) s.tagx.toList then
      .err .messageCorrupted
        { s with tcAborted := true, dat := [], ptx := [], tagx := Tag.zero, ctxX := none }
    else
      .ok () { s with
        dat := s.ptx, rnonce := s.rnonce + 1, ptx := [], tagx := Tag.zero, ctxX := none }

/-- TC_REKEY_S (R129). -/
def tcRekeyS (P : Params) (s : State) : Res Unit :=
  (tcPrecheck s).bind fun _ s => spRatchet P .S s

/-- TC_REKEY_R (R130). -/
def tcRekeyR (P : Params) (s : State) : Res Unit :=
  (tcPrecheck s).bind fun _ s => spRatchet P .R s

/-- TC_REKEY (R131): the send lane first. -/
def tcRekey (P : Params) (s : State) : Res Unit :=
  (tcPrecheck s).bind fun _ s =>
  (spRatchet P .S s).bind fun _ s => spRatchet P .R s

/-- The meaning of TC_ENC. -/
def execTcEnc (adp : Bool) (s : State) : Host.Outcome State Fault Refusal :=
  runCommand (tcEnc Config.params adp) s

/-- The meaning of TC_DEC. -/
def execTcDec (adp : Bool) (s : State) : Host.Outcome State Fault Refusal :=
  runCommand (tcDec Config.params adp) s

/-- The meaning of TC_REKEY_S. -/
def execTcRekeyS (s : State) : Host.Outcome State Fault Refusal :=
  runCommand (tcRekeyS Config.params) s

/-- The meaning of TC_REKEY_R. -/
def execTcRekeyR (s : State) : Host.Outcome State Fault Refusal :=
  runCommand (tcRekeyR Config.params) s

/-- The meaning of TC_REKEY. -/
def execTcRekey (s : State) : Host.Outcome State Fault Refusal :=
  runCommand (tcRekey Config.params) s

end Sys2Proof.Machine
end

