-- ==== Sys2Proof/Machine/Dispatch.lean ====
section
/-! DEFINITION. The meaning of every instruction, one arm per constructor of Instr. -/

namespace Sys2Proof.Machine

def exec (i : Instr) (s : State) : Host.Outcome State Fault Refusal :=
  match i with
  -- host commands (format H)
  | .hsInit pat role => Sys2Proof.Machine.execHsInit pat role s
  | .hsWrite => Sys2Proof.Machine.execHsWrite s
  | .hsRead => Sys2Proof.Machine.execHsRead s
  | .hsEncpay => Sys2Proof.Machine.execHsEncpay s
  | .hsDecpay => Sys2Proof.Machine.execHsDecpay s
  | .hsFinal => Sys2Proof.Machine.execHsFinal s
  | .tcEnc adp => Sys2Proof.Machine.execTcEnc adp s
  | .tcDec adp => Sys2Proof.Machine.execTcDec adp s
  | .tcRekeyS => Sys2Proof.Machine.execTcRekeyS s
  | .tcRekeyR => Sys2Proof.Machine.execTcRekeyR s
  | .tcRekey => Sys2Proof.Machine.execTcRekey s
  | .phHash => Sys2Proof.Machine.execPhHash s
  | .reset => Sys2Proof.Machine.execReset s
  -- tokens (format T)
  | .tokEnd => Sys2Proof.Machine.execTokEnd s
  | .tokE => Sys2Proof.Machine.execTokE s
  | .tokS => Sys2Proof.Machine.execTokS s
  | .tokEe => Sys2Proof.Machine.execTokEe s
  | .tokEs => Sys2Proof.Machine.execTokEs s
  | .tokSe => Sys2Proof.Machine.execTokSe s
  | .tokSs => Sys2Proof.Machine.execTokSs s
  | .tokPsk => Sys2Proof.Machine.execTokPsk s
  -- symmetric-state micro-operations (format U)
  | .ssInit => Sys2Proof.Machine.execSsInit s
  | .ssMixhash => Sys2Proof.Machine.execSsMixhash s
  | .ssMixkey => Sys2Proof.Machine.execSsMixkey s
  | .ssEncrypt => Sys2Proof.Machine.execSsEncrypt s
  | .ssDecrypt => Sys2Proof.Machine.execSsDecrypt s
  -- sponge port (format P)
  | .spInit c => Sys2Proof.Machine.execSpInit c s
  | .spAbsorb c => Sys2Proof.Machine.execSpAbsorb c s
  | .spSqueeze c => Sys2Proof.Machine.execSpSqueeze c s
  | .spEncrypt c => Sys2Proof.Machine.execSpEncrypt c s
  | .spDecrypt c => Sys2Proof.Machine.execSpDecrypt c s
  | .spRatchet c => Sys2Proof.Machine.execSpRatchet c s
  | .spClone c => Sys2Proof.Machine.execSpClone c s
  | .spLaneseed c => Sys2Proof.Machine.execSpLaneseed c s
  -- DH port (format D)
  | .dhCombine => Sys2Proof.Machine.execDhCombine s
  | .dhPub => Sys2Proof.Machine.execDhPub s

end Sys2Proof.Machine
end

