-- ==== Sys2Proof/Machine/HostAccess.lean ====
section
/-! DEFINITION. The host's register, buffer and key-slot accesses (10_state.md R26, R30, R32; 93 U12). They are possible
between commands always, also while FATAL = 1 (60_exceptions.md R148). Reads change nothing (20_memory.md R36), so
they are functions of the state. -/

namespace Sys2Proof.Machine

/-- A write of a length register (R30): a smaller value truncates the buffer; a larger one lets the byte string cover
bytes that were not state, which are any value (93 U6). -/
def hostSetLen (b : Buf) (n : BitVec 16) (s : State) : State :=
  let cur := s.buf b
  if n.toNat ≤ cur.length then s.setBuf b (cur.take n.toNat)
  else
    let s' := s.setBuf b (cur ++ freeBytes s.freeCtr (n.toNat - cur.length))
    { s' with freeCtr := s.freeCtr + (n.toNat - cur.length) }

/-- A write of a register other than CMD by its number (R30): 2 to 6 are written; a read-only register (1, 7, 8, 9)
ignores it (93 U12); there is no register above 9. A 16-bit register takes the low 16 bits (assumption 10). -/
def hostWriteReg (n : Nat) (v : Word32) (s : State) : Host.Outcome State Fault Refusal :=
  match n with
  | 2 => .next { s with p0 := v }
  | 3 => .next { s with p1 := v }
  | 4 => .next (hostSetLen .MSG (v.setWidth 16) s)
  | 5 => .next (hostSetLen .DAT (v.setWidth 16) s)
  | 6 => .next (hostSetLen .AD (v.setWidth 16) s)
  | 1 => .next s
  | 7 => .next s
  | 8 => .next s
  | 9 => .next s
  | _ => .fault .noSuchRegister

/-- A buffer loaded with a byte string, its length register with it (R32). -/
def hostLoad (b : Buf) (data : Bytes) (s : State) : Host.Outcome State Fault Refusal :=
  if data.length ≤ Config.maxMsgLen then .next (s.setBuf b data) else .fault .beyondCapacity

/-- Bytes written at an offset without a change of the length: those inside the byte string replace its bytes; those at
or beyond the length are not state (R32, 93 U6). -/
def hostPoke (b : Buf) (a : Nat) (data : Bytes) (s : State) : State :=
  let cur := s.buf b
  s.setBuf b (cur.take a ++ data.take (cur.length - a) ++ cur.drop (a + data.length))

/-- A key slot loaded by the host (R26): K.S, K.E, K.RS and K.PSK while HS.PHASE is not ACTIVE; K.RE never. Any other
write is ignored (93 U12). -/
def hostWriteSlot (k : Slot) (v : Key) (s : State) : State :=
  match k, s.phase with
  | _, .active => s
  | .RE, _ => s
  | k, _ => s.setSlot k (some v)

/-- What a host read of a register gives (R30); none for CMD and for a number above 9. -/
def State.readReg (s : State) (n : Nat) : Option (BitVec 64) :=
  match n with
  | 1 => some (s.status.setWidth 64)
  | 2 => some (s.p0.setWidth 64)
  | 3 => some (s.p1.setWidth 64)
  | 4 => some (BitVec.ofNat 64 s.msg.length)
  | 5 => some (BitVec.ofNat 64 s.dat.length)
  | 6 => some (BitVec.ofNat 64 s.ad.length)
  | 7 => some (s.kv.setWidth 64)
  | 8 => some s.snonce
  | 9 => some s.rnonce
  | _ => none

/-- What a host read of a key slot gives: the value of K.RS or K.RE when it is valid (R26); no value of K.S, K.E and
K.PSK, which are write-only (R26, 93 U12). What K.RS or K.RE reads as while its valid bit is 0 is not stated: no value
(DESIGN CHOICE: assumption 22). -/
def State.readSlot (s : State) (k : Slot) : Option Key :=
  match k with
  | .RS => s.kRS
  | .RE => s.kRE
  | _ => none

/-- What a host read of DIGEST gives (R28, R35). -/
def State.readDigest (s : State) : Key := s.digest

/-- A host write of a register by its number, CMD left aside. -/
def performHost (e : Event) (s : State) : Host.Outcome State Fault Refusal :=
  match e with
  | .cmd _ => .next s
  | .reg n v => hostWriteReg n v s
  | .load b data => hostLoad b data s
  | .poke b a data => .next (hostPoke b a data s)
  | .slot k v => .next (hostWriteSlot k v s)
  | .issue _ _ _ => .next s

end Sys2Proof.Machine
end

