-- ==== Sys2Proof/Machine/Fetch.lean ====
section
/-! DEFINITION. Performing one event: the command word comes from the host at issue (20_memory.md R48), is decoded
(30_encoding.md R64) and executed; another host access is performed; an internal instruction is issued with its
operands. -/

namespace Sys2Proof.Machine

/-- The bytes of the instruction that an event carries, with their format; none for another host access. A write of
register 0 is a write of CMD (R30). -/
def Event.word (e : Event) : Option (Format × Bytes) :=
  match e with
  | .cmd w => some (.H, bytesOfWord w)
  | .reg 0 w => some (.H, bytesOfWord w)
  | .issue f w _ => some (f, [w])
  | _ => none

/-- The state in which an event's instruction executes: the operand lines carry the operands of an issued internal
instruction. -/
def Event.prepare (e : Event) (s : State) : State :=
  match e with
  | .issue _ _ o => { s with op := o }
  | _ => s

/-- What an event whose word decodes to nothing does: a command word is CV_ILLEGAL, or refused while FATAL = 1 (R64,
R148); an internal code that the spec reserves is issued by no sequencer (R56, R57) and has no effect stated. -/
def rejectWord (e : Event) (s : State) : Host.Outcome State Fault Refusal :=
  match e with
  | .issue _ _ _ => .refused .reservedCode
  | _ => .next (illegalCommand s)

/-- One event. -/
def perform (e : Event) (s : State) : Host.Outcome State Fault Refusal :=
  match e.word with
  | none => performHost e s
  | some (f, bs) =>
    match decode f bs with
    | .ok i => exec i (e.prepare s)
    | .error _ => rejectWord e s

/-- The event that carries a table row's bits: a CMD write for format H, an issue with the operand lines as they stand
for the others. -/
def eventOfBits (f : Format) (w : Nat) (o : Operands) : Event :=
  match f with
  | .H => .cmd (BitVec.ofNat 32 w)
  | f => .issue f (BitVec.ofNat 8 w) o

end Sys2Proof.Machine
end

