-- ==== Sys2Proof/Machine/Step.lean ====
section
/-! DEFINITION. One step: the next event is taken from the inbox and performed; with none the XCB is idle and holds all
its state (spec 60_exceptions.md R157). -/

namespace Sys2Proof.Machine

/-- One step of the XCB. -/
def step (s : State) : Host.Outcome State Fault Refusal :=
  match s.inbox with
  | [] => .next s
  | e :: rest => perform e { s with inbox := rest }

/-- The state in which the very next step runs the table row's instruction (assumption 2): its event stands first in
the inbox. -/
def State.withFetchWord (s : State) (nbits w : Nat) : State :=
  match formatOfBits nbits with
  | none => s
  | some f => { s with inbox := eventOfBits f w s.op :: s.inbox }

end Sys2Proof.Machine
end

