-- ==== Sys2Proof/Machine/Reference.lean ====
section
/-! DEFINITION. Clear forms that claims compare the machine with: the password hash as a function of its four operands
with every call counter in closed form (43_password_hash.md R135 to R137; 95_test_vectors.md section 8 numbers the
calls so), and the nine patterns expanded for both roles as 41_handshake.md R108 to R116 write them out. -/

namespace Sys2Proof.Machine

/-- `H#c(x1, ..., xk)` (R135): a fresh sponge absorbs the counter, then each input by its own call; 32 bytes out. -/
def refHash (P : Params) (c : Nat) (xs : List Bytes) : Key :=
  (P.spSqueeze (xs.foldl P.spAbsorb (P.spAbsorb (P.spInit []) (leBytes 8 c))) 32).2

/-- Block m of a buffer, as bytes. -/
def refBlockBytes (bs : List Key) (m : Nat) : Bytes := (bs.getD m Key.zero).toList

/-- Step 1 (R136): call m makes block m. -/
def refSeed (P : Params) (pw salt : Bytes) (n : Nat) : List Key :=
  (List.range (n - 1)).foldl
    (fun bs i => bs.set (i + 1) (refHash P (i + 1) [refBlockBytes bs i]))
    ((List.replicate n Key.zero).set 0 (refHash P 0 [pw, salt]))

/-- Link l of block m of round t (R136); its two calls are numbers c + 1 + 2l and c + 2 + 2l, where c = N + 7(tN + m) is
the block's first call. -/
def refLink (P : Params) (salt : Bytes) (n t m : Nat) (bs : List Key) (l : Nat) : List Key :=
  let c := n + 7 * (t * n + m)
  let r := refHash P (c + 1 + 2 * l) [salt, leBytes 8 t, leBytes 8 m, leBytes 8 l]
  let j := leNat r.toList % n
  bs.set m (refHash P (c + 2 + 2 * l) [refBlockBytes bs m, refBlockBytes bs j])

/-- Block m of round t (R136): the recompute from the previous block, then three links. -/
def refRoundBlock (P : Params) (salt : Bytes) (n t : Nat) (bs : List Key) (m : Nat) : List Key :=
  let prev := if m = 0 then n - 1 else m - 1
  let bs := bs.set m (refHash P (n + 7 * (t * n + m)) [refBlockBytes bs prev, refBlockBytes bs m])
  [0, 1, 2].foldl (refLink P salt n t m) bs

/-- The digest as a function of (password, salt, spaceCost, timeCost) and the sponge functions (R136, R138(e)). -/
def refDigest (P : Params) (pw salt : Bytes) (n t : Nat) : Key :=
  ((List.range t).foldl (fun bs r => (List.range n).foldl (refRoundBlock P salt n r) bs)
    (refSeed P pw salt n)).getD (n - 1) Key.zero

/-- One entry of the expansions of R108 to R116: `wE`, `rE`, `wS`, `rS`, MIXKEY(DH(kp, pk)), SS_MIXKEY(K.PSK). -/
inductive Expanded where
  | wE | rE | wS | rS
  | mix (kp : KpSlot) (pk : PkSlot)
  | psk
deriving DecidableEq, Repr

/-- What an entry of an expansion does. -/
def runExpanded (P : Params) (x : Expanded) (s : State) : Res Unit :=
  match x with
  | .wE => tokenEWrite P s
  | .rE => tokenERead P s
  | .wS => tokenSWrite P s
  | .rS => tokenSRead P s
  | .mix kp pk => mixDh P kp pk s
  | .psk => tokenPsk P s

/-- A list of entries in order. -/
def runExpansion (P : Params) (xs : List Expanded) (s : State) : Res Unit :=
  match xs with
  | [] => .ok () s
  | x :: rest => (runExpanded P x s).bind fun _ s => runExpansion P rest s

/-- The expansions of R108 to R116, by pattern, message and role, transcribed from those rules. -/
def expansion (p : Pattern) (k : Nat) (r : Role) : List Expanded :=
  match p, k, r with
  | .N, 0, .initiator => [.wE, .mix .E .RS]
  | .N, 0, .responder => [.rE, .mix .S .RE]
  | .K, 0, .initiator => [.wE, .mix .E .RS, .mix .S .RS]
  | .K, 0, .responder => [.rE, .mix .S .RE, .mix .S .RS]
  | .X, 0, .initiator => [.wE, .mix .E .RS, .wS, .mix .S .RS]
  | .X, 0, .responder => [.rE, .mix .S .RE, .rS, .mix .S .RS]
  | .NNpsk2, 0, .initiator => [.wE]
  | .NNpsk2, 0, .responder => [.rE]
  | .NNpsk2, 1, .responder => [.wE, .mix .E .RE, .psk]
  | .NNpsk2, 1, .initiator => [.rE, .mix .E .RE, .psk]
  | .KK, 0, .initiator => [.wE, .mix .E .RS, .mix .S .RS]
  | .KK, 0, .responder => [.rE, .mix .S .RE, .mix .S .RS]
  | .KK, 1, .responder => [.wE, .mix .E .RE, .mix .E .RS]
  | .KK, 1, .initiator => [.rE, .mix .E .RE, .mix .S .RE]
  | .NK, 0, .initiator => [.wE, .mix .E .RS]
  | .NK, 0, .responder => [.rE, .mix .S .RE]
  | .NK, 1, .responder => [.wE, .mix .E .RE]
  | .NK, 1, .initiator => [.rE, .mix .E .RE]
  | .NX, 0, .initiator => [.wE]
  | .NX, 0, .responder => [.rE]
  | .NX, 1, .responder => [.wE, .mix .E .RE, .wS, .mix .S .RE]
  | .NX, 1, .initiator => [.rE, .mix .E .RE, .rS, .mix .E .RS]
  | .XX, 0, .initiator => [.wE]
  | .XX, 0, .responder => [.rE]
  | .XX, 1, .responder => [.wE, .mix .E .RE, .wS, .mix .S .RE]
  | .XX, 1, .initiator => [.rE, .mix .E .RE, .rS, .mix .E .RS]
  | .XX, 2, .initiator => [.wS, .mix .S .RE]
  | .XX, 2, .responder => [.rS, .mix .E .RS]
  | .IK, 0, .initiator => [.wE, .mix .E .RS, .wS, .mix .S .RS]
  | .IK, 0, .responder => [.rE, .mix .S .RE, .rS, .mix .S .RS]
  | .IK, 1, .responder => [.wE, .mix .E .RE, .mix .E .RS]
  | .IK, 1, .initiator => [.rE, .mix .E .RE, .mix .S .RE]
  | _, _, _ => []

/-- "Fixed" and "keyed after" of R108 to R116: the fixed-field length of message k and SS.KEYED after it. -/
def fixedAndKeyed (p : Pattern) (k : Nat) : Nat × Bool :=
  match p, k with
  | .N, 0 => (32, true)
  | .K, 0 => (32, true)
  | .X, 0 => (80, true)
  | .NNpsk2, 0 => (32, false)
  | .NNpsk2, 1 => (32, true)
  | .KK, 0 => (32, true)
  | .KK, 1 => (32, true)
  | .NK, 0 => (32, true)
  | .NK, 1 => (32, true)
  | .NX, 0 => (32, false)
  | .NX, 1 => (80, true)
  | .XX, 0 => (32, false)
  | .XX, 1 => (80, true)
  | .XX, 2 => (48, true)
  | .IK, 0 => (80, true)
  | .IK, 1 => (32, true)
  | _, _ => (0, false)

/-- R151 without its column ILLEGAL (a property of the word, R64) and without its entries `u`: with which STATUS.ERR and
cause a command that a well-formed word names can end; CV is 0 unless the command ends in a contract violation. -/
def mayEnd (i : Instr) (e : Err) (c : Cause) : Bool :=
  match i, e, c with
  | _, .ok, .none => true
  | .hsInit _ _, .contractViolation, c => c == .keySlot
  | .hsWrite, .dhFailure, .none => true
  | .hsWrite, .contractViolation, c => c == .seq || c == .terminal
  | .hsRead, .ciphertextTooShort, .none => true
  | .hsRead, .messageCorrupted, .none => true
  | .hsRead, .dhFailure, .none => true
  | .hsRead, .contractViolation, c => c == .seq || c == .terminal
  | .hsEncpay, .contractViolation, c => c == .seq || c == .terminal || c == .len || c == .notKeyed
  | .hsDecpay, .ciphertextTooShort, .none => true
  | .hsDecpay, .messageCorrupted, .none => true
  | .hsDecpay, .contractViolation, c => c == .seq || c == .terminal || c == .notKeyed
  | .hsFinal, .contractViolation, c => c == .seq || c == .terminal
  | .tcEnc _, .contractViolation, c => c == .terminal || c == .len || c == .nonce || c == .noCtx
  | .tcDec _, .ciphertextTooShort, .none => true
  | .tcDec _, .messageCorrupted, .none => true
  | .tcDec _, .contractViolation, c => c == .terminal || c == .nonce || c == .noCtx
  | .tcRekeyS, .contractViolation, c => c == .terminal || c == .noCtx
  | .tcRekeyR, .contractViolation, c => c == .terminal || c == .noCtx
  | .tcRekey, .contractViolation, c => c == .terminal || c == .noCtx
  | .phHash, .contractViolation, c => c == .param
  | _, _, _ => false

end Sys2Proof.Machine
end

