-- ==== Sys2Proof/Safety.lean ====
section
/-! DEFINITION. What counts as a good state, in the terms claims use: no contract violation is latched (60_exceptions.md
R146), nothing secret rests where the spec says it is wiped (10_state.md R29; R146, R168), the fields agree with one
another, and the handshake has exactly the keys its pattern gives it by now (41_handshake.md R94, R107). -/

namespace Sys2Proof.Machine

/-- No contract violation is latched: FATAL = 1 is "a state that is never an acceptable end state" (R146). -/
def State.good (s : State) : Prop := s.fatal = false

/-- An event the host can make: every one but the issue of an internal instruction (R83). -/
def Event.isHost : Event → Bool
  | .issue _ _ _ => false
  | _ => true

/-- Only host events stand in the inbox. -/
def State.hostOnly (s : State) : Prop := s.inbox.all Event.isHost = true

/-- The transient registers and CTX_X hold nothing, as between commands (R16, R28, R29), and neither do the model's own
operand lines and result (assumption 11). -/
def State.transientsClear (s : State) : Prop :=
  s.ctxX = none ∧ s.dho = Key.zero ∧ s.rk = Key.zero ∧ s.tagx = Tag.zero ∧ s.ptx = []
    ∧ s.phb = [] ∧ s.phCnt = 0 ∧ s.phT = 0 ∧ s.phM = 0 ∧ s.phL = 0 ∧ s.phJ = 0
    ∧ s.op = Operands.zero ∧ s.res = []

/-- No context is valid, the symmetric state is not keyed, there is no transport context. -/
def State.contextsWiped (s : State) : Prop :=
  s.ctxT = none ∧ s.ctxS = none ∧ s.ctxR = none ∧ s.ctxX = none ∧ s.keyed = false ∧ s.tcValid = false

/-- The own secrets are cleared (R121, R123, R146). -/
def State.ownKeysWiped (s : State) : Prop := s.kS = none ∧ s.kE = none ∧ s.kPSK = none

/-- Two states agree on the handshake control (R21 to R25). -/
def sameHandshakeControl (s t : State) : Prop :=
  t.phase = s.phase ∧ t.role = s.role ∧ t.pattern = s.pattern ∧ t.seq = s.seq ∧ t.off = s.off
    ∧ t.msgcur = s.msgcur ∧ t.lastw = s.lastw ∧ t.paydone = s.paydone

/-- Two states agree on the transport context (R124). -/
def sameTransport (s t : State) : Prop :=
  t.ctxS = s.ctxS ∧ t.ctxR = s.ctxR ∧ t.tcValid = s.tcValid ∧ t.tcAborted = s.tcAborted
    ∧ t.snonce = s.snonce ∧ t.rnonce = s.rnonce

/-- Two states agree on the symmetric state (R83). -/
def sameSymmetric (s t : State) : Prop := t.ctxT = s.ctxT ∧ t.keyed = s.keyed

/-- Two states agree on every key slot (R26). -/
def sameSlots (s t : State) : Prop :=
  t.kS = s.kS ∧ t.kE = s.kE ∧ t.kRS = s.kRS ∧ t.kRE = s.kRE ∧ t.kPSK = s.kPSK

/-- Two states agree on the operand registers P0 and P1 and on AD, which no command but RESET writes (R34). -/
def sameHostOperands (s t : State) : Prop := t.p0 = s.p0 ∧ t.p1 = s.p1 ∧ t.ad = s.ad

/-- Every byte of a buffer reads as before. -/
def sameBytes (b : Buf) (s t : State) : Prop := ∀ a, t.readByte b a = s.readByte b a

/-- The fields agree with one another (R16 to R33): buffers within capacity; FATAL, CV and ERR together; while
FATAL = 1 no context is valid and SS.KEYED and TC.VALID are 0 (R146; the host may load key slots then, R148); a keyed symmetric state, an active handshake and a transport context have their contexts; HS.SEQ and
HS.OFF hold legal values. -/
structure State.Consistent (s : State) : Prop where
  memWf : s.memWf = true
  fatal_cv : s.fatal = true ↔ s.cv ≠ .none
  fatal_err : s.fatal = true ↔ s.err = .contractViolation
  fatal_wiped : s.fatal = true →
    s.ctxT = none ∧ s.ctxS = none ∧ s.ctxR = none ∧ s.ctxX = none ∧ s.keyed = false ∧ s.tcValid = false
  keyed_ctxT : s.keyed = true → s.ctxT.isSome = true
  active_ctxT : s.phase = .active → s.fatal = false → s.ctxT.isSome = true
  valid_lanes : s.tcValid = true → s.ctxS.isSome = true ∧ s.ctxR.isSome = true
  seq_le : s.seq.toNat ≤ s.pattern.nmsgs
  off_legal : s.off = 0 ∨ s.off = 32 ∨ s.off = 48 ∨ s.off = 80

/-- A token that mixes a key (R101 to R105). -/
def Token.mixes : Token → Bool
  | .ee | .es | .se | .ss | .psk => true
  | _ => false

/-- SS.KEYED once messages 0 to k - 1 were processed. -/
def keyedBefore (p : Pattern) (k : Nat) : Bool :=
  (List.range k).any fun j => (rom p j).any Token.mixes

/-- The side `r` has received a token `t` in messages 0 to k - 1. -/
def receivedBefore (p : Pattern) (r : Role) (k : Nat) (t : Token) : Bool :=
  (List.range k).any fun j => decide (writerOf j ≠ r) && (rom p j).contains t

/-- What an active handshake holds at HS.SEQ = k: exactly the own key slots that R94 names (R95 clears the others, R26 keeps
the host out of them), exactly the remote keys that R94 names or that were received by now, SS.KEYED as the processed
messages left it, and the current message's data (R24, R25). -/
structure State.Holds (s : State) : Prop where
  slots : slotsValid (need s.pattern s.role) s = true
  unneeded : ∀ k ∈ [Slot.S, .E, .PSK], k ∉ need s.pattern s.role → s.slotVal k = none
  remoteE : s.kRE.isSome = receivedBefore s.pattern s.role s.seq.toNat .e
  remoteS : s.kRS.isSome
    = ((need s.pattern s.role).contains .RS || receivedBefore s.pattern s.role s.seq.toNat .s)
  keyed : s.keyed = keyedBefore s.pattern s.seq.toNat
  msgcur : s.msgcur = decide (0 < s.seq.toNat)
  lastw : 0 < s.seq.toNat → s.lastw = decide (writerOf (s.seq.toNat - 1) = s.role)
  off : 0 < s.seq.toNat → s.off.toNat = fixedLen (rom s.pattern (s.seq.toNat - 1))

/-- The invariant of a machine that only a host drives. -/
structure State.Inv (s : State) : Prop where
  consistent : s.Consistent
  hostOnly : s.hostOnly
  transients : s.transientsClear
  handshake : s.phase = .active → s.fatal = false → s.Holds

/-- Own and remote keys fit: whatever public key `b` holds of `a` is the public key of `a`'s key pair. -/
def holdsPublicOf (remote own : Option Key) : Prop :=
  ∀ v, remote = some v → ∃ k, own = some k ∧ v = Config.params.dhPub k

/-- Two XCBs in the same handshake at the same point (R90): `i` is the initiator, `r` the responder; the transcripts are
equal, and each holds only the other's public keys. -/
structure Peers (i r : State) : Prop where
  inv_i : i.Inv
  inv_r : r.Inv
  good_i : i.fatal = false
  good_r : r.fatal = false
  active_i : i.phase = .active
  active_r : r.phase = .active
  role_i : i.role = .initiator
  role_r : r.role = .responder
  pattern : i.pattern = r.pattern
  seq : i.seq = r.seq
  ctxT : i.ctxT = r.ctxT
  keyed : i.keyed = r.keyed
  psk : i.kPSK = r.kPSK
  ephemeral_i : holdsPublicOf r.kRE i.kE
  static_i : holdsPublicOf r.kRS i.kS
  ephemeral_r : holdsPublicOf i.kRE r.kE
  static_r : holdsPublicOf i.kRS r.kS

end Sys2Proof.Machine
end

