-- ==== Sys2Proof/Certificates/Slice0/Obligations.lean ====
section
/-! DEFINITION. The statements about this machine for the provers; OBLIGATIONS.json lists them. -/

open Sys2Proof Sys2Proof.Machine

/-! ### Encoding -/

/-- A command word stands for an instruction exactly when the encoder gives that word for the well-formed format H
instruction: no word has two meanings, no bit is dropped (30_encoding.md R50, R54, R64, R65). -/
def Obligations.CommandWordMeansExactlyItsInstruction : Prop :=
  ∀ (w : Word32) (i : Instr),
    decode .H (bytesOfWord w) = .ok i ↔ (i.format = .H ∧ i.wf = true ∧ encodeCommand i = some w)

/-- Decoding the encoding of any well-formed instruction of any format gives it back, and a byte string decodes to an
instruction in a format only if it is its encoding there (R50 to R58): token codes 8 to 15 (R56), micro-operation codes 5
to 7 (R57) and bytes with bits above a format's width decode to nothing. The issue of such a byte is refused by name (log
entry 20); that it can be issued at all is the model's choice (log entry 5). -/
def Obligations.DecodingAnEncodingGivesItBack : Prop :=
  (∀ i : Instr, i.wf = true → decode i.format (encode i) = .ok i)
  ∧ (∀ (f : Format) (bs : Bytes) (i : Instr),
      decode f bs = .ok i → i.format = f ∧ i.wf = true ∧ encode i = bs ∧ (f ≠ .H → (encodeInternal i).toList = bs))
  ∧ (∀ b : Byte, ((∃ i, decode .T [b] = .ok i) ↔ b.toNat < 8) ∧ ((∃ i, decode .U [b] = .ok i) ↔ b.toNat < 5)
      ∧ ((∃ i, decode .P [b] = .ok i) ↔ b.toNat < 32) ∧ ((∃ i, decode .D [b] = .ok i) ↔ b.toNat < 2))
  ∧ (∀ (s : State) (f : Format) (w : Byte) (o : Operands) (rest : List Event), s.inbox = .issue f w o :: rest →
      (∀ i, decode f [w] ≠ .ok i) → step s = .refused .reservedCode)

/-- The illegal command words are those R64 lists, no others, and executing one, however the host writes it to CMD, is
CV_ILLEGAL, or is refused while FATAL = 1 (R64). -/
def Obligations.IllegalWordsAreThoseListed : Prop :=
  ∀ (s : State) (e : Event) (w : Word32) (rest : List Event), s.inbox = e :: rest →
    e.word = some (.H, bytesOfWord w) →
    let op := (w.extractLsb' 0 8).toNat
    let pat := (w.extractLsb' 8 4).toNat
    let illegal : Prop :=
      op ∉ [0x01, 0x02, 0x03, 0x04, 0x05, 0x06, 0x10, 0x11, 0x12, 0x13, 0x14, 0x20, 0x3F]
      ∨ w.extractLsb' 14 18 ≠ 0
      ∨ (pat ≠ 0 ∧ op ≠ 0x01)
      ∨ (w.getLsbD 12 = true ∧ op ≠ 0x01)
      ∨ (w.getLsbD 13 = true ∧ op ≠ 0x10 ∧ op ≠ 0x11)
      ∨ (op = 0x01 ∧ 9 ≤ pat)
    ((∃ i, decode .H (bytesOfWord w) = .ok i) ↔ ¬ illegal)
      ∧ (illegal → s.fatal = false → step s = .next (enterViolation .illegal { s with inbox := rest }))
      ∧ (illegal → s.fatal = true → step s = .next { s with inbox := rest, err := .contractViolation })

/-- Words of every format, written out from the spec's encodings, decode to what they stand for (R50 to R58, 95 V-ENC). -/
def Obligations.WordsOfTheSpecDecode : Prop :=
  decodeCommand 0x00001701 = .ok (.hsInit 7 .responder)
    ∧ decodeCommand 0x00000801 = .ok (.hsInit 8 .initiator)
    ∧ decodeCommand 0x00000006 = .ok .hsFinal
    ∧ decodeCommand 0x00002010 = .ok (.tcEnc true)
    ∧ decodeCommand 0x00000011 = .ok (.tcDec false)
    ∧ decodeCommand 0x00000020 = .ok .phHash
    ∧ decodeCommand 0x0000003F = .ok .reset
    ∧ decode .T [0x04] = .ok .tokEs
    ∧ decode .U [0x04] = .ok .ssDecrypt
    ∧ decode .P [0x0D] = .ok (.spRatchet .S)
    ∧ decode .D [0x01] = .ok .dhPub

/-! ### The step and the host's accesses -/

/-- When the next event carries bytes that decode to an instruction, the step is that instruction's meaning on the state
without the event; an internal instruction finds its operands on the operand lines, a command changes nothing before it
executes (R40, R45, R48). That events stand in a list and that internal instructions can be issued as steps of their own
is the model's choice (log entries 2 and 5). -/
def Obligations.StepRunsTheDecodedInstruction : Prop :=
  ∀ (s : State) (e : Event) (rest : List Event) (f : Format) (bs : Bytes) (i : Instr),
    s.inbox = e :: rest → e.word = some (f, bs) → decode f bs = .ok i →
    step s = exec i (e.prepare { s with inbox := rest })
      ∧ (∀ u, (∀ g w o, e ≠ .issue g w o) → e.prepare u = u)
      ∧ (∀ u g w o, e = .issue g w o → e.prepare u = { u with op := o })

/-- With no event left the XCB is idle and holds all its state (R157: "between commands it is idle and holds all its
state"). That the events stand in a list of the state is the model's choice (log entry 2). -/
def Obligations.IdleHoldsAllState : Prop :=
  ∀ s : State, s.inbox = [] → step s = .next s

/-- A host write of a key slot loads K.S, K.E, K.RS or K.PSK while HS.PHASE is not ACTIVE, whatever FATAL is; while
ACTIVE, and for K.RE always, it changes nothing (R26, R148, 93 U12). -/
def Obligations.HostLoadsKeySlotsOutsideAHandshake : Prop :=
  ∀ (s : State) (k : Slot) (v : Key) (rest : List Event), s.inbox = .slot k v :: rest →
    let u := { s with inbox := rest }
    (s.phase ≠ .active → k ≠ .RE → step s = .next (u.setSlot k (some v)))
      ∧ (s.phase = .active ∨ k = .RE → step s = .next u)

/-- The host's writes of registers and buffers (R30, R32, 93 U12): P0 and P1 take the word; a length register keeps the
bytes below the new length, the bytes it newly covers being free values (93 U6, log entry 4); a read-only register ignores
the write; a buffer takes a loaded byte string, or bytes at an offset inside its length. Nothing else changes. That a load
sets the length register, that a write at an offset does not, that a 16-bit register takes the low 16 bits, and the two
faults where there is no such access are the model's choice (log entry 10). -/
def Obligations.HostWritesRegistersAndBuffers : Prop :=
  ∀ (s : State) (e : Event) (rest : List Event), s.inbox = e :: rest →
    let u := { s with inbox := rest }
    (∀ v, e = .reg 2 v → step s = .next { u with p0 := v })
      ∧ (∀ v, e = .reg 3 v → step s = .next { u with p1 := v })
      ∧ (∀ v b, (e = .reg 4 v ∧ b = .MSG) ∨ (e = .reg 5 v ∧ b = .DAT) ∨ (e = .reg 6 v ∧ b = .AD) →
          let n := (v.extractLsb' 0 16).toNat
          let len := (s.buf b).length
          (n ≤ len → step s = .next (u.setBuf b ((s.buf b).take n)))
          ∧ (len < n → step s = .next { u.setBuf b (s.buf b ++ freeBytes s.freeCtr (n - len)) with
              freeCtr := s.freeCtr + (n - len) }))
      ∧ (∀ n v, e = .reg n v → n ∈ [1, 7, 8, 9] → step s = .next u)
      ∧ (∀ n v, e = .reg n v → 9 < n → step s = .fault .noSuchRegister)
      ∧ (∀ b data, e = .load b data →
          (data.length ≤ 65535 → step s = .next (u.setBuf b data))
          ∧ (65535 < data.length → step s = .fault .beyondCapacity))
      ∧ (∀ b a data, e = .poke b a data →
          ∃ bs, step s = .next (u.setBuf b bs) ∧ bs.length = (s.buf b).length
            ∧ ∀ i, i < bs.length →
              bs[i]? = if a ≤ i ∧ i < a + data.length then data[i - a]? else (s.buf b)[i]?)

/-- What every host read gives (R26, R28, R30, R31, R35). STATUS: its fields stand where R31 puts them, with the numeric
codes of R21, R22, R31, R55 and R145, and bits 31:24 read as 0. KV: bits 4:0 are the valid bits of PSK, RE, RS, E, S. The
other registers by number; CMD (0) and a number above 9 give no value (R30, 93 U12). K.RS and K.RE are readable, K.S, K.E
and K.PSK not; that K.RS and K.RE read as no value while their valid bit is 0 is the model's choice (log entry 22).
DIGEST, and the bytes of the three buffers inside their lengths. -/
def Obligations.StatusFieldsStandWhereTabled : Prop :=
  ∀ s : State,
    (s.err, s.status.extractLsb' 0 4) ∈ [(Err.ok, 0), (.ciphertextTooShort, 1), (.messageCorrupted, 2),
        (.dhFailure, 3), (.contractViolation, 15)]
      ∧ (s.cv, s.status.extractLsb' 4 4) ∈ [(Cause.none, 0), (.illegal, 1), (.seq, 2), (.terminal, 3), (.len, 4),
        (.nonce, 5), (.notKeyed, 6), (.keySlot, 7), (.param, 8), (.noCtx, 9)]
      ∧ s.status.getLsbD 8 = s.fatal
      ∧ (s.phase, s.status.extractLsb' 9 2) ∈ [(Phase.idle, 0), (.active, 1), (.done, 2), (.failed, 3)]
      ∧ s.status.extractLsb' 11 2 = s.seq
      ∧ s.status.getLsbD 13 = s.keyed
      ∧ s.status.getLsbD 14 = s.paydone
      ∧ s.status.getLsbD 15 = s.lastw
      ∧ s.status.getLsbD 16 = s.msgcur
      ∧ s.status.getLsbD 17 = s.tcValid
      ∧ s.status.getLsbD 18 = s.tcAborted
      ∧ (s.role, s.status.getLsbD 19) ∈ [(Role.initiator, false), (.responder, true)]
      ∧ (s.pattern, s.status.extractLsb' 20 4) ∈ [(Pattern.K, 0), (.N, 1), (.X, 2), (.NNpsk2, 3), (.KK, 4),
        (.NK, 5), (.NX, 6), (.XX, 7), (.IK, 8)]
      ∧ s.status.extractLsb' 24 8 = 0
      ∧ s.kv.getLsbD 0 = s.kS.isSome ∧ s.kv.getLsbD 1 = s.kE.isSome ∧ s.kv.getLsbD 2 = s.kRS.isSome
      ∧ s.kv.getLsbD 3 = s.kRE.isSome ∧ s.kv.getLsbD 4 = s.kPSK.isSome
      ∧ s.readReg 1 = some (s.status.setWidth 64)
      ∧ s.readReg 2 = some (s.p0.setWidth 64) ∧ s.readReg 3 = some (s.p1.setWidth 64)
      ∧ s.readReg 4 = some (BitVec.ofNat 64 s.msg.length) ∧ s.readReg 5 = some (BitVec.ofNat 64 s.dat.length)
      ∧ s.readReg 6 = some (BitVec.ofNat 64 s.ad.length) ∧ s.readReg 7 = some (s.kv.setWidth 64)
      ∧ s.readReg 8 = some s.snonce ∧ s.readReg 9 = some s.rnonce
      ∧ (∀ n, n = 0 ∨ 9 < n → s.readReg n = none)
      ∧ s.readSlot .RS = s.kRS ∧ s.readSlot .RE = s.kRE
      ∧ s.readSlot .S = none ∧ s.readSlot .E = none ∧ s.readSlot .PSK = none
      ∧ s.readDigest = s.digest
      ∧ (∀ a, s.readByte .MSG a = s.msg[a]? ∧ s.readByte .DAT a = s.dat[a]? ∧ s.readByte .AD a = s.ad[a]?)

/-- What the host can read does not depend on a context, an own key's value, the pre-shared secret or a transient
register (R16, R26, R29, R44, R153, R157). -/
def Obligations.HostViewHidesSecrets : Prop :=
  ∀ (s : State) (a b c d : Option Sponge) (x y z dho rk : Key) (tag : Tag) (ptx : Bytes),
    let t := { s with
      ctxT := a, ctxS := b, ctxR := c, ctxX := d
      kS := s.kS.map fun _ => x, kE := s.kE.map fun _ => y, kPSK := s.kPSK.map fun _ => z
      dho := dho, rk := rk, tagx := tag, ptx := ptx }
    (∀ n, t.readReg n = s.readReg n) ∧ (∀ k, t.readSlot k = s.readSlot k)
      ∧ t.readDigest = s.readDigest ∧ (∀ m, sameBytes m s t)

/-! ### Contract violations, runtime errors, RESET -/

/-- What a host command that ends in a contract violation leaves: FATAL, ERR and a cause; contexts, own secrets,
transient registers and DAT wiped; every field R146 lists as not changed as it was (K.RS, K.RE and MSG may have been
written by tokens only when HS.SEQ has advanced, which only HS_WRITE and HS_READ do). The transient registers include
the model's own operand lines (log entry 11). -/
def Obligations.ContractViolationWipesAndLatches : Prop :=
  ∀ (i : Instr) (s t : State), i.format = .H → i ≠ .reset → s.fatal = false →
    exec i s = .next t → t.fatal = true →
    t.cv ≠ .none ∧ t.err = .contractViolation ∧ t.contextsWiped ∧ t.ownKeysWiped ∧ t.transientsClear
      ∧ t.dat = []
      ∧ t.phase = s.phase ∧ t.role = s.role ∧ t.pattern = s.pattern ∧ t.off = s.off
      ∧ t.msgcur = s.msgcur ∧ t.lastw = s.lastw ∧ t.paydone = s.paydone
      ∧ t.tcAborted = s.tcAborted ∧ t.snonce = s.snonce ∧ t.rnonce = s.rnonce
      ∧ t.ad = s.ad ∧ t.p0 = s.p0 ∧ t.p1 = s.p1 ∧ t.digest = s.digest
      ∧ (t.seq = s.seq → t.kRS = s.kRS ∧ t.kRE = s.kRE ∧ t.msg = s.msg)
      ∧ (i ≠ .hsWrite → i ≠ .hsRead → t.seq = s.seq)

/-- While FATAL = 1 a write of any value but 0x0000003F to CMD changes nothing but STATUS.ERR, which is written 15, and
0x0000003F executes RESET; a RESET word with a reserved bit set is CV_ILLEGAL while FATAL = 0; the host's other writes
and its reads, that of STATUS apart, do not depend on FATAL (R148). -/
def Obligations.FatalRefusesEveryWordButReset : Prop :=
  (∀ (s : State) (e : Event) (w : Word32) (rest : List Event), s.inbox = e :: rest →
    e.word = some (.H, bytesOfWord w) → s.fatal = true →
    (w ≠ 0x0000003F → step s = .next { s with inbox := rest, err := .contractViolation })
      ∧ (w = 0x0000003F → step s = exec .reset { s with inbox := rest }))
  ∧ (∀ (s : State) (e : Event) (w : Word32) (rest : List Event), s.inbox = e :: rest →
    e.word = some (.H, bytesOfWord w) → s.fatal = false → w.extractLsb' 0 8 = 0x3F → w ≠ 0x0000003F →
    step s = .next (enterViolation .illegal { s with inbox := rest }))
  ∧ (∀ (s : State) (e : Event) (b : Bool), e.isHost = true → e.word = none →
    ∀ t, perform e s = .next t → perform e { s with fatal := b } = .next { t with fatal := b })
  ∧ (∀ (s : State) (b : Bool), let t := { s with fatal := b }
    (∀ n, n ≠ 1 → t.readReg n = s.readReg n) ∧ (∀ k, t.readSlot k = s.readSlot k)
      ∧ t.readDigest = s.readDigest ∧ (∀ m, sameBytes m s t))

/-- Every handshake command except HS_INIT begins with `hs_phasecheck` (R92). -/
def Obligations.HandshakeCommandsCheckThePhaseFirst : Prop :=
  ∀ (i : Instr) (s : State), i ∈ [Instr.hsWrite, .hsRead, .hsEncpay, .hsDecpay, .hsFinal] → s.fatal = false →
    (s.phase = .done ∨ s.phase = .failed → exec i s = .next (enterViolation .terminal s))
      ∧ (s.phase = .idle → exec i s = .next (enterViolation .seq s))

/-- Every TC command begins with `tc_precheck` (R125): first TC.VALID, then TC.ABORTED, whatever else holds. -/
def Obligations.TransportCommandsCheckTheContextFirst : Prop :=
  ∀ (i : Instr) (s : State),
    i ∈ [Instr.tcEnc false, .tcEnc true, .tcDec false, .tcDec true, .tcRekeyS, .tcRekeyR, .tcRekey] →
    s.fatal = false →
    (s.tcValid = false → exec i s = .next (enterViolation .noCtx s))
      ∧ (s.tcValid = true → s.tcAborted = true → exec i s = .next (enterViolation .terminal s))

/-- A runtime error never sets FATAL by itself. In a handshake command it fails the handshake: DHFailure in HS_WRITE, any
of the three in HS_READ, CiphertextTooShort or MessageCorrupted in HS_DECPAY; the transport context stays. The only other
commands that end in one are TC_DEC: MessageCorrupted aborts the transport context, CiphertextTooShort changes no state
but STATUS.ERR (the transient registers are zeroized) (R147). That DAT too stays on a short frame is read from R127 and
R147 against R166 (log entry 8). -/
def Obligations.RuntimeErrorsEndAStateMachine : Prop :=
  ∀ (i : Instr) (s t : State), i.format = .H → s.fatal = false → exec i s = .next t →
    t.err = .ciphertextTooShort ∨ t.err = .messageCorrupted ∨ t.err = .dhFailure →
    t.fatal = false ∧ t.cv = s.cv ∧ t.transientsClear
      ∧ (((i = .hsRead ∨ (i = .hsWrite ∧ t.err = .dhFailure) ∨ (i = .hsDecpay ∧ t.err ≠ .dhFailure))
            ∧ t.phase = .failed ∧ t.ctxT = none ∧ t.dat = [] ∧ t.ownKeysWiped ∧ sameTransport s t)
        ∨ ((i = .tcDec false ∨ i = .tcDec true)
            ∧ ((t.err = .messageCorrupted ∧ t.tcAborted = true ∧ t.dat = [] ∧ t.phase = s.phase)
              ∨ t = { s.wipe with err := .ciphertextTooShort })))

/-- From a state of the invariant, a host command of a well-formed word ends only with the results R151 gives it, and
not with one it calls unreachable. -/
def Obligations.CommandsEndOnlyAsTabled : Prop :=
  ∀ (i : Instr) (s t : State), s.Inv → s.fatal = false → i.format = .H → i.wf = true →
    exec i s = .next t → mayEnd i t.err t.cv = true

/-- What each command leaves untouched when it does not end in a contract violation (R34). -/
def Obligations.CommandsWriteOnlyTheirWriteSet : Prop :=
  ∀ (i : Instr) (s t : State), i.format = .H → i ≠ .reset → s.fatal = false → exec i s = .next t →
    t.fatal = false →
    sameHostOperands s t ∧ t.cv = s.cv ∧ t.inbox = s.inbox
      ∧ (i ≠ .phHash → t.digest = s.digest)
      ∧ (i ∈ [Instr.hsWrite, .hsRead, .hsEncpay, .hsDecpay] ∨ (∃ p r, i = .hsInit p r) →
          sameTransport s t)
      ∧ (i ∈ [Instr.tcEnc false, .tcEnc true, .tcDec false, .tcDec true, .tcRekeyS, .tcRekeyR, .tcRekey,
            .phHash] →
          sameHandshakeControl s t ∧ sameSymmetric s t ∧ sameSlots s t)
      ∧ (i = .phHash → sameTransport s t ∧ sameBytes .MSG s t ∧ sameBytes .DAT s t)
      ∧ (i = .tcEnc false ∨ i = .tcEnc true → sameBytes .DAT s t ∧ t.ctxS = s.ctxS ∧ t.ctxR = s.ctxR
          ∧ t.rnonce = s.rnonce ∧ t.tcAborted = s.tcAborted ∧ t.tcValid = s.tcValid)
      ∧ (i = .tcDec false ∨ i = .tcDec true → sameBytes .MSG s t ∧ t.ctxS = s.ctxS ∧ t.ctxR = s.ctxR
          ∧ t.snonce = s.snonce ∧ t.tcValid = s.tcValid)
      ∧ (i ∈ [Instr.tcRekeyS, .tcRekeyR, .tcRekey] → sameBytes .MSG s t ∧ sameBytes .DAT s t
          ∧ t.snonce = s.snonce ∧ t.rnonce = s.rnonce ∧ t.tcAborted = s.tcAborted ∧ t.tcValid = s.tcValid)
      ∧ ((∃ p r, i = .hsInit p r) ∨ i = .hsFinal → sameBytes .MSG s t ∧ sameBytes .DAT s t)
      ∧ (i = .hsRead ∨ i = .hsDecpay → sameBytes .MSG s t)
      ∧ (t.err = .ok → i = .hsWrite ∨ i = .hsEncpay ∨ i = .hsRead → sameBytes .DAT s t)
      ∧ (i = .hsWrite ∨ i = .hsEncpay ∨ i = .hsDecpay ∨ i = .hsFinal → t.kRS = s.kRS ∧ t.kRE = s.kRE)

/-- TC.ABORTED is set by TC_DEC on a tag mismatch and by nothing else; no instruction but HS_FINAL and RESET clears it;
it is STATUS[18], and 0 at reset (R18). Instructions of the internal formats are steps of their own by the model's
choice (log entry 5). -/
def Obligations.AbortedIsOneWay : Prop :=
  (∀ (i : Instr) (s t : State), exec i s = .next t →
    (s.tcAborted = true → t.tcAborted = true ∨ i = .hsFinal ∨ i = .reset)
      ∧ (s.tcAborted = false → t.tcAborted = true →
          (i = .tcDec false ∨ i = .tcDec true) ∧ t.err = .messageCorrupted))
  ∧ (∀ s : State, s.status.getLsbD 18 = s.tcAborted) ∧ State.reset.tcAborted = false

/-- SS.KEYED goes from 0 to 1 only where a key is mixed: in SS_MIXKEY and in the tokens and message commands that run it
(R17). Micro-operations and tokens are steps of their own by the model's choice (log entry 5). -/
def Obligations.KeyedIsSetOnlyByMixingAKey : Prop :=
  ∀ (i : Instr) (s t : State), exec i s = .next t → s.keyed = false → t.keyed = true →
    i ∈ [Instr.ssMixkey, .tokEe, .tokEs, .tokSe, .tokSs, .tokPsk, .hsWrite, .hsRead]

/-- FATAL is sticky: while it is 1 every instruction except RESET is refused and changes nothing but STATUS.ERR, and
RESET clears it (R20, R149). That this also holds of the internal formats is the model's choice (log entry 5), and so is
what RESET leaves of the fields that are the model's own (log entry 14). -/
def Obligations.FatalIsSticky : Prop :=
  ∀ (i : Instr) (s : State), s.fatal = true →
    (i ≠ .reset → exec i s = .next { s with err := .contractViolation })
      ∧ exec .reset s = .next (resetState s) ∧ (resetState s).fatal = false ∧ (resetState s).cv = .none

/-- The nonce counters count successful TC_ENC and TC_DEC since HS_FINAL: one that ends OK makes its counter one more;
HS_FINAL that ends OK and RESET make both 0; nothing else moves either; neither ever wraps (R27, R154). Instructions of
the internal formats, which leave both, are steps of their own by the model's choice (log entry 5). -/
def Obligations.NoncesCountSuccessesAndNeverWrap : Prop :=
  ∀ (i : Instr) (s t : State), exec i s = .next t →
    (t.snonce = s.snonce
      ∨ ((i = .tcEnc false ∨ i = .tcEnc true) ∧ t.err = .ok ∧ t.snonce.toNat = s.snonce.toNat + 1)
      ∨ ((i = .hsFinal ∨ i = .reset) ∧ t.snonce = 0))
    ∧ (t.rnonce = s.rnonce
      ∨ ((i = .tcDec false ∨ i = .tcDec true) ∧ t.err = .ok ∧ t.rnonce.toNat = s.rnonce.toNat + 1)
      ∨ ((i = .hsFinal ∨ i = .reset) ∧ t.rnonce = 0))
    ∧ (i = .tcEnc false ∨ i = .tcEnc true → t.err = .ok → t.snonce.toNat = s.snonce.toNat + 1)
    ∧ (i = .tcDec false ∨ i = .tcDec true → t.err = .ok → t.rnonce.toNat = s.rnonce.toNat + 1)
    ∧ (i = .hsFinal → t.err = .ok → t.snonce = 0 ∧ t.rnonce = 0)
    ∧ (i = .reset → t.snonce = 0 ∧ t.rnonce = 0)

/-- Every element of R33 has its value after hardware reset. The transient registers include the model's own operand lines
(log entry 11). -/
def Obligations.ResetValuesAsTabled : Prop :=
  let s := State.reset
  s.contextsWiped ∧ s.ownKeysWiped ∧ s.kRS = none ∧ s.kRE = none ∧ s.transientsClear
    ∧ s.phase = .idle ∧ s.role = .initiator ∧ s.pattern.code = 0 ∧ s.seq = 0 ∧ s.off = 0
    ∧ s.msgcur = false ∧ s.lastw = false ∧ s.paydone = false
    ∧ s.tcAborted = false ∧ s.snonce = 0 ∧ s.rnonce = 0 ∧ s.digest = Vector.replicate 32 0
    ∧ s.fatal = false ∧ s.cv = .none ∧ s.err = .ok ∧ s.status = 0x00000000 ∧ s.kv = 0
    ∧ s.p0 = 0 ∧ s.p1 = 0 ∧ s.msg = [] ∧ s.dat = [] ∧ s.ad = []

/-- RESET, in every state, has exactly the effect of hardware reset (R159) on every element of the XCB; that the events not
yet performed and the numbering of free bytes, which are the model's own, stay is the model's choice (log entry 14). A
write of its opcode with any other bit set to CMD does not execute it: it is CV_ILLEGAL, or refused while FATAL = 1. -/
def Obligations.ResetHasTheEffectOfHardwareReset : Prop :=
  decodeCommand 0x0000003F = .ok .reset
    ∧ (∀ s : State, exec .reset s = .next { State.reset with inbox := s.inbox, freeCtr := s.freeCtr })
    ∧ ∀ (s : State) (e : Event) (w : Word32) (rest : List Event), s.inbox = e :: rest →
        e.word = some (.H, bytesOfWord w) → w.extractLsb' 0 8 = 0x3F → w ≠ 0x0000003F →
        step s = .next (if s.fatal = true then { s with inbox := rest, err := .contractViolation }
          else enterViolation .illegal { s with inbox := rest })

/-! ### Invariants -/

/-- Every step, whatever event it performs, keeps the fields in agreement: buffers within capacity, FATAL with CV and ERR
and with no context valid, contexts where they must be, HS.SEQ and HS.OFF legal (R19, R20, R23, R24, R32, R146). The events
include the issue of an internal instruction, the model's choice (log entry 5). -/
def Obligations.EveryStepKeepsTheFieldsInAgreement : Prop :=
  ∀ s t : State, s.Consistent → step s = .next t → t.Consistent

/-- The invariant of a machine that only a host drives holds after reset. -/
def Obligations.HostDrivenMachineStartsTracked : Prop := State.reset.Inv

/-- Every step of a machine that only a host drives keeps the invariant: the transient registers hold nothing between
commands, and an active handshake holds exactly the key slots, own and remote, SS.KEYED and the message data its pattern,
role and HS.SEQ give it (R23 to R26, R28, R29, R94, R95, R107). -/
def Obligations.HostDrivenMachineStaysTracked : Prop :=
  ∀ s t : State, s.Inv → step s = .next t → t.Inv

/-! ### Handshake commands -/

/-- HS_INIT (R95): the pattern code checked, then the slots of R94, then a new handshake, with every slot not needed
cleared and the transcript a sponge initialised with the protocol identifier alone. -/
def Obligations.HsInitCreatesAHandshake : Prop :=
  ∀ (pat : BitVec 4) (role : Role) (s : State), s.fatal = false →
    (8 < pat.toNat → exec (.hsInit pat role) s = .next (enterViolation .illegal s))
    ∧ ∀ p : Pattern, p.code = pat →
      (slotsValid (need p role) s = false → exec (.hsInit pat role) s = .next (enterViolation .keySlot s))
      ∧ (slotsValid (need p role) s = true → exec (.hsInit pat role) s = .next { s.wipe with
          err := .ok
          kS := if .S ∈ need p role then s.kS else none
          kE := if .E ∈ need p role then s.kE else none
          kRS := if .RS ∈ need p role then s.kRS else none
          kRE := none
          kPSK := if .PSK ∈ need p role then s.kPSK else none
          role := role, pattern := p, seq := 0, off := 0
          msgcur := false, lastw := false, paydone := false
          ctxT := some (Config.params.spInit (protocolId p)), keyed := false
          phase := .active })

/-- The protocol identifiers, as ASCII bytes (R59; 95 V-ENC-PID). -/
def Obligations.ProtocolIdentifiersAsAscii : Prop :=
  protocolId .K = [0x58, 0x69, 0x73, 0x63, 0x6f, 0x2d, 0x76, 0x30, 0x5f, 0x4b]
    ∧ protocolId .N = [0x58, 0x69, 0x73, 0x63, 0x6f, 0x2d, 0x76, 0x30, 0x5f, 0x4e]
    ∧ protocolId .X = [0x58, 0x69, 0x73, 0x63, 0x6f, 0x2d, 0x76, 0x30, 0x5f, 0x58]
    ∧ protocolId .NNpsk2
      = [0x58, 0x69, 0x73, 0x63, 0x6f, 0x2d, 0x76, 0x30, 0x5f, 0x4e, 0x4e, 0x70, 0x73, 0x6b, 0x32]
    ∧ protocolId .KK = [0x58, 0x69, 0x73, 0x63, 0x6f, 0x2d, 0x76, 0x30, 0x5f, 0x4b, 0x4b]
    ∧ protocolId .NK = [0x58, 0x69, 0x73, 0x63, 0x6f, 0x2d, 0x76, 0x30, 0x5f, 0x4e, 0x4b]
    ∧ protocolId .NX = [0x58, 0x69, 0x73, 0x63, 0x6f, 0x2d, 0x76, 0x30, 0x5f, 0x4e, 0x58]
    ∧ protocolId .XX = [0x58, 0x69, 0x73, 0x63, 0x6f, 0x2d, 0x76, 0x30, 0x5f, 0x58, 0x58]
    ∧ protocolId .IK = [0x58, 0x69, 0x73, 0x63, 0x6f, 0x2d, 0x76, 0x30, 0x5f, 0x49, 0x4b]

/-- The token lists run as R108 to R116 expand them for each pattern, message and role: the same port calls on the same
slots in the same order, the same fixed length, SS.KEYED after the message, and HS_FINAL at the message count. -/
def Obligations.TokenListsRunAsExpanded : Prop :=
  (∀ (p : Pattern) (k : Nat) (r : Role) (s : State), k < p.nmsgs → s.role = r →
    s.op.form = (if writerOf k = r then .writing else .reading) →
    runTokens Config.params (rom p k) s = runExpansion Config.params (expansion p k r) s
      ∧ fixedLen (rom p k) = (fixedAndKeyed p k).1 ∧ keyedBefore p (k + 1) = (fixedAndKeyed p k).2)
  ∧ (∀ p : Pattern, p.nmsgs
      = if p = .K ∨ p = .N ∨ p = .X then 1 else if p = .XX then 3 else 2)

/-- HS_WRITE in turn (R117): HS.SEQ advances, MSG is emptied, the expansion of the message runs from offset 0 in the
writing form, and the command ends OK with HS.OFF and MSGLEN at the offset reached, or with hs_fail. -/
def Obligations.HsWriteRunsItsMessage : Prop :=
  ∀ s : State, s.fatal = false → s.phase = .active → s.seq.toNat < s.pattern.nmsgs →
    writerOf s.seq.toNat = s.role →
    exec .hsWrite s = .next
      (match runExpansion Config.params (expansion s.pattern s.seq.toNat s.role)
          { s with seq := s.seq + 1, msg := [], op := { s.op with form := .writing, off := 0 } } with
        | .ok _ u => { u.wipe with
            err := .ok, off := u.op.off, msg := u.msg.take u.op.off.toNat
            msgcur := true, lastw := true, paydone := false }
        | .err e u => { (hsFail true u).wipe with err := e.toErr }
        | .viol c u => enterViolation c u)

/-- HS_WRITE in turn in a host-driven machine completes (R117, R121): either the message with its fixed length, or
DHFailure with the handshake FAILED; nothing else of the machine changes. -/
def Obligations.HsWriteInTurnGivesTheMessage : Prop :=
  ∀ s : State, s.Inv → s.fatal = false → s.phase = .active → s.seq.toNat < s.pattern.nmsgs →
    writerOf s.seq.toNat = s.role →
    ∃ t, exec .hsWrite s = .next t ∧ t.fatal = false ∧ t.seq.toNat = s.seq.toNat + 1
      ∧ t.role = s.role ∧ t.pattern = s.pattern ∧ t.kRS = s.kRS ∧ t.kRE = s.kRE
      ∧ sameTransport s t ∧ sameHostOperands s t ∧ t.digest = s.digest ∧ t.transientsClear
      ∧ ((t.err = .ok ∧ t.phase = .active ∧ t.msgcur = true ∧ t.lastw = true ∧ t.paydone = false
            ∧ t.off.toNat = (fixedAndKeyed s.pattern s.seq.toNat).1
            ∧ t.msg.length = (fixedAndKeyed s.pattern s.seq.toNat).1
            ∧ t.keyed = (fixedAndKeyed s.pattern s.seq.toNat).2
            ∧ (∀ e, s.kE = some e → (rom s.pattern s.seq.toNat).head? = some .e →
                t.msg.take 32 = (Config.params.dhPub e).toList)
            ∧ t.kS = s.kS ∧ t.kE = s.kE ∧ t.kPSK = s.kPSK ∧ sameBytes .DAT s t)
        ∨ (t.err = .dhFailure ∧ t.phase = .failed ∧ t.msg = [] ∧ t.dat = [] ∧ t.ctxT = none
            ∧ t.keyed = false ∧ t.ownKeysWiped ∧ t.off = s.off ∧ t.msgcur = s.msgcur
            ∧ t.lastw = s.lastw ∧ t.paydone = s.paydone))

/-- HS_READ in turn with a frame of at least the fixed length (R118): HS.SEQ advances, the expansion of the message runs
from offset 0 in the reading form, and the command ends OK with HS.OFF at the offset reached, or with hs_fail. -/
def Obligations.HsReadRunsItsMessage : Prop :=
  ∀ s : State, s.fatal = false → s.phase = .active → s.seq.toNat < s.pattern.nmsgs →
    writerOf s.seq.toNat ≠ s.role →
    (s.msg.length < (fixedAndKeyed s.pattern s.seq.toNat).1 →
      exec .hsRead s = .next { (hsFail false { s with seq := s.seq + 1 }).wipe with
        err := .ciphertextTooShort })
    ∧ ((fixedAndKeyed s.pattern s.seq.toNat).1 ≤ s.msg.length →
      exec .hsRead s = .next
        (match runExpansion Config.params (expansion s.pattern s.seq.toNat s.role)
            { s with seq := s.seq + 1, op := { s.op with form := .reading, off := 0 } } with
          | .ok _ u => { u.wipe with
              err := .ok, off := u.op.off, msgcur := true, lastw := false, paydone := false }
          | .err e u => { (hsFail false u).wipe with err := e.toErr }
          | .viol c u => enterViolation c u))

/-- HS_READ in turn in a host-driven machine with a frame of at least the fixed length completes (R118, R121): OK with the
remote keys set, or MessageCorrupted or DHFailure with the handshake FAILED; MSG stays. -/
def Obligations.HsReadInTurnTakesTheMessage : Prop :=
  ∀ s : State, s.Inv → s.fatal = false → s.phase = .active → s.seq.toNat < s.pattern.nmsgs →
    writerOf s.seq.toNat ≠ s.role → (fixedAndKeyed s.pattern s.seq.toNat).1 ≤ s.msg.length →
    ∃ t, exec .hsRead s = .next t ∧ t.fatal = false ∧ t.seq.toNat = s.seq.toNat + 1
      ∧ t.role = s.role ∧ t.pattern = s.pattern ∧ sameBytes .MSG s t
      ∧ sameTransport s t ∧ sameHostOperands s t ∧ t.digest = s.digest ∧ t.transientsClear
      ∧ (Token.e ∉ rom s.pattern s.seq.toNat → t.kRE = s.kRE)
      ∧ (Token.e ∈ rom s.pattern s.seq.toNat → t.kRE = some (keyOfBytes (s.msg.take 32)))
      ∧ (Token.s ∉ rom s.pattern s.seq.toNat → t.kRS = s.kRS)
      ∧ ((t.err = .ok ∧ t.phase = .active ∧ t.msgcur = true ∧ t.lastw = false ∧ t.paydone = false
            ∧ t.off.toNat = (fixedAndKeyed s.pattern s.seq.toNat).1
            ∧ t.keyed = (fixedAndKeyed s.pattern s.seq.toNat).2
            ∧ (Token.s ∈ rom s.pattern s.seq.toNat → t.kRS.isSome = true)
            ∧ t.kS = s.kS ∧ t.kE = s.kE ∧ t.kPSK = s.kPSK ∧ sameBytes .DAT s t)
        ∨ ((t.err = .messageCorrupted ∨ t.err = .dhFailure) ∧ t.phase = .failed ∧ t.dat = []
            ∧ t.ctxT = none ∧ t.keyed = false ∧ t.ownKeysWiped))

/-- A message command out of turn is CV_SEQ: past the last message, or in the wrong direction (R93). -/
def Obligations.MessageCommandsOutOfTurnAreSequenceViolations : Prop :=
  ∀ s : State, s.fatal = false → s.phase = .active →
    (s.pattern.nmsgs ≤ s.seq.toNat → exec .hsWrite s = .next (enterViolation .seq s)
        ∧ exec .hsRead s = .next (enterViolation .seq s))
      ∧ (writerOf s.seq.toNat ≠ s.role → exec .hsWrite s = .next (enterViolation .seq s))
      ∧ (writerOf s.seq.toNat = s.role → exec .hsRead s = .next (enterViolation .seq s))
      ∧ (s.seq.toNat ≠ s.pattern.nmsgs → exec .hsFinal s = .next (enterViolation .seq s))

/-- HS_ENCPAY (R119): its checks in their order, then the payload encrypted from the transcript and its block written at
HS.OFF; MSGLEN is HS.OFF + DATLEN + 16. Bytes of MSG below HS.OFF stay; those the host left beyond MSGLEN are any value
(93 U6, log entry 4). -/
def Obligations.HsEncpayAppendsThePayloadBlock : Prop :=
  ∀ s : State, s.fatal = false → s.phase = .active →
    (¬ (s.msgcur = true ∧ s.lastw = true ∧ s.paydone = false) →
      exec .hsEncpay s = .next (enterViolation .seq s))
    ∧ (s.msgcur = true → s.lastw = true → s.paydone = false →
      (s.keyed = false → exec .hsEncpay s = .next (enterViolation .notKeyed s))
      ∧ (s.keyed = true → 65535 < s.off.toNat + s.dat.length + 16 →
          exec .hsEncpay s = .next (enterViolation .len s))
      ∧ (∀ x, s.keyed = true → s.off.toNat + s.dat.length + 16 ≤ 65535 → s.ctxT = some x →
          let c := Config.params.spEncrypt x s.dat
          let q := Config.params.spSqueeze c.1 16
          exec .hsEncpay s = .next { s.wipe with
            err := .ok, paydone := true, ctxT := some q.1
            msg := s.msg.take s.off.toNat ++ freeBytes s.freeCtr (s.off.toNat - s.msg.length)
              ++ (c.2 ++ q.2.toList)
            freeCtr := s.freeCtr + (s.off.toNat - s.msg.length) }))

/-- HS_DECPAY (R120): its checks in their order; a block shorter than a tag is CiphertextTooShort; else the plaintext goes
to DAT when the tag verifies, and the handshake fails with MessageCorrupted and an empty DAT when it does not (R121). -/
def Obligations.HsDecpayOpensThePayloadBlock : Prop :=
  ∀ s : State, s.fatal = false → s.phase = .active →
    (¬ (s.msgcur = true ∧ s.lastw = false ∧ s.paydone = false) →
      exec .hsDecpay s = .next (enterViolation .seq s))
    ∧ (s.msgcur = true → s.lastw = false → s.paydone = false →
      (s.keyed = false → exec .hsDecpay s = .next (enterViolation .notKeyed s))
      ∧ (s.keyed = true → s.msg.length < s.off.toNat + 16 →
          exec .hsDecpay s = .next { (hsFail false s).wipe with err := .ciphertextTooShort })
      ∧ (∀ x, s.keyed = true → s.off.toNat + 16 ≤ s.msg.length → s.ctxT = some x →
          let n := s.msg.length - s.off.toNat - 16
          let c := Config.params.spDecrypt x ((s.msg.drop s.off.toNat).take n)
          let q := Config.params.spSqueeze c.1 16
          exec .hsDecpay s = .next
            (if q.2.toList = s.msg.drop (s.off.toNat + n) then
              { s.wipe with err := .ok, paydone := true, ctxT := some q.1, dat := c.2 }
            else { (hsFail false s).wipe with err := .messageCorrupted })))

/-- HS_FINAL (R123) with the lane identifiers of R122: 0x00 and 0xFF for the initiator, the reverse for the responder. -/
def Obligations.HsFinalSeedsTheLanes : Prop :=
  ∀ (s : State) (x : Sponge), s.fatal = false → s.phase = .active → s.seq.toNat = s.pattern.nmsgs →
    s.ctxT = some x →
    let rk := (Config.params.spSqueeze x 32).2
    let rb : Byte := if s.role = .initiator then 0x00 else 0xFF
    let nrb : Byte := if s.role = .initiator then 0xFF else 0x00
    exec .hsFinal s = .next { s.wipe with
      err := .ok
      ctxS := some (Config.params.spLaneseed rk rb), ctxR := some (Config.params.spLaneseed rk nrb)
      snonce := 0, rnonce := 0, tcAborted := false, tcValid := true
      phase := .done, msgcur := false
      ctxT := none, keyed := false, kS := none, kE := none, kPSK := none }

/-- Two XCBs of opposite roles that finish with equal transcripts get crossed lanes and nonces 0: each one's send lane is
the other's receive lane (R122, R123). -/
def Obligations.FinalLanesCross : Prop :=
  ∀ (i r : State) (x : Sponge), i.fatal = false → r.fatal = false → i.phase = .active → r.phase = .active →
    i.seq.toNat = i.pattern.nmsgs → r.seq.toNat = r.pattern.nmsgs → i.ctxT = some x → r.ctxT = some x →
    i.role = .initiator → r.role = .responder →
    ∃ i' r', exec .hsFinal i = .next i' ∧ exec .hsFinal r = .next r'
      ∧ i'.ctxS = r'.ctxR ∧ i'.ctxR = r'.ctxS ∧ i'.ctxS.isSome = true ∧ i'.ctxR.isSome = true
      ∧ i'.snonce = 0 ∧ i'.rnonce = 0 ∧ r'.snonce = 0 ∧ r'.rnonce = 0

/-- One message of any pattern between two peers (R90, R106): the writer's HS_WRITE gives OK or DHFailure; when it gives
OK, the reader's HS_READ of exactly that frame gives OK, and the two stay peers with equal transcripts, or DHFailure. Never
a tag failure, never a contract violation. -/
def Obligations.PeersStayPeersOverAMessage : Prop :=
  ∀ i r : State, Peers i r → i.seq.toNat < i.pattern.nmsgs →
    (writerOf i.seq.toNat = .initiator →
      ∃ i', exec .hsWrite i = .next i' ∧ (i'.err = .dhFailure ∨ (i'.err = .ok
        ∧ ∃ r', exec .hsRead { r with msg := i'.msg } = .next r'
          ∧ (r'.err = .dhFailure ∨ (r'.err = .ok ∧ Peers i' r')))))
    ∧ (writerOf i.seq.toNat = .responder →
      ∃ r', exec .hsWrite r = .next r' ∧ (r'.err = .dhFailure ∨ (r'.err = .ok
        ∧ ∃ i', exec .hsRead { i with msg := r'.msg } = .next i'
          ∧ (i'.err = .dhFailure ∨ (i'.err = .ok ∧ Peers i' r')))))

/-- A payload between two peers (R119, R120, R90): what HS_ENCPAY encrypts, HS_DECPAY of exactly that frame gives back, and
the transcripts stay equal. -/
def Obligations.HandshakePayloadRoundTrip : Prop :=
  ∀ (w r : State) (x : Sponge), w.fatal = false → r.fatal = false → w.phase = .active → r.phase = .active →
    w.ctxT = some x → r.ctxT = some x → w.keyed = true → r.keyed = true → w.off = r.off →
    w.msgcur = true → w.lastw = true → w.paydone = false →
    r.msgcur = true → r.lastw = false → r.paydone = false →
    w.off.toNat ≤ w.msg.length → w.off.toNat + w.dat.length + 16 ≤ 65535 →
    ∃ w' r', exec .hsEncpay w = .next w' ∧ exec .hsDecpay { r with msg := w'.msg } = .next r'
      ∧ w'.err = .ok ∧ r'.err = .ok ∧ r'.dat = w.dat ∧ w'.ctxT = r'.ctxT
      ∧ w'.msg.length = w.off.toNat + w.dat.length + 16
      ∧ (∀ a, a < w.off.toNat → w'.readByte .MSG a = w.readByte .MSG a)

/-! ### Tokens -/

/-- Token E as a step of its own (R97, R98): the writing form sends and absorbs the own ephemeral public key; the
reading form takes the remote one, once; every other byte of MSG stays. That tokens run as steps of their own is the
model's choice (log entry 5), and so is the 16-bit width of the offset they advance (log entry 21). -/
def Obligations.TokenESendsOrTakesTheEphemeralKey : Prop :=
  decode .T [0x01] = .ok .tokE ∧
  ∀ s : State, s.fatal = false →
    (s.op.form = .writing → s.kE = none → exec .tokE s = .next (enterViolation .keySlot s))
    ∧ (s.op.form = .reading → s.kRE.isSome = true → exec .tokE s = .next (enterViolation .keySlot s))
    ∧ (∀ e x, s.op.form = .writing → s.kE = some e → s.ctxT = some x → s.op.off.toNat ≤ s.msg.length →
        s.op.off.toNat + 32 ≤ 65535 →
        ∃ t, exec .tokE s = .next t
          ∧ t = { s with
              msg := s.msg.take s.op.off.toNat ++ (Config.params.dhPub e).toList
                ++ s.msg.drop (s.op.off.toNat + 32)
              ctxT := some (Config.params.spAbsorb x (Config.params.dhPub e).toList)
              op := { s.op with off := s.op.off + 32 }, res := [] }
          ∧ (∀ a, a < s.op.off.toNat ∨ s.op.off.toNat + 32 ≤ a → t.readByte .MSG a = s.readByte .MSG a))
    ∧ (∀ x, s.op.form = .reading → s.kRE = none → s.ctxT = some x → s.op.off.toNat + 32 ≤ s.msg.length →
        let v := keyOfBytes ((s.msg.drop s.op.off.toNat).take 32)
        exec .tokE s = .next { s with
          kRE := some v, ctxT := some (Config.params.spAbsorb x v.toList)
          op := { s.op with off := s.op.off + 32 }, res := [] })

/-- Token S as a step of its own (R99, R100): the writing form sends the own static public key encrypted and tagged;
the reading form sets K.RS, once, when the tag verifies, and raises MessageCorrupted when it does not. That TAGX and
PTX are zeroized also when the tag verifies is read from R168 (log entry 19). That tokens run as steps of their own is
the model's choice (log entry 5), and so is the 16-bit width of the offset they advance (log entry 21). -/
def Obligations.TokenSSendsOrTakesTheStaticKey : Prop :=
  decode .T [0x02] = .ok .tokS ∧
  ∀ s : State, s.fatal = false →
    (s.op.form = .writing → s.kS = none → exec .tokS s = .next (enterViolation .keySlot s))
    ∧ (s.op.form = .reading → s.kRS.isSome = true → exec .tokS s = .next (enterViolation .keySlot s))
    ∧ (s.keyed = false → (s.op.form = .writing → s.kS.isSome = true →
          exec .tokS s = .next (enterViolation .notKeyed s))
        ∧ (s.op.form = .reading → s.kRS = none → s.op.off.toNat + 48 ≤ s.msg.length →
          exec .tokS s = .next (enterViolation .notKeyed s)))
    ∧ (∀ k x, s.op.form = .writing → s.kS = some k → s.keyed = true → s.ctxT = some x →
        s.op.off.toNat ≤ s.msg.length → s.op.off.toNat + 48 ≤ 65535 →
        let c := Config.params.spEncrypt x (Config.params.dhPub k).toList
        let q := Config.params.spSqueeze c.1 16
        ∃ t, exec .tokS s = .next t
          ∧ t = { s with
              msg := s.msg.take s.op.off.toNat ++ (c.2 ++ q.2.toList) ++ s.msg.drop (s.op.off.toNat + 48)
              ctxT := some q.1, op := { s.op with off := s.op.off + 48 }, res := [] }
          ∧ (∀ a, a < s.op.off.toNat ∨ s.op.off.toNat + 48 ≤ a → t.readByte .MSG a = s.readByte .MSG a))
    ∧ (∀ x, s.op.form = .reading → s.kRS = none → s.keyed = true → s.ctxT = some x →
        s.op.off.toNat + 48 ≤ s.msg.length →
        let blk := (s.msg.drop s.op.off.toNat).take 48
        let c := Config.params.spDecrypt x (blk.take 32)
        let q := Config.params.spSqueeze c.1 16
        exec .tokS s = .next
          (if q.2.toList = blk.drop 32 then { s with
            kRS := some (keyOfBytes c.2), ctxT := some q.1, ptx := [], tagx := Tag.zero
            op := { s.op with off := s.op.off + 48 }, res := [] }
          else { s with ctxT := some q.1, ptx := [], tagx := Tag.zero, err := .messageCorrupted }))

/-- The DH tokens as steps of their own (R101 to R104): each side combines the slots its role gives it, the secret is
mixed into the transcript, SS.KEYED is set and DHO zeroized; an invalid slot is CV_KEYSLOT, a failing combine raises
DHFailure and mixes nothing. That tokens run as steps of their own is the model's choice (log entry 5). -/
def Obligations.DhTokensMixTheSharedSecret : Prop :=
  ∀ (i : Instr) (kp : KpSlot) (pk : PkSlot) (s : State), s.fatal = false →
    ((i = .tokEe ∧ kp = .E ∧ pk = .RE) ∨ (i = .tokSs ∧ kp = .S ∧ pk = .RS)
      ∨ (i = .tokEs ∧ ((s.role = .initiator ∧ kp = .E ∧ pk = .RS) ∨ (s.role = .responder ∧ kp = .S ∧ pk = .RE)))
      ∨ (i = .tokSe ∧ ((s.role = .initiator ∧ kp = .S ∧ pk = .RE) ∨ (s.role = .responder ∧ kp = .E ∧ pk = .RS)))) →
    (s.kpVal kp = none ∨ s.pkVal pk = none → exec i s = .next (enterViolation .keySlot s))
    ∧ (∀ a b x, s.kpVal kp = some a → s.pkVal pk = some b → s.ctxT = some x →
        exec i s = .next
          (match Config.params.dhCombine a b with
            | some z => { s with
                ctxT := some (Config.params.spAbsorb x z.toList), keyed := true, dho := Key.zero, res := [] }
            | none => { s with err := .dhFailure }))

/-- Tokens PSK and END as steps of their own (R105, R56): the pre-shared secret is mixed directly; END is no
operation. That tokens run as steps of their own is the model's choice (log entry 5). -/
def Obligations.TokenPskMixesTheSecretAndEndDoesNothing : Prop :=
  ∀ s : State, s.fatal = false →
    exec .tokEnd s = .next { s with res := [] }
    ∧ (s.kPSK = none → exec .tokPsk s = .next (enterViolation .keySlot s))
    ∧ (∀ k x, s.kPSK = some k → s.ctxT = some x →
        exec .tokPsk s = .next { s with
          ctxT := some (Config.params.spAbsorb x k.toList), keyed := true, res := [] })

/-! ### The symmetric-state mixer -/

/-- SS_INIT, SS_MIXHASH and SS_MIXKEY as steps of their own (R84 to R86). That micro-operations run as steps of their
own is the model's choice (log entry 5). -/
def Obligations.SymmetricStateInitAndMix : Prop :=
  ∀ s : State, s.fatal = false →
    exec .ssInit s = .next { s with
      ctxT := some (Config.params.spInit s.op.data), keyed := false, res := [] }
    ∧ (∀ x, s.ctxT = some x →
        exec .ssMixhash s = .next { s with ctxT := some (Config.params.spAbsorb x s.op.data), res := [] }
        ∧ exec .ssMixkey s = .next { s with
            ctxT := some (Config.params.spAbsorb x s.op.data), keyed := true, res := [] })

/-- SS_ENCRYPT and SS_DECRYPT as steps of their own (R87, R88): CV_NOTKEYED when SS.KEYED = 0; the ciphertext with its
tag; the plaintext when the tag verifies; CiphertextTooShort before any sponge call; MessageCorrupted with the
transcript driven and no plaintext left. That TAGX and PTX are zeroized also when the tag verifies is read from R168
(log entry 19). That micro-operations run as steps of their own is the model's choice (log entry 5). -/
def Obligations.SymmetricStateEncryptAndDecrypt : Prop :=
  ∀ s : State, s.fatal = false →
    (s.keyed = false → exec .ssEncrypt s = .next (enterViolation .notKeyed s)
        ∧ exec .ssDecrypt s = .next (enterViolation .notKeyed s))
    ∧ (s.keyed = true → s.op.data.length < 16 →
        exec .ssDecrypt s = .next { s with err := .ciphertextTooShort })
    ∧ (∀ x, s.keyed = true → s.ctxT = some x →
        let c := Config.params.spEncrypt x s.op.data
        let q := Config.params.spSqueeze c.1 16
        exec .ssEncrypt s = .next { s with ctxT := some q.1, res := c.2 ++ q.2.toList })
    ∧ (∀ x, s.keyed = true → s.ctxT = some x → 16 ≤ s.op.data.length →
        let n := s.op.data.length - 16
        let c := Config.params.spDecrypt x (s.op.data.take n)
        let q := Config.params.spSqueeze c.1 16
        exec .ssDecrypt s = .next
          (if q.2.toList = s.op.data.drop n then
            { s with ctxT := some q.1, ptx := [], tagx := Tag.zero, res := c.2 }
          else { s with ctxT := some q.1, ptx := [], tagx := Tag.zero, err := .messageCorrupted }))

/-- A reader's SS_DECRYPT of a writer's SS_ENCRYPT result, from equal transcripts, gives the plaintext and equal
transcripts again (R90, SP-INV of R69). That the micro-operations run as steps of their own, give their result to
`res` and do not write STATUS.ERR when they end well is the model's choice (log entry 5). -/
def Obligations.SymmetricStatesStayEqual : Prop :=
  ∀ (w r : State) (x : Sponge), w.fatal = false → r.fatal = false → w.keyed = true → r.keyed = true →
    w.ctxT = some x → r.ctxT = some x →
    ∃ w' r', exec .ssEncrypt w = .next w'
      ∧ exec .ssDecrypt { r with op := { r.op with data := w'.res } } = .next r'
      ∧ r'.res = w.op.data ∧ w'.ctxT = r'.ctxT ∧ w'.keyed = r'.keyed ∧ r'.err = r.err
      ∧ w'.res.length = w.op.data.length + 16

/-- `tag_differs`, the OR of the byte-wise XORs, is plain inequality of the two strings (R89). -/
def Obligations.TagComparisonIsInequality : Prop :=
  ∀ a b : Tag, tagDiffers a.toList b.toList = true ↔ a ≠ b

/-! ### The sponge port and the DH port -/

/-- The port operations that thread one context, as steps of their own (R70, R72 to R76): the named context takes the
primitive's state, the result goes to the issuer, and no other context is read or written; on an invalid context each
of them, and SP.CLONE, is a contract violation CV_SEQ. That port operations run as steps of their own is the model's
choice (log entry 5). -/
def Obligations.PortOperationsThreadTheNamedContext : Prop :=
  (∀ (c : Ctx) (s : State), s.fatal = false → s.ctx c = none →
    ∀ i ∈ [Instr.spAbsorb c, .spSqueeze c, .spEncrypt c, .spDecrypt c, .spRatchet c, .spClone c],
      exec i s = .next (enterViolation .seq s))
  ∧ ∀ (c : Ctx) (s : State) (x : Sponge), s.fatal = false → s.ctx c = some x →
    exec (.spAbsorb c) s = .next { s.setCtx c (some (Config.params.spAbsorb x s.op.data)) with res := [] }
    ∧ exec (.spSqueeze c) s = .next { s.setCtx c (some (Config.params.spSqueeze x s.op.count).1) with
        res := (Config.params.spSqueeze x s.op.count).2.toList }
    ∧ exec (.spEncrypt c) s = .next { s.setCtx c (some (Config.params.spEncrypt x s.op.data).1) with
        res := (Config.params.spEncrypt x s.op.data).2 }
    ∧ exec (.spDecrypt c) s = .next { s.setCtx c (some (Config.params.spDecrypt x s.op.data).1) with
        res := (Config.params.spDecrypt x s.op.data).2 }
    ∧ exec (.spRatchet c) s = .next { s.setCtx c (some (Config.params.spRatchet x)) with res := [] }

/-- The port operations that create a context's value, as steps of their own (R71, R77, R78), whatever it held. R77
and R78 name CTX_S and CTX_R as operands; that SP.CLONE and SP.LANESEED take CTX_T and CTX_X too is read from the
encoding (log entry 13). That port operations run as steps of their own is the model's choice (log entry 5). -/
def Obligations.PortOperationsCreateAContext : Prop :=
  ∀ (c : Ctx) (s : State), s.fatal = false →
    exec (.spInit c) s = .next { s.setCtx c (some (Config.params.spInit s.op.data)) with res := [] }
    ∧ exec (.spLaneseed c) s = .next
        { s.setCtx c (some (Config.params.spLaneseed s.rk s.op.idb)) with res := [] }
    ∧ (∀ x, s.ctx c = some x → exec (.spClone c) s = .next { s with ctxX := some x, res := [] })

/-- DH.COMBINE and DH.PUB as steps of their own (R81, R82): invalid slots are CV_KEYSLOT; the secret goes to DHO or
DHFailure is raised; the public key goes to the issuer. That port operations run as steps of their own is the model's
choice (log entry 5). -/
def Obligations.DhPortCombinesAndDerives : Prop :=
  ∀ s : State, s.fatal = false →
    (s.kpVal s.op.kp = none ∨ s.pkVal s.op.pk = none → exec .dhCombine s = .next (enterViolation .keySlot s))
    ∧ (s.kpVal s.op.kp = none → exec .dhPub s = .next (enterViolation .keySlot s))
    ∧ (∀ a b, s.kpVal s.op.kp = some a → s.pkVal s.op.pk = some b →
        exec .dhCombine s = .next
          (match Config.params.dhCombine a b with
            | some z => { s with dho := z, res := [] }
            | none => { s with err := .dhFailure }))
    ∧ (∀ a, s.kpVal s.op.kp = some a →
        exec .dhPub s = .next { s with res := (Config.params.dhPub a).toList })

/-! ### Transport -/

/-- TC_ENC (R126): from a copy of the send lane that has absorbed the nonce and, when adp = 1, AD; MSG is ciphertext and
tag; only the nonce advances, the lane stays. -/
def Obligations.TcEncSealsAMessage : Prop :=
  ∀ (adp : Bool) (s : State) (x : Sponge), s.fatal = false → s.tcValid = true → s.tcAborted = false →
    s.dat.length + 16 ≤ 65535 → s.snonce.toNat < 2 ^ 64 - 1 → s.ctxS = some x →
    let y := Config.params.spAbsorb x (leBytes 8 s.snonce.toNat)
    let z := if adp = true then Config.params.spAbsorb y s.ad else y
    let c := Config.params.spEncrypt z s.dat
    let q := Config.params.spSqueeze c.1 16
    exec (.tcEnc adp) s = .next { s.wipe with
      err := .ok, msg := c.2 ++ q.2.toList, snonce := s.snonce + 1 }

/-- TC_DEC (R127): a frame shorter than a tag is CiphertextTooShort and changes nothing else; the plaintext goes to
DAT and the nonce advances when the tag verifies; else TC.ABORTED is set, DAT emptied, the nonce kept. That DAT too
stays on a short frame is read from R127 and R147 against R166 (log entry 8). -/
def Obligations.TcDecOpensAMessage : Prop :=
  ∀ (adp : Bool) (s : State), s.fatal = false → s.tcValid = true → s.tcAborted = false →
    s.msg.length ≤ 65535 → s.rnonce.toNat < 2 ^ 64 - 1 →
    (s.msg.length < 16 → exec (.tcDec adp) s = .next { s.wipe with err := .ciphertextTooShort })
    ∧ (∀ x, 16 ≤ s.msg.length → s.ctxR = some x →
      let n := s.msg.length - 16
      let y := Config.params.spAbsorb x (leBytes 8 s.rnonce.toNat)
      let z := if adp = true then Config.params.spAbsorb y s.ad else y
      let c := Config.params.spDecrypt z (s.msg.take n)
      let q := Config.params.spSqueeze c.1 16
      exec (.tcDec adp) s = .next
        (if q.2.toList = s.msg.drop n then
          { s.wipe with err := .ok, dat := c.2, rnonce := s.rnonce + 1 }
        else { s.wipe with err := .messageCorrupted, dat := [], tcAborted := true }))

/-- The rekey commands (R129 to R131): each ratchets its lane or both, at any nonce, and resets no counter; TC_REKEY equals
TC_REKEY_S followed by TC_REKEY_R. -/
def Obligations.RekeyRatchetsTheLanes : Prop :=
  ∀ (s : State) (x y : Sponge), s.fatal = false → s.tcValid = true → s.tcAborted = false →
    s.ctxS = some x → s.ctxR = some y →
    let xs := some (Config.params.spRatchet x)
    let yr := some (Config.params.spRatchet y)
    exec .tcRekeyS s = .next { s.wipe with err := .ok, ctxS := xs }
    ∧ exec .tcRekeyR s = .next { s.wipe with err := .ok, ctxR := yr }
    ∧ exec .tcRekey s = .next { s.wipe with err := .ok, ctxS := xs, ctxR := yr }
    ∧ exec .tcRekeyR { s.wipe with err := .ok, ctxS := xs } = exec .tcRekey s

/-- The transport limits (R126, R127, R132): too long a plaintext is CV_LEN, before the nonce is looked at; a counter at
2^64 - 1 is CV_NONCE on either side, whatever the message. -/
def Obligations.TransportLimitsAreViolations : Prop :=
  ∀ (adp : Bool) (s : State), s.fatal = false → s.tcValid = true → s.tcAborted = false →
    (65535 < s.dat.length + 16 → exec (.tcEnc adp) s = .next (enterViolation .len s))
    ∧ (s.dat.length + 16 ≤ 65535 → s.snonce.toNat = 2 ^ 64 - 1 →
        exec (.tcEnc adp) s = .next (enterViolation .nonce s))
    ∧ (s.msg.length ≤ 65535 → s.rnonce.toNat = 2 ^ 64 - 1 →
        exec (.tcDec adp) s = .next (enterViolation .nonce s))

/-- A transport message round trip (R126 to R128): when the receiver's lane and counter are the sender's and both use the
same adp and associated data, TC_DEC of exactly the frame TC_ENC made gives the plaintext, and both counters advance
together. -/
def Obligations.TransportRoundTrip : Prop :=
  ∀ (adp : Bool) (w r : State) (x : Sponge), w.fatal = false → r.fatal = false →
    w.tcValid = true → r.tcValid = true → w.tcAborted = false → r.tcAborted = false →
    w.ctxS = some x → r.ctxR = some x → w.snonce = r.rnonce → w.snonce.toNat < 2 ^ 64 - 1 →
    w.ad = r.ad → w.dat.length + 16 ≤ 65535 →
    ∃ w' r', exec (.tcEnc adp) w = .next w' ∧ exec (.tcDec adp) { r with msg := w'.msg } = .next r'
      ∧ w'.err = .ok ∧ r'.err = .ok ∧ r'.dat = w.dat ∧ w'.msg.length = w.dat.length + 16
      ∧ w'.snonce = r'.rnonce ∧ w'.snonce.toNat = w.snonce.toNat + 1
      ∧ w'.ctxS = r'.ctxR ∧ w'.ctxS = some x ∧ r'.tcAborted = false

/-- The two directions are independent (R124): however it ends, TC_ENC reads neither CTX_R nor TC.RNONCE nor the old MSG,
TC_DEC neither CTX_S nor TC.SNONCE nor the old DAT. What such a command leaves of them stands as it was given: a contract
violation wipes contexts and DAT, and a TC_DEC of a short frame leaves DAT (read from R127 and R147 against R166, log
entry 8). -/
def Obligations.SendAndReceiveAreIndependent : Prop :=
  ∀ (adp : Bool) (s t : State) (v : Option Sponge) (n : BitVec 64) (b : Bytes), s.fatal = false →
    (exec (.tcEnc adp) s = .next t →
      exec (.tcEnc adp) { s with ctxR := v, rnonce := n, msg := b } = .next
        (if t.fatal = true then { t with rnonce := n, msg := b } else { t with ctxR := v, rnonce := n }))
    ∧ (exec (.tcDec adp) s = .next t →
      exec (.tcDec adp) { s with ctxS := v, snonce := n, dat := b } = .next
        (if t.fatal = true then { t with snonce := n }
        else if t.err = .ciphertextTooShort then { t with ctxS := v, snonce := n, dat := b }
        else { t with ctxS := v, snonce := n }))

/-! ### Password hash -/

/-- PH_HASH within the legal range (R133 to R138): DIGEST is the function of password, salt, spaceCost and timeCost that
R136 gives, with the call counters of R137 in closed form; nothing else changes and no transient is left. -/
def Obligations.PhHashComputesTheDigest : Prop :=
  ∀ s : State, s.fatal = false → 1 ≤ s.p0.toNat → s.p0.toNat ≤ Config.params.phMaxSpace →
    s.p0.toNat + 7 * s.p1.toNat * s.p0.toNat ≤ 2 ^ 64 →
    exec .phHash s = .next { s.wipe with
      err := .ok, digest := refDigest Config.params s.dat s.ad s.p0.toNat s.p1.toNat }

/-- PH_HASH outside the legal range is CV_PARAM, DIGEST unchanged; spaceCost = 0 is outside (R134, R138(c)). -/
def Obligations.PhHashRefusesIllegalParameters : Prop :=
  ∀ s : State, s.fatal = false →
    ¬ (1 ≤ s.p0.toNat ∧ s.p0.toNat ≤ Config.params.phMaxSpace
      ∧ s.p0.toNat + 7 * s.p1.toNat * s.p0.toNat ≤ 2 ^ 64) →
    exec .phHash s = .next (enterViolation .param s) ∧ (enterViolation .param s).digest = s.digest

/-- The number of H calls (R137): from a zero counter, the seeding chain and T rounds over N blocks leave PH.CNT at
N + 7·T·N, modulo its 64 bits, and always end. -/
def Obligations.PhHashCallCount : Prop :=
  ∀ (n t : Nat) (s : State), 1 ≤ n → s.phCnt = 0 →
    ∃ u, (phSeed Config.params n s).bind (fun _ v => forUp t (phRound Config.params n) v) = .ok () u
      ∧ u.phCnt = BitVec.ofNat 64 (n + 7 * t * n)
end

