-- ==== Sys2Proof/Laws/State.lean ====
section
/-! SUPPORT. One lemma per field per update of the state, each true by cases and rfl,
    so that no later proof unfolds a
record update. -/

namespace Sys2Proof.Machine

/-! ### A context replaced -/

@[simp] theorem State.setCtx_keyed (s : State) (c : Ctx) (v : Option Sponge) : (s.setCtx c v).keyed = s.keyed := by cases c <;> rfl
@[simp] theorem State.setCtx_phase (s : State) (c : Ctx) (v : Option Sponge) : (s.setCtx c v).phase = s.phase := by cases c <;> rfl
@[simp] theorem State.setCtx_role (s : State) (c : Ctx) (v : Option Sponge) : (s.setCtx c v).role = s.role
    := by cases c <;> rfl
@[simp] theorem State.setCtx_pattern (s : State) (c : Ctx) (v : Option Sponge) : (s.setCtx c v).pattern = s.pattern := by cases c <;> rfl
@[simp] theorem State.setCtx_seq (s : State) (c : Ctx) (v : Option Sponge) : (s.setCtx c v).seq = s.seq := by cases c <;> rfl
@[simp] theorem State.setCtx_off (s : State) (c : Ctx) (v : Option Sponge) : (s.setCtx c v).off = s.off := by cases c <;> rfl
@[simp] theorem State.setCtx_msgcur (s : State) (c : Ctx) (v : Option Sponge) : (s.setCtx c v).msgcur = s.msgcur := by cases c <;> rfl
@[simp] theorem State.setCtx_lastw (s : State) (c : Ctx) (v : Option Sponge) : (s.setCtx c v).lastw = s.lastw := by cases c <;> rfl
@[simp] theorem State.setCtx_paydone (s : State) (c : Ctx) (v : Option Sponge) : (s.setCtx c v).paydone = s.paydone := by cases c <;> rfl
@[simp] theorem State.setCtx_kS (s : State) (c : Ctx) (v : Option Sponge) : (s.setCtx c v).kS = s.kS := by cases c <;> rfl
@[simp] theorem State.setCtx_kE (s : State) (c : Ctx) (v : Option Sponge) : (s.setCtx c v).kE = s.kE := by cases c <;> rfl
@[simp] theorem State.setCtx_kRS (s : State) (c : Ctx) (v : Option Sponge) : (s.setCtx c v).kRS = s.kRS := by cases c <;> rfl
@[simp] theorem State.setCtx_kRE (s : State) (c : Ctx) (v : Option Sponge) : (s.setCtx c v).kRE = s.kRE := by cases c <;> rfl
@[simp] theorem State.setCtx_kPSK (s : State) (c : Ctx) (v : Option Sponge) : (s.setCtx c v).kPSK = s.kPSK
    := by cases c <;> rfl
@[simp] theorem State.setCtx_tcValid (s : State) (c : Ctx) (v : Option Sponge) : (s.setCtx c v).tcValid = s.tcValid := by cases c <;> rfl
@[simp] theorem State.setCtx_tcAborted (s : State) (c : Ctx) (v : Option Sponge) : (s.setCtx c v).tcAborted = s.tcAborted := by cases c <;> rfl
@[simp] theorem State.setCtx_snonce (s : State) (c : Ctx) (v : Option Sponge) : (s.setCtx c v).snonce = s.snonce := by cases c <;> rfl
@[simp] theorem State.setCtx_rnonce (s : State) (c : Ctx) (v : Option Sponge) : (s.setCtx c v).rnonce = s.rnonce := by cases c <;> rfl
@[simp] theorem State.setCtx_phb (s : State) (c : Ctx) (v : Option Sponge) : (s.setCtx c v).phb = s.phb := by cases c <;> rfl
@[simp] theorem State.setCtx_phCnt (s : State) (c : Ctx) (v : Option Sponge) : (s.setCtx c v).phCnt = s.phCnt := by cases c <;> rfl
@[simp] theorem State.setCtx_phT (s : State) (c : Ctx) (v : Option Sponge) : (s.setCtx c v).phT = s.phT := by cases c <;> rfl
@[simp] theorem State.setCtx_phM (s : State) (c : Ctx) (v : Option Sponge) : (s.setCtx c v).phM = s.phM := by cases c <;> rfl
@[simp] theorem State.setCtx_phL (s : State) (c : Ctx) (v : Option Sponge) : (s.setCtx c v).phL = s.phL := by cases c <;> rfl
@[simp] theorem State.setCtx_phJ (s : State) (c : Ctx) (v : Option Sponge) : (s.setCtx c v).phJ = s.phJ := by cases c <;> rfl
@[simp] theorem State.setCtx_digest (s : State) (c : Ctx) (v : Option Sponge) : (s.setCtx c v).digest = s.digest := by cases c <;> rfl
@[simp] theorem State.setCtx_dho (s : State) (c : Ctx) (v : Option Sponge) : (s.setCtx c v).dho = s.dho := by cases c <;> rfl
@[simp] theorem State.setCtx_rk (s : State) (c : Ctx) (v : Option Sponge) : (s.setCtx c v).rk = s.rk := by cases c <;> rfl
@[simp] theorem State.setCtx_tagx (s : State) (c : Ctx) (v : Option Sponge) : (s.setCtx c v).tagx = s.tagx
    := by cases c <;> rfl
@[simp] theorem State.setCtx_ptx (s : State) (c : Ctx) (v : Option Sponge) : (s.setCtx c v).ptx = s.ptx := by cases c <;> rfl
@[simp] theorem State.setCtx_fatal (s : State) (c : Ctx) (v : Option Sponge) : (s.setCtx c v).fatal = s.fatal := by cases c <;> rfl
@[simp] theorem State.setCtx_cv (s : State) (c : Ctx) (v : Option Sponge) : (s.setCtx c v).cv = s.cv := by cases c <;> rfl
@[simp] theorem State.setCtx_err (s : State) (c : Ctx) (v : Option Sponge) : (s.setCtx c v).err = s.err := by cases c <;> rfl
@[simp] theorem State.setCtx_p0 (s : State) (c : Ctx) (v : Option Sponge) : (s.setCtx c v).p0 = s.p0 := by cases c <;> rfl
@[simp] theorem State.setCtx_p1 (s : State) (c : Ctx) (v : Option Sponge) : (s.setCtx c v).p1 = s.p1 := by cases c <;> rfl
@[simp] theorem State.setCtx_msg (s : State) (c : Ctx) (v : Option Sponge) : (s.setCtx c v).msg = s.msg := by cases c <;> rfl
@[simp] theorem State.setCtx_dat (s : State) (c : Ctx) (v : Option Sponge) : (s.setCtx c v).dat = s.dat := by cases c <;> rfl
@[simp] theorem State.setCtx_ad (s : State) (c : Ctx) (v : Option Sponge) : (s.setCtx c v).ad = s.ad := by cases c <;> rfl
@[simp] theorem State.setCtx_op (s : State) (c : Ctx) (v : Option Sponge) : (s.setCtx c v).op = s.op := by cases c <;> rfl
@[simp] theorem State.setCtx_res (s : State) (c : Ctx) (v : Option Sponge) : (s.setCtx c v).res = s.res := by cases c <;> rfl
@[simp] theorem State.setCtx_inbox (s : State) (c : Ctx) (v : Option Sponge) : (s.setCtx c v).inbox = s.inbox := by cases c <;> rfl
@[simp] theorem State.setCtx_freeCtr (s : State) (c : Ctx) (v : Option Sponge) : (s.setCtx c v).freeCtr = s.freeCtr := by cases c <;> rfl

@[simp] theorem State.setCtx_T_ctxT (s : State) (v : Option Sponge) : (s.setCtx .T v).ctxT = v := rfl
@[simp] theorem State.setCtx_T_ctxS (s : State) (v : Option Sponge) : (s.setCtx .T v).ctxS = s.ctxS := rfl
@[simp] theorem State.setCtx_T_ctxR (s : State) (v : Option Sponge) : (s.setCtx .T v).ctxR = s.ctxR := rfl
@[simp] theorem State.setCtx_T_ctxX (s : State) (v : Option Sponge) : (s.setCtx .T v).ctxX = s.ctxX := rfl
@[simp] theorem State.setCtx_S_ctxT (s : State) (v : Option Sponge) : (s.setCtx .S v).ctxT = s.ctxT := rfl
@[simp] theorem State.setCtx_S_ctxS (s : State) (v : Option Sponge) : (s.setCtx .S v).ctxS = v := rfl
@[simp] theorem State.setCtx_S_ctxR (s : State) (v : Option Sponge) : (s.setCtx .S v).ctxR = s.ctxR := rfl
@[simp] theorem State.setCtx_S_ctxX (s : State) (v : Option Sponge) : (s.setCtx .S v).ctxX = s.ctxX := rfl
@[simp] theorem State.setCtx_R_ctxT (s : State) (v : Option Sponge) : (s.setCtx .R v).ctxT = s.ctxT := rfl
@[simp] theorem State.setCtx_R_ctxS (s : State) (v : Option Sponge) : (s.setCtx .R v).ctxS = s.ctxS := rfl
@[simp] theorem State.setCtx_R_ctxR (s : State) (v : Option Sponge) : (s.setCtx .R v).ctxR = v := rfl
@[simp] theorem State.setCtx_R_ctxX (s : State) (v : Option Sponge) : (s.setCtx .R v).ctxX = s.ctxX := rfl
@[simp] theorem State.setCtx_X_ctxT (s : State) (v : Option Sponge) : (s.setCtx .X v).ctxT = s.ctxT := rfl
@[simp] theorem State.setCtx_X_ctxS (s : State) (v : Option Sponge) : (s.setCtx .X v).ctxS = s.ctxS := rfl
@[simp] theorem State.setCtx_X_ctxR (s : State) (v : Option Sponge) : (s.setCtx .X v).ctxR = s.ctxR := rfl
@[simp] theorem State.setCtx_X_ctxX (s : State) (v : Option Sponge) : (s.setCtx .X v).ctxX = v := rfl

/-- Reading back the context that was replaced. -/
@[simp] theorem State.ctx_setCtx_self (s : State) (c : Ctx) (v : Option Sponge) : (s.setCtx c v).ctx c = v := by
  cases c <;> rfl

/-- Replacing one context leaves every other as it was (R70). -/
theorem State.ctx_setCtx_of_ne (s : State) (c d : Ctx) (v : Option Sponge) (h : d ≠ c) :
    (s.setCtx c v).ctx d = s.ctx d := by
  cases c <;> cases d <;> first | rfl | exact absurd rfl h

@[simp] theorem State.ctx_T (s : State) : s.ctx .T = s.ctxT := rfl
@[simp] theorem State.ctx_S (s : State) : s.ctx .S = s.ctxS := rfl
@[simp] theorem State.ctx_R (s : State) : s.ctx .R = s.ctxR := rfl
@[simp] theorem State.ctx_X (s : State) : s.ctx .X = s.ctxX := rfl

/-! ### A key slot replaced -/

@[simp] theorem State.setSlot_ctxT (s : State) (k : Slot) (v : Option Key) : (s.setSlot k v).ctxT = s.ctxT
    := by cases k <;> rfl
@[simp] theorem State.setSlot_ctxS (s : State) (k : Slot) (v : Option Key) : (s.setSlot k v).ctxS = s.ctxS
    := by cases k <;> rfl
@[simp] theorem State.setSlot_ctxR (s : State) (k : Slot) (v : Option Key) : (s.setSlot k v).ctxR = s.ctxR
    := by cases k <;> rfl
@[simp] theorem State.setSlot_ctxX (s : State) (k : Slot) (v : Option Key) : (s.setSlot k v).ctxX = s.ctxX
    := by cases k <;> rfl
@[simp] theorem State.setSlot_keyed (s : State) (k : Slot) (v : Option Key) : (s.setSlot k v).keyed = s.keyed := by cases k <;> rfl
@[simp] theorem State.setSlot_phase (s : State) (k : Slot) (v : Option Key) : (s.setSlot k v).phase = s.phase := by cases k <;> rfl
@[simp] theorem State.setSlot_role (s : State) (k : Slot) (v : Option Key) : (s.setSlot k v).role = s.role
    := by cases k <;> rfl
@[simp] theorem State.setSlot_pattern (s : State) (k : Slot) (v : Option Key) : (s.setSlot k v).pattern = s.pattern := by cases k <;> rfl
@[simp] theorem State.setSlot_seq (s : State) (k : Slot) (v : Option Key) : (s.setSlot k v).seq = s.seq := by cases k <;> rfl
@[simp] theorem State.setSlot_off (s : State) (k : Slot) (v : Option Key) : (s.setSlot k v).off = s.off := by cases k <;> rfl
@[simp] theorem State.setSlot_msgcur (s : State) (k : Slot) (v : Option Key) : (s.setSlot k v).msgcur = s.msgcur := by cases k <;> rfl
@[simp] theorem State.setSlot_lastw (s : State) (k : Slot) (v : Option Key) : (s.setSlot k v).lastw = s.lastw := by cases k <;> rfl
@[simp] theorem State.setSlot_paydone (s : State) (k : Slot) (v : Option Key) : (s.setSlot k v).paydone = s.paydone := by cases k <;> rfl
@[simp] theorem State.setSlot_tcValid (s : State) (k : Slot) (v : Option Key) : (s.setSlot k v).tcValid = s.tcValid := by cases k <;> rfl
@[simp] theorem State.setSlot_tcAborted (s : State) (k : Slot) (v : Option Key) : (s.setSlot k v).tcAborted = s.tcAborted := by cases k <;> rfl
@[simp] theorem State.setSlot_snonce (s : State) (k : Slot) (v : Option Key) : (s.setSlot k v).snonce = s.snonce := by cases k <;> rfl
@[simp] theorem State.setSlot_rnonce (s : State) (k : Slot) (v : Option Key) : (s.setSlot k v).rnonce = s.rnonce := by cases k <;> rfl
@[simp] theorem State.setSlot_phb (s : State) (k : Slot) (v : Option Key) : (s.setSlot k v).phb = s.phb := by cases k <;> rfl
@[simp] theorem State.setSlot_phCnt (s : State) (k : Slot) (v : Option Key) : (s.setSlot k v).phCnt = s.phCnt := by cases k <;> rfl
@[simp] theorem State.setSlot_phT (s : State) (k : Slot) (v : Option Key) : (s.setSlot k v).phT = s.phT := by cases k <;> rfl
@[simp] theorem State.setSlot_phM (s : State) (k : Slot) (v : Option Key) : (s.setSlot k v).phM = s.phM := by cases k <;> rfl
@[simp] theorem State.setSlot_phL (s : State) (k : Slot) (v : Option Key) : (s.setSlot k v).phL = s.phL := by cases k <;> rfl
@[simp] theorem State.setSlot_phJ (s : State) (k : Slot) (v : Option Key) : (s.setSlot k v).phJ = s.phJ := by cases k <;> rfl
@[simp] theorem State.setSlot_digest (s : State) (k : Slot) (v : Option Key) : (s.setSlot k v).digest = s.digest := by cases k <;> rfl
@[simp] theorem State.setSlot_dho (s : State) (k : Slot) (v : Option Key) : (s.setSlot k v).dho = s.dho := by cases k <;> rfl
@[simp] theorem State.setSlot_rk (s : State) (k : Slot) (v : Option Key) : (s.setSlot k v).rk = s.rk := by cases k <;> rfl
@[simp] theorem State.setSlot_tagx (s : State) (k : Slot) (v : Option Key) : (s.setSlot k v).tagx = s.tagx
    := by cases k <;> rfl
@[simp] theorem State.setSlot_ptx (s : State) (k : Slot) (v : Option Key) : (s.setSlot k v).ptx = s.ptx := by cases k <;> rfl
@[simp] theorem State.setSlot_fatal (s : State) (k : Slot) (v : Option Key) : (s.setSlot k v).fatal = s.fatal := by cases k <;> rfl
@[simp] theorem State.setSlot_cv (s : State) (k : Slot) (v : Option Key) : (s.setSlot k v).cv = s.cv := by cases k <;> rfl
@[simp] theorem State.setSlot_err (s : State) (k : Slot) (v : Option Key) : (s.setSlot k v).err = s.err := by cases k <;> rfl
@[simp] theorem State.setSlot_p0 (s : State) (k : Slot) (v : Option Key) : (s.setSlot k v).p0 = s.p0 := by cases k <;> rfl
@[simp] theorem State.setSlot_p1 (s : State) (k : Slot) (v : Option Key) : (s.setSlot k v).p1 = s.p1 := by cases k <;> rfl
@[simp] theorem State.setSlot_msg (s : State) (k : Slot) (v : Option Key) : (s.setSlot k v).msg = s.msg := by cases k <;> rfl
@[simp] theorem State.setSlot_dat (s : State) (k : Slot) (v : Option Key) : (s.setSlot k v).dat = s.dat := by cases k <;> rfl
@[simp] theorem State.setSlot_ad (s : State) (k : Slot) (v : Option Key) : (s.setSlot k v).ad = s.ad := by cases k <;> rfl
@[simp] theorem State.setSlot_op (s : State) (k : Slot) (v : Option Key) : (s.setSlot k v).op = s.op := by cases k <;> rfl
@[simp] theorem State.setSlot_res (s : State) (k : Slot) (v : Option Key) : (s.setSlot k v).res = s.res := by cases k <;> rfl
@[simp] theorem State.setSlot_inbox (s : State) (k : Slot) (v : Option Key) : (s.setSlot k v).inbox = s.inbox := by cases k <;> rfl
@[simp] theorem State.setSlot_freeCtr (s : State) (k : Slot) (v : Option Key) : (s.setSlot k v).freeCtr = s.freeCtr := by cases k <;> rfl

/-- Reading back the slot that was replaced. -/
@[simp] theorem State.slotVal_setSlot_self (s : State) (k : Slot) (v : Option Key) : (s.setSlot k v).slotVal k = v := by
  cases k <;> rfl

/-- Replacing one slot leaves every other as it was. -/
theorem State.slotVal_setSlot_of_ne (s : State) (k j : Slot) (v : Option Key) (h : j ≠ k) :
    (s.setSlot k v).slotVal j = s.slotVal j := by
  cases k <;> cases j <;> first | rfl | exact absurd rfl h

@[simp] theorem State.slotVal_S (s : State) : s.slotVal .S = s.kS := rfl
@[simp] theorem State.slotVal_E (s : State) : s.slotVal .E = s.kE := rfl
@[simp] theorem State.slotVal_RS (s : State) : s.slotVal .RS = s.kRS := rfl
@[simp] theorem State.slotVal_RE (s : State) : s.slotVal .RE = s.kRE := rfl
@[simp] theorem State.slotVal_PSK (s : State) : s.slotVal .PSK = s.kPSK := rfl
@[simp] theorem State.kpVal_S (s : State) : s.kpVal .S = s.kS := rfl
@[simp] theorem State.kpVal_E (s : State) : s.kpVal .E = s.kE := rfl
@[simp] theorem State.pkVal_RS (s : State) : s.pkVal .RS = s.kRS := rfl
@[simp] theorem State.pkVal_RE (s : State) : s.pkVal .RE = s.kRE := rfl

/-! ### A buffer replaced -/

@[simp] theorem State.setBuf_ctxT (s : State) (b : Buf) (v : Bytes) : (s.setBuf b v).ctxT = s.ctxT := by cases b <;> rfl
@[simp] theorem State.setBuf_ctxS (s : State) (b : Buf) (v : Bytes) : (s.setBuf b v).ctxS = s.ctxS := by cases b <;> rfl
@[simp] theorem State.setBuf_ctxR (s : State) (b : Buf) (v : Bytes) : (s.setBuf b v).ctxR = s.ctxR := by cases b <;> rfl
@[simp] theorem State.setBuf_ctxX (s : State) (b : Buf) (v : Bytes) : (s.setBuf b v).ctxX = s.ctxX := by cases b <;> rfl
@[simp] theorem State.setBuf_keyed (s : State) (b : Buf) (v : Bytes) : (s.setBuf b v).keyed = s.keyed := by cases b <;> rfl
@[simp] theorem State.setBuf_phase (s : State) (b : Buf) (v : Bytes) : (s.setBuf b v).phase = s.phase := by cases b <;> rfl
@[simp] theorem State.setBuf_role (s : State) (b : Buf) (v : Bytes) : (s.setBuf b v).role = s.role := by cases b <;> rfl
@[simp] theorem State.setBuf_pattern (s : State) (b : Buf) (v : Bytes) : (s.setBuf b v).pattern = s.pattern := by cases b <;> rfl
@[simp] theorem State.setBuf_seq (s : State) (b : Buf) (v : Bytes) : (s.setBuf b v).seq = s.seq := by cases b <;> rfl
@[simp] theorem State.setBuf_off (s : State) (b : Buf) (v : Bytes) : (s.setBuf b v).off = s.off := by cases b <;> rfl
@[simp] theorem State.setBuf_msgcur (s : State) (b : Buf) (v : Bytes) : (s.setBuf b v).msgcur = s.msgcur := by cases b <;> rfl
@[simp] theorem State.setBuf_lastw (s : State) (b : Buf) (v : Bytes) : (s.setBuf b v).lastw = s.lastw := by cases b <;> rfl
@[simp] theorem State.setBuf_paydone (s : State) (b : Buf) (v : Bytes) : (s.setBuf b v).paydone = s.paydone := by cases b <;> rfl
@[simp] theorem State.setBuf_kS (s : State) (b : Buf) (v : Bytes) : (s.setBuf b v).kS = s.kS := by cases b <;> rfl
@[simp] theorem State.setBuf_kE (s : State) (b : Buf) (v : Bytes) : (s.setBuf b v).kE = s.kE := by cases b <;> rfl
@[simp] theorem State.setBuf_kRS (s : State) (b : Buf) (v : Bytes) : (s.setBuf b v).kRS = s.kRS := by cases b <;> rfl
@[simp] theorem State.setBuf_kRE (s : State) (b : Buf) (v : Bytes) : (s.setBuf b v).kRE = s.kRE := by cases b <;> rfl
@[simp] theorem State.setBuf_kPSK (s : State) (b : Buf) (v : Bytes) : (s.setBuf b v).kPSK = s.kPSK := by cases b <;> rfl
@[simp] theorem State.setBuf_tcValid (s : State) (b : Buf) (v : Bytes) : (s.setBuf b v).tcValid = s.tcValid := by cases b <;> rfl
@[simp] theorem State.setBuf_tcAborted (s : State) (b : Buf) (v : Bytes) : (s.setBuf b v).tcAborted = s.tcAborted := by cases b <;> rfl
@[simp] theorem State.setBuf_snonce (s : State) (b : Buf) (v : Bytes) : (s.setBuf b v).snonce = s.snonce := by cases b <;> rfl
@[simp] theorem State.setBuf_rnonce (s : State) (b : Buf) (v : Bytes) : (s.setBuf b v).rnonce = s.rnonce := by cases b <;> rfl
@[simp] theorem State.setBuf_phb (s : State) (b : Buf) (v : Bytes) : (s.setBuf b v).phb = s.phb := by cases b <;> rfl
@[simp] theorem State.setBuf_phCnt (s : State) (b : Buf) (v : Bytes) : (s.setBuf b v).phCnt = s.phCnt := by cases b <;> rfl
@[simp] theorem State.setBuf_phT (s : State) (b : Buf) (v : Bytes) : (s.setBuf b v).phT = s.phT := by cases b <;> rfl
@[simp] theorem State.setBuf_phM (s : State) (b : Buf) (v : Bytes) : (s.setBuf b v).phM = s.phM := by cases b <;> rfl
@[simp] theorem State.setBuf_phL (s : State) (b : Buf) (v : Bytes) : (s.setBuf b v).phL = s.phL := by cases b <;> rfl
@[simp] theorem State.setBuf_phJ (s : State) (b : Buf) (v : Bytes) : (s.setBuf b v).phJ = s.phJ := by cases b <;> rfl
@[simp] theorem State.setBuf_digest (s : State) (b : Buf) (v : Bytes) : (s.setBuf b v).digest = s.digest := by cases b <;> rfl
@[simp] theorem State.setBuf_dho (s : State) (b : Buf) (v : Bytes) : (s.setBuf b v).dho = s.dho := by cases b <;> rfl
@[simp] theorem State.setBuf_rk (s : State) (b : Buf) (v : Bytes) : (s.setBuf b v).rk = s.rk := by cases b <;> rfl
@[simp] theorem State.setBuf_tagx (s : State) (b : Buf) (v : Bytes) : (s.setBuf b v).tagx = s.tagx := by cases b <;> rfl
@[simp] theorem State.setBuf_ptx (s : State) (b : Buf) (v : Bytes) : (s.setBuf b v).ptx = s.ptx := by cases b <;> rfl
@[simp] theorem State.setBuf_fatal (s : State) (b : Buf) (v : Bytes) : (s.setBuf b v).fatal = s.fatal := by cases b <;> rfl
@[simp] theorem State.setBuf_cv (s : State) (b : Buf) (v : Bytes) : (s.setBuf b v).cv = s.cv := by cases b <;> rfl
@[simp] theorem State.setBuf_err (s : State) (b : Buf) (v : Bytes) : (s.setBuf b v).err = s.err := by cases b <;> rfl
@[simp] theorem State.setBuf_p0 (s : State) (b : Buf) (v : Bytes) : (s.setBuf b v).p0 = s.p0 := by cases b <;> rfl
@[simp] theorem State.setBuf_p1 (s : State) (b : Buf) (v : Bytes) : (s.setBuf b v).p1 = s.p1 := by cases b <;> rfl
@[simp] theorem State.setBuf_op (s : State) (b : Buf) (v : Bytes) : (s.setBuf b v).op = s.op := by cases b <;> rfl
@[simp] theorem State.setBuf_res (s : State) (b : Buf) (v : Bytes) : (s.setBuf b v).res = s.res := by cases b <;> rfl
@[simp] theorem State.setBuf_inbox (s : State) (b : Buf) (v : Bytes) : (s.setBuf b v).inbox = s.inbox := by cases b <;> rfl
@[simp] theorem State.setBuf_freeCtr (s : State) (b : Buf) (v : Bytes) : (s.setBuf b v).freeCtr = s.freeCtr := by cases b <;> rfl

/-- Reading back the buffer that was replaced. -/
@[simp] theorem State.buf_setBuf_self (s : State) (b : Buf) (v : Bytes) : (s.setBuf b v).buf b = v := by
  cases b <;> rfl

/-- Replacing one buffer leaves every other as it was. -/
theorem State.buf_setBuf_of_ne (s : State) (b d : Buf) (v : Bytes) (h : d ≠ b) :
    (s.setBuf b v).buf d = s.buf d := by
  cases b <;> cases d <;> first | rfl | exact absurd rfl h

@[simp] theorem State.buf_MSG (s : State) : s.buf .MSG = s.msg := rfl
@[simp] theorem State.buf_DAT (s : State) : s.buf .DAT = s.dat := rfl
@[simp] theorem State.buf_AD (s : State) : s.buf .AD = s.ad := rfl
@[simp] theorem State.setBuf_MSG_msg (s : State) (v : Bytes) : (s.setBuf .MSG v).msg = v := rfl
@[simp] theorem State.setBuf_MSG_dat (s : State) (v : Bytes) : (s.setBuf .MSG v).dat = s.dat := rfl
@[simp] theorem State.setBuf_MSG_ad (s : State) (v : Bytes) : (s.setBuf .MSG v).ad = s.ad := rfl

/-! ### The end of a command -/

@[simp] theorem State.wipe_ctxT (s : State) : (s.wipe).ctxT = s.ctxT := rfl
@[simp] theorem State.wipe_ctxS (s : State) : (s.wipe).ctxS = s.ctxS := rfl
@[simp] theorem State.wipe_ctxR (s : State) : (s.wipe).ctxR = s.ctxR := rfl
@[simp] theorem State.wipe_ctxX (s : State) : (s.wipe).ctxX = none := rfl
@[simp] theorem State.wipe_keyed (s : State) : (s.wipe).keyed = s.keyed := rfl
@[simp] theorem State.wipe_phase (s : State) : (s.wipe).phase = s.phase := rfl
@[simp] theorem State.wipe_role (s : State) : (s.wipe).role = s.role := rfl
@[simp] theorem State.wipe_pattern (s : State) : (s.wipe).pattern = s.pattern := rfl
@[simp] theorem State.wipe_seq (s : State) : (s.wipe).seq = s.seq := rfl
@[simp] theorem State.wipe_off (s : State) : (s.wipe).off = s.off := rfl
@[simp] theorem State.wipe_msgcur (s : State) : (s.wipe).msgcur = s.msgcur := rfl
@[simp] theorem State.wipe_lastw (s : State) : (s.wipe).lastw = s.lastw := rfl
@[simp] theorem State.wipe_paydone (s : State) : (s.wipe).paydone = s.paydone := rfl
@[simp] theorem State.wipe_kS (s : State) : (s.wipe).kS = s.kS := rfl
@[simp] theorem State.wipe_kE (s : State) : (s.wipe).kE = s.kE := rfl
@[simp] theorem State.wipe_kRS (s : State) : (s.wipe).kRS = s.kRS := rfl
@[simp] theorem State.wipe_kRE (s : State) : (s.wipe).kRE = s.kRE := rfl
@[simp] theorem State.wipe_kPSK (s : State) : (s.wipe).kPSK = s.kPSK := rfl
@[simp] theorem State.wipe_tcValid (s : State) : (s.wipe).tcValid = s.tcValid := rfl
@[simp] theorem State.wipe_tcAborted (s : State) : (s.wipe).tcAborted = s.tcAborted := rfl
@[simp] theorem State.wipe_snonce (s : State) : (s.wipe).snonce = s.snonce := rfl
@[simp] theorem State.wipe_rnonce (s : State) : (s.wipe).rnonce = s.rnonce := rfl
@[simp] theorem State.wipe_phb (s : State) : (s.wipe).phb = [] := rfl
@[simp] theorem State.wipe_phCnt (s : State) : (s.wipe).phCnt = 0 := rfl
@[simp] theorem State.wipe_phT (s : State) : (s.wipe).phT = 0 := rfl
@[simp] theorem State.wipe_phM (s : State) : (s.wipe).phM = 0 := rfl
@[simp] theorem State.wipe_phL (s : State) : (s.wipe).phL = 0 := rfl
@[simp] theorem State.wipe_phJ (s : State) : (s.wipe).phJ = 0 := rfl
@[simp] theorem State.wipe_digest (s : State) : (s.wipe).digest = s.digest := rfl
@[simp] theorem State.wipe_dho (s : State) : (s.wipe).dho = Key.zero := rfl
@[simp] theorem State.wipe_rk (s : State) : (s.wipe).rk = Key.zero := rfl
@[simp] theorem State.wipe_tagx (s : State) : (s.wipe).tagx = Tag.zero := rfl
@[simp] theorem State.wipe_ptx (s : State) : (s.wipe).ptx = [] := rfl
@[simp] theorem State.wipe_fatal (s : State) : (s.wipe).fatal = s.fatal := rfl
@[simp] theorem State.wipe_cv (s : State) : (s.wipe).cv = s.cv := rfl
@[simp] theorem State.wipe_err (s : State) : (s.wipe).err = s.err := rfl
@[simp] theorem State.wipe_p0 (s : State) : (s.wipe).p0 = s.p0 := rfl
@[simp] theorem State.wipe_p1 (s : State) : (s.wipe).p1 = s.p1 := rfl
@[simp] theorem State.wipe_msg (s : State) : (s.wipe).msg = s.msg := rfl
@[simp] theorem State.wipe_dat (s : State) : (s.wipe).dat = s.dat := rfl
@[simp] theorem State.wipe_ad (s : State) : (s.wipe).ad = s.ad := rfl
@[simp] theorem State.wipe_op (s : State) : (s.wipe).op = Operands.zero := rfl
@[simp] theorem State.wipe_res (s : State) : (s.wipe).res = [] := rfl
@[simp] theorem State.wipe_inbox (s : State) : (s.wipe).inbox = s.inbox := rfl
@[simp] theorem State.wipe_freeCtr (s : State) : (s.wipe).freeCtr = s.freeCtr := rfl

/-! ### A contract violation -/

@[simp] theorem enterViolation_ctxT (s : State) (c : Cause) : (enterViolation c s).ctxT = none := rfl
@[simp] theorem enterViolation_ctxS (s : State) (c : Cause) : (enterViolation c s).ctxS = none := rfl
@[simp] theorem enterViolation_ctxR (s : State) (c : Cause) : (enterViolation c s).ctxR = none := rfl
@[simp] theorem enterViolation_ctxX (s : State) (c : Cause) : (enterViolation c s).ctxX = none := rfl
@[simp] theorem enterViolation_keyed (s : State) (c : Cause) : (enterViolation c s).keyed = false := rfl
@[simp] theorem enterViolation_phase (s : State) (c : Cause) : (enterViolation c s).phase = s.phase := rfl
@[simp] theorem enterViolation_role (s : State) (c : Cause) : (enterViolation c s).role = s.role := rfl
@[simp] theorem enterViolation_pattern (s : State) (c : Cause) : (enterViolation c s).pattern = s.pattern := rfl
@[simp] theorem enterViolation_seq (s : State) (c : Cause) : (enterViolation c s).seq = s.seq := rfl
@[simp] theorem enterViolation_off (s : State) (c : Cause) : (enterViolation c s).off = s.off := rfl
@[simp] theorem enterViolation_msgcur (s : State) (c : Cause) : (enterViolation c s).msgcur = s.msgcur := rfl
@[simp] theorem enterViolation_lastw (s : State) (c : Cause) : (enterViolation c s).lastw = s.lastw := rfl
@[simp] theorem enterViolation_paydone (s : State) (c : Cause) : (enterViolation c s).paydone = s.paydone := rfl
@[simp] theorem enterViolation_kS (s : State) (c : Cause) : (enterViolation c s).kS = none := rfl
@[simp] theorem enterViolation_kE (s : State) (c : Cause) : (enterViolation c s).kE = none := rfl
@[simp] theorem enterViolation_kRS (s : State) (c : Cause) : (enterViolation c s).kRS = s.kRS := rfl
@[simp] theorem enterViolation_kRE (s : State) (c : Cause) : (enterViolation c s).kRE = s.kRE := rfl
@[simp] theorem enterViolation_kPSK (s : State) (c : Cause) : (enterViolation c s).kPSK = none := rfl
@[simp] theorem enterViolation_tcValid (s : State) (c : Cause) : (enterViolation c s).tcValid = false := rfl
@[simp] theorem enterViolation_tcAborted (s : State) (c : Cause) : (enterViolation c s).tcAborted = s.tcAborted := rfl
@[simp] theorem enterViolation_snonce (s : State) (c : Cause) : (enterViolation c s).snonce = s.snonce := rfl
@[simp] theorem enterViolation_rnonce (s : State) (c : Cause) : (enterViolation c s).rnonce = s.rnonce := rfl
@[simp] theorem enterViolation_phb (s : State) (c : Cause) : (enterViolation c s).phb = [] := rfl
@[simp] theorem enterViolation_phCnt (s : State) (c : Cause) : (enterViolation c s).phCnt = 0 := rfl
@[simp] theorem enterViolation_phT (s : State) (c : Cause) : (enterViolation c s).phT = 0 := rfl
@[simp] theorem enterViolation_phM (s : State) (c : Cause) : (enterViolation c s).phM = 0 := rfl
@[simp] theorem enterViolation_phL (s : State) (c : Cause) : (enterViolation c s).phL = 0 := rfl
@[simp] theorem enterViolation_phJ (s : State) (c : Cause) : (enterViolation c s).phJ = 0 := rfl
@[simp] theorem enterViolation_digest (s : State) (c : Cause) : (enterViolation c s).digest = s.digest := rfl
@[simp] theorem enterViolation_dho (s : State) (c : Cause) : (enterViolation c s).dho = Key.zero := rfl
@[simp] theorem enterViolation_rk (s : State) (c : Cause) : (enterViolation c s).rk = Key.zero := rfl
@[simp] theorem enterViolation_tagx (s : State) (c : Cause) : (enterViolation c s).tagx = Tag.zero := rfl
@[simp] theorem enterViolation_ptx (s : State) (c : Cause) : (enterViolation c s).ptx = [] := rfl
@[simp] theorem enterViolation_fatal (s : State) (c : Cause) : (enterViolation c s).fatal = true := rfl
@[simp] theorem enterViolation_cv (s : State) (c : Cause) : (enterViolation c s).cv = c := rfl
@[simp] theorem enterViolation_err (s : State) (c : Cause) : (enterViolation c s).err = .contractViolation := rfl
@[simp] theorem enterViolation_p0 (s : State) (c : Cause) : (enterViolation c s).p0 = s.p0 := rfl
@[simp] theorem enterViolation_p1 (s : State) (c : Cause) : (enterViolation c s).p1 = s.p1 := rfl
@[simp] theorem enterViolation_msg (s : State) (c : Cause) : (enterViolation c s).msg = s.msg := rfl
@[simp] theorem enterViolation_dat (s : State) (c : Cause) : (enterViolation c s).dat = [] := rfl
@[simp] theorem enterViolation_ad (s : State) (c : Cause) : (enterViolation c s).ad = s.ad := rfl
@[simp] theorem enterViolation_op (s : State) (c : Cause) : (enterViolation c s).op = Operands.zero := rfl
@[simp] theorem enterViolation_res (s : State) (c : Cause) : (enterViolation c s).res = [] := rfl
@[simp] theorem enterViolation_inbox (s : State) (c : Cause) : (enterViolation c s).inbox = s.inbox := rfl
@[simp] theorem enterViolation_freeCtr (s : State) (c : Cause) : (enterViolation c s).freeCtr = s.freeCtr := rfl

/-! ### A refused word -/

@[simp] theorem refuseFatal_ctxT (s : State) : (refuseFatal s).ctxT = s.ctxT := rfl
@[simp] theorem refuseFatal_ctxS (s : State) : (refuseFatal s).ctxS = s.ctxS := rfl
@[simp] theorem refuseFatal_ctxR (s : State) : (refuseFatal s).ctxR = s.ctxR := rfl
@[simp] theorem refuseFatal_ctxX (s : State) : (refuseFatal s).ctxX = s.ctxX := rfl
@[simp] theorem refuseFatal_keyed (s : State) : (refuseFatal s).keyed = s.keyed := rfl
@[simp] theorem refuseFatal_phase (s : State) : (refuseFatal s).phase = s.phase := rfl
@[simp] theorem refuseFatal_role (s : State) : (refuseFatal s).role = s.role := rfl
@[simp] theorem refuseFatal_pattern (s : State) : (refuseFatal s).pattern = s.pattern := rfl
@[simp] theorem refuseFatal_seq (s : State) : (refuseFatal s).seq = s.seq := rfl
@[simp] theorem refuseFatal_off (s : State) : (refuseFatal s).off = s.off := rfl
@[simp] theorem refuseFatal_msgcur (s : State) : (refuseFatal s).msgcur = s.msgcur := rfl
@[simp] theorem refuseFatal_lastw (s : State) : (refuseFatal s).lastw = s.lastw := rfl
@[simp] theorem refuseFatal_paydone (s : State) : (refuseFatal s).paydone = s.paydone := rfl
@[simp] theorem refuseFatal_kS (s : State) : (refuseFatal s).kS = s.kS := rfl
@[simp] theorem refuseFatal_kE (s : State) : (refuseFatal s).kE = s.kE := rfl
@[simp] theorem refuseFatal_kRS (s : State) : (refuseFatal s).kRS = s.kRS := rfl
@[simp] theorem refuseFatal_kRE (s : State) : (refuseFatal s).kRE = s.kRE := rfl
@[simp] theorem refuseFatal_kPSK (s : State) : (refuseFatal s).kPSK = s.kPSK := rfl
@[simp] theorem refuseFatal_tcValid (s : State) : (refuseFatal s).tcValid = s.tcValid := rfl
@[simp] theorem refuseFatal_tcAborted (s : State) : (refuseFatal s).tcAborted = s.tcAborted := rfl
@[simp] theorem refuseFatal_snonce (s : State) : (refuseFatal s).snonce = s.snonce := rfl
@[simp] theorem refuseFatal_rnonce (s : State) : (refuseFatal s).rnonce = s.rnonce := rfl
@[simp] theorem refuseFatal_phb (s : State) : (refuseFatal s).phb = s.phb := rfl
@[simp] theorem refuseFatal_phCnt (s : State) : (refuseFatal s).phCnt = s.phCnt := rfl
@[simp] theorem refuseFatal_phT (s : State) : (refuseFatal s).phT = s.phT := rfl
@[simp] theorem refuseFatal_phM (s : State) : (refuseFatal s).phM = s.phM := rfl
@[simp] theorem refuseFatal_phL (s : State) : (refuseFatal s).phL = s.phL := rfl
@[simp] theorem refuseFatal_phJ (s : State) : (refuseFatal s).phJ = s.phJ := rfl
@[simp] theorem refuseFatal_digest (s : State) : (refuseFatal s).digest = s.digest := rfl
@[simp] theorem refuseFatal_dho (s : State) : (refuseFatal s).dho = s.dho := rfl
@[simp] theorem refuseFatal_rk (s : State) : (refuseFatal s).rk = s.rk := rfl
@[simp] theorem refuseFatal_tagx (s : State) : (refuseFatal s).tagx = s.tagx := rfl
@[simp] theorem refuseFatal_ptx (s : State) : (refuseFatal s).ptx = s.ptx := rfl
@[simp] theorem refuseFatal_fatal (s : State) : (refuseFatal s).fatal = s.fatal := rfl
@[simp] theorem refuseFatal_cv (s : State) : (refuseFatal s).cv = s.cv := rfl
@[simp] theorem refuseFatal_err (s : State) : (refuseFatal s).err = .contractViolation := rfl
@[simp] theorem refuseFatal_p0 (s : State) : (refuseFatal s).p0 = s.p0 := rfl
@[simp] theorem refuseFatal_p1 (s : State) : (refuseFatal s).p1 = s.p1 := rfl
@[simp] theorem refuseFatal_msg (s : State) : (refuseFatal s).msg = s.msg := rfl
@[simp] theorem refuseFatal_dat (s : State) : (refuseFatal s).dat = s.dat := rfl
@[simp] theorem refuseFatal_ad (s : State) : (refuseFatal s).ad = s.ad := rfl
@[simp] theorem refuseFatal_op (s : State) : (refuseFatal s).op = s.op := rfl
@[simp] theorem refuseFatal_res (s : State) : (refuseFatal s).res = s.res := rfl
@[simp] theorem refuseFatal_inbox (s : State) : (refuseFatal s).inbox = s.inbox := rfl
@[simp] theorem refuseFatal_freeCtr (s : State) : (refuseFatal s).freeCtr = s.freeCtr := rfl

/-! ### A failed handshake command -/

@[simp] theorem hsFail_ctxT (s : State) (w : Bool) : (hsFail w s).ctxT = none := rfl
@[simp] theorem hsFail_ctxS (s : State) (w : Bool) : (hsFail w s).ctxS = s.ctxS := rfl
@[simp] theorem hsFail_ctxR (s : State) (w : Bool) : (hsFail w s).ctxR = s.ctxR := rfl
@[simp] theorem hsFail_ctxX (s : State) (w : Bool) : (hsFail w s).ctxX = s.ctxX := rfl
@[simp] theorem hsFail_keyed (s : State) (w : Bool) : (hsFail w s).keyed = false := rfl
@[simp] theorem hsFail_phase (s : State) (w : Bool) : (hsFail w s).phase = .failed := rfl
@[simp] theorem hsFail_role (s : State) (w : Bool) : (hsFail w s).role = s.role := rfl
@[simp] theorem hsFail_pattern (s : State) (w : Bool) : (hsFail w s).pattern = s.pattern := rfl
@[simp] theorem hsFail_seq (s : State) (w : Bool) : (hsFail w s).seq = s.seq := rfl
@[simp] theorem hsFail_off (s : State) (w : Bool) : (hsFail w s).off = s.off := rfl
@[simp] theorem hsFail_msgcur (s : State) (w : Bool) : (hsFail w s).msgcur = s.msgcur := rfl
@[simp] theorem hsFail_lastw (s : State) (w : Bool) : (hsFail w s).lastw = s.lastw := rfl
@[simp] theorem hsFail_paydone (s : State) (w : Bool) : (hsFail w s).paydone = s.paydone := rfl
@[simp] theorem hsFail_kS (s : State) (w : Bool) : (hsFail w s).kS = none := rfl
@[simp] theorem hsFail_kE (s : State) (w : Bool) : (hsFail w s).kE = none := rfl
@[simp] theorem hsFail_kRS (s : State) (w : Bool) : (hsFail w s).kRS = s.kRS := rfl
@[simp] theorem hsFail_kRE (s : State) (w : Bool) : (hsFail w s).kRE = s.kRE := rfl
@[simp] theorem hsFail_kPSK (s : State) (w : Bool) : (hsFail w s).kPSK = none := rfl
@[simp] theorem hsFail_tcValid (s : State) (w : Bool) : (hsFail w s).tcValid = s.tcValid := rfl
@[simp] theorem hsFail_tcAborted (s : State) (w : Bool) : (hsFail w s).tcAborted = s.tcAborted := rfl
@[simp] theorem hsFail_snonce (s : State) (w : Bool) : (hsFail w s).snonce = s.snonce := rfl
@[simp] theorem hsFail_rnonce (s : State) (w : Bool) : (hsFail w s).rnonce = s.rnonce := rfl
@[simp] theorem hsFail_phb (s : State) (w : Bool) : (hsFail w s).phb = s.phb := rfl
@[simp] theorem hsFail_phCnt (s : State) (w : Bool) : (hsFail w s).phCnt = s.phCnt := rfl
@[simp] theorem hsFail_phT (s : State) (w : Bool) : (hsFail w s).phT = s.phT := rfl
@[simp] theorem hsFail_phM (s : State) (w : Bool) : (hsFail w s).phM = s.phM := rfl
@[simp] theorem hsFail_phL (s : State) (w : Bool) : (hsFail w s).phL = s.phL := rfl
@[simp] theorem hsFail_phJ (s : State) (w : Bool) : (hsFail w s).phJ = s.phJ := rfl
@[simp] theorem hsFail_digest (s : State) (w : Bool) : (hsFail w s).digest = s.digest := rfl
@[simp] theorem hsFail_dho (s : State) (w : Bool) : (hsFail w s).dho = Key.zero := rfl
@[simp] theorem hsFail_rk (s : State) (w : Bool) : (hsFail w s).rk = s.rk := rfl
@[simp] theorem hsFail_tagx (s : State) (w : Bool) : (hsFail w s).tagx = Tag.zero := rfl
@[simp] theorem hsFail_ptx (s : State) (w : Bool) : (hsFail w s).ptx = [] := rfl
@[simp] theorem hsFail_fatal (s : State) (w : Bool) : (hsFail w s).fatal = s.fatal := rfl
@[simp] theorem hsFail_cv (s : State) (w : Bool) : (hsFail w s).cv = s.cv := rfl
@[simp] theorem hsFail_err (s : State) (w : Bool) : (hsFail w s).err = s.err := rfl
@[simp] theorem hsFail_p0 (s : State) (w : Bool) : (hsFail w s).p0 = s.p0 := rfl
@[simp] theorem hsFail_p1 (s : State) (w : Bool) : (hsFail w s).p1 = s.p1 := rfl
@[simp] theorem hsFail_msg (s : State) (w : Bool) : (hsFail w s).msg = if w then [] else s.msg := rfl
@[simp] theorem hsFail_dat (s : State) (w : Bool) : (hsFail w s).dat = [] := rfl
@[simp] theorem hsFail_ad (s : State) (w : Bool) : (hsFail w s).ad = s.ad := rfl
@[simp] theorem hsFail_op (s : State) (w : Bool) : (hsFail w s).op = s.op := rfl
@[simp] theorem hsFail_res (s : State) (w : Bool) : (hsFail w s).res = s.res := rfl
@[simp] theorem hsFail_inbox (s : State) (w : Bool) : (hsFail w s).inbox = s.inbox := rfl
@[simp] theorem hsFail_freeCtr (s : State) (w : Bool) : (hsFail w s).freeCtr = s.freeCtr := rfl

/-! ### RESET -/

@[simp] theorem resetState_ctxT (s : State) : (resetState s).ctxT = State.reset.ctxT := rfl
@[simp] theorem resetState_ctxS (s : State) : (resetState s).ctxS = State.reset.ctxS := rfl
@[simp] theorem resetState_ctxR (s : State) : (resetState s).ctxR = State.reset.ctxR := rfl
@[simp] theorem resetState_ctxX (s : State) : (resetState s).ctxX = State.reset.ctxX := rfl
@[simp] theorem resetState_keyed (s : State) : (resetState s).keyed = State.reset.keyed := rfl
@[simp] theorem resetState_phase (s : State) : (resetState s).phase = State.reset.phase := rfl
@[simp] theorem resetState_role (s : State) : (resetState s).role = State.reset.role := rfl
@[simp] theorem resetState_pattern (s : State) : (resetState s).pattern = State.reset.pattern := rfl
@[simp] theorem resetState_seq (s : State) : (resetState s).seq = State.reset.seq := rfl
@[simp] theorem resetState_off (s : State) : (resetState s).off = State.reset.off := rfl
@[simp] theorem resetState_msgcur (s : State) : (resetState s).msgcur = State.reset.msgcur := rfl
@[simp] theorem resetState_lastw (s : State) : (resetState s).lastw = State.reset.lastw := rfl
@[simp] theorem resetState_paydone (s : State) : (resetState s).paydone = State.reset.paydone := rfl
@[simp] theorem resetState_kS (s : State) : (resetState s).kS = State.reset.kS := rfl
@[simp] theorem resetState_kE (s : State) : (resetState s).kE = State.reset.kE := rfl
@[simp] theorem resetState_kRS (s : State) : (resetState s).kRS = State.reset.kRS := rfl
@[simp] theorem resetState_kRE (s : State) : (resetState s).kRE = State.reset.kRE := rfl
@[simp] theorem resetState_kPSK (s : State) : (resetState s).kPSK = State.reset.kPSK := rfl
@[simp] theorem resetState_tcValid (s : State) : (resetState s).tcValid = State.reset.tcValid := rfl
@[simp] theorem resetState_tcAborted (s : State) : (resetState s).tcAborted = State.reset.tcAborted := rfl
@[simp] theorem resetState_snonce (s : State) : (resetState s).snonce = State.reset.snonce := rfl
@[simp] theorem resetState_rnonce (s : State) : (resetState s).rnonce = State.reset.rnonce := rfl
@[simp] theorem resetState_phb (s : State) : (resetState s).phb = State.reset.phb := rfl
@[simp] theorem resetState_phCnt (s : State) : (resetState s).phCnt = State.reset.phCnt := rfl
@[simp] theorem resetState_phT (s : State) : (resetState s).phT = State.reset.phT := rfl
@[simp] theorem resetState_phM (s : State) : (resetState s).phM = State.reset.phM := rfl
@[simp] theorem resetState_phL (s : State) : (resetState s).phL = State.reset.phL := rfl
@[simp] theorem resetState_phJ (s : State) : (resetState s).phJ = State.reset.phJ := rfl
@[simp] theorem resetState_digest (s : State) : (resetState s).digest = State.reset.digest := rfl
@[simp] theorem resetState_dho (s : State) : (resetState s).dho = State.reset.dho := rfl
@[simp] theorem resetState_rk (s : State) : (resetState s).rk = State.reset.rk := rfl
@[simp] theorem resetState_tagx (s : State) : (resetState s).tagx = State.reset.tagx := rfl
@[simp] theorem resetState_ptx (s : State) : (resetState s).ptx = State.reset.ptx := rfl
@[simp] theorem resetState_fatal (s : State) : (resetState s).fatal = State.reset.fatal := rfl
@[simp] theorem resetState_cv (s : State) : (resetState s).cv = State.reset.cv := rfl
@[simp] theorem resetState_err (s : State) : (resetState s).err = State.reset.err := rfl
@[simp] theorem resetState_p0 (s : State) : (resetState s).p0 = State.reset.p0 := rfl
@[simp] theorem resetState_p1 (s : State) : (resetState s).p1 = State.reset.p1 := rfl
@[simp] theorem resetState_msg (s : State) : (resetState s).msg = State.reset.msg := rfl
@[simp] theorem resetState_dat (s : State) : (resetState s).dat = State.reset.dat := rfl
@[simp] theorem resetState_ad (s : State) : (resetState s).ad = State.reset.ad := rfl
@[simp] theorem resetState_op (s : State) : (resetState s).op = State.reset.op := rfl
@[simp] theorem resetState_res (s : State) : (resetState s).res = State.reset.res := rfl
@[simp] theorem resetState_inbox (s : State) : (resetState s).inbox = s.inbox := rfl
@[simp] theorem resetState_freeCtr (s : State) : (resetState s).freeCtr = s.freeCtr := rfl

/-! ### The running offset advanced -/

@[simp] theorem advanceOff_ctxT (s : State) (n : BitVec 16) : (advanceOff n s).ctxT = s.ctxT := rfl
@[simp] theorem advanceOff_ctxS (s : State) (n : BitVec 16) : (advanceOff n s).ctxS = s.ctxS := rfl
@[simp] theorem advanceOff_ctxR (s : State) (n : BitVec 16) : (advanceOff n s).ctxR = s.ctxR := rfl
@[simp] theorem advanceOff_ctxX (s : State) (n : BitVec 16) : (advanceOff n s).ctxX = s.ctxX := rfl
@[simp] theorem advanceOff_keyed (s : State) (n : BitVec 16) : (advanceOff n s).keyed = s.keyed := rfl
@[simp] theorem advanceOff_phase (s : State) (n : BitVec 16) : (advanceOff n s).phase = s.phase := rfl
@[simp] theorem advanceOff_role (s : State) (n : BitVec 16) : (advanceOff n s).role = s.role := rfl
@[simp] theorem advanceOff_pattern (s : State) (n : BitVec 16) : (advanceOff n s).pattern = s.pattern := rfl
@[simp] theorem advanceOff_seq (s : State) (n : BitVec 16) : (advanceOff n s).seq = s.seq := rfl
@[simp] theorem advanceOff_off (s : State) (n : BitVec 16) : (advanceOff n s).off = s.off := rfl
@[simp] theorem advanceOff_msgcur (s : State) (n : BitVec 16) : (advanceOff n s).msgcur = s.msgcur := rfl
@[simp] theorem advanceOff_lastw (s : State) (n : BitVec 16) : (advanceOff n s).lastw = s.lastw := rfl
@[simp] theorem advanceOff_paydone (s : State) (n : BitVec 16) : (advanceOff n s).paydone = s.paydone := rfl
@[simp] theorem advanceOff_kS (s : State) (n : BitVec 16) : (advanceOff n s).kS = s.kS := rfl
@[simp] theorem advanceOff_kE (s : State) (n : BitVec 16) : (advanceOff n s).kE = s.kE := rfl
@[simp] theorem advanceOff_kRS (s : State) (n : BitVec 16) : (advanceOff n s).kRS = s.kRS := rfl
@[simp] theorem advanceOff_kRE (s : State) (n : BitVec 16) : (advanceOff n s).kRE = s.kRE := rfl
@[simp] theorem advanceOff_kPSK (s : State) (n : BitVec 16) : (advanceOff n s).kPSK = s.kPSK := rfl
@[simp] theorem advanceOff_tcValid (s : State) (n : BitVec 16) : (advanceOff n s).tcValid = s.tcValid := rfl
@[simp] theorem advanceOff_tcAborted (s : State) (n : BitVec 16) : (advanceOff n s).tcAborted = s.tcAborted := rfl
@[simp] theorem advanceOff_snonce (s : State) (n : BitVec 16) : (advanceOff n s).snonce = s.snonce := rfl
@[simp] theorem advanceOff_rnonce (s : State) (n : BitVec 16) : (advanceOff n s).rnonce = s.rnonce := rfl
@[simp] theorem advanceOff_phb (s : State) (n : BitVec 16) : (advanceOff n s).phb = s.phb := rfl
@[simp] theorem advanceOff_phCnt (s : State) (n : BitVec 16) : (advanceOff n s).phCnt = s.phCnt := rfl
@[simp] theorem advanceOff_phT (s : State) (n : BitVec 16) : (advanceOff n s).phT = s.phT := rfl
@[simp] theorem advanceOff_phM (s : State) (n : BitVec 16) : (advanceOff n s).phM = s.phM := rfl
@[simp] theorem advanceOff_phL (s : State) (n : BitVec 16) : (advanceOff n s).phL = s.phL := rfl
@[simp] theorem advanceOff_phJ (s : State) (n : BitVec 16) : (advanceOff n s).phJ = s.phJ := rfl
@[simp] theorem advanceOff_digest (s : State) (n : BitVec 16) : (advanceOff n s).digest = s.digest := rfl
@[simp] theorem advanceOff_dho (s : State) (n : BitVec 16) : (advanceOff n s).dho = s.dho := rfl
@[simp] theorem advanceOff_rk (s : State) (n : BitVec 16) : (advanceOff n s).rk = s.rk := rfl
@[simp] theorem advanceOff_tagx (s : State) (n : BitVec 16) : (advanceOff n s).tagx = s.tagx := rfl
@[simp] theorem advanceOff_ptx (s : State) (n : BitVec 16) : (advanceOff n s).ptx = s.ptx := rfl
@[simp] theorem advanceOff_fatal (s : State) (n : BitVec 16) : (advanceOff n s).fatal = s.fatal := rfl
@[simp] theorem advanceOff_cv (s : State) (n : BitVec 16) : (advanceOff n s).cv = s.cv := rfl
@[simp] theorem advanceOff_err (s : State) (n : BitVec 16) : (advanceOff n s).err = s.err := rfl
@[simp] theorem advanceOff_p0 (s : State) (n : BitVec 16) : (advanceOff n s).p0 = s.p0 := rfl
@[simp] theorem advanceOff_p1 (s : State) (n : BitVec 16) : (advanceOff n s).p1 = s.p1 := rfl
@[simp] theorem advanceOff_msg (s : State) (n : BitVec 16) : (advanceOff n s).msg = s.msg := rfl
@[simp] theorem advanceOff_dat (s : State) (n : BitVec 16) : (advanceOff n s).dat = s.dat := rfl
@[simp] theorem advanceOff_ad (s : State) (n : BitVec 16) : (advanceOff n s).ad = s.ad := rfl
@[simp] theorem advanceOff_op (s : State) (n : BitVec 16) : (advanceOff n s).op = { s.op with off := s.op.off + n } := rfl
@[simp] theorem advanceOff_res (s : State) (n : BitVec 16) : (advanceOff n s).res = s.res := rfl
@[simp] theorem advanceOff_inbox (s : State) (n : BitVec 16) : (advanceOff n s).inbox = s.inbox := rfl
@[simp] theorem advanceOff_freeCtr (s : State) (n : BitVec 16) : (advanceOff n s).freeCtr = s.freeCtr := rfl

/-! ### MemWrite -/

@[simp] theorem memWrite_ctxT (s : State) (b : Buf) (a : Nat) (data : Bytes) : (memWrite b a data s).ctxT = s.ctxT := by cases b <;> rfl
@[simp] theorem memWrite_ctxS (s : State) (b : Buf) (a : Nat) (data : Bytes) : (memWrite b a data s).ctxS = s.ctxS := by cases b <;> rfl
@[simp] theorem memWrite_ctxR (s : State) (b : Buf) (a : Nat) (data : Bytes) : (memWrite b a data s).ctxR = s.ctxR := by cases b <;> rfl
@[simp] theorem memWrite_ctxX (s : State) (b : Buf) (a : Nat) (data : Bytes) : (memWrite b a data s).ctxX = s.ctxX := by cases b <;> rfl
@[simp] theorem memWrite_keyed (s : State) (b : Buf) (a : Nat) (data : Bytes) : (memWrite b a data s).keyed = s.keyed := by cases b <;> rfl
@[simp] theorem memWrite_phase (s : State) (b : Buf) (a : Nat) (data : Bytes) : (memWrite b a data s).phase = s.phase := by cases b <;> rfl
@[simp] theorem memWrite_role (s : State) (b : Buf) (a : Nat) (data : Bytes) : (memWrite b a data s).role = s.role := by cases b <;> rfl
@[simp] theorem memWrite_pattern (s : State) (b : Buf) (a : Nat) (data : Bytes) : (memWrite b a data s).pattern = s.pattern := by cases b <;> rfl
@[simp] theorem memWrite_seq (s : State) (b : Buf) (a : Nat) (data : Bytes) : (memWrite b a data s).seq = s.seq := by cases b <;> rfl
@[simp] theorem memWrite_off (s : State) (b : Buf) (a : Nat) (data : Bytes) : (memWrite b a data s).off = s.off := by cases b <;> rfl
@[simp] theorem memWrite_msgcur (s : State) (b : Buf) (a : Nat) (data : Bytes) : (memWrite b a data s).msgcur = s.msgcur := by cases b <;> rfl
@[simp] theorem memWrite_lastw (s : State) (b : Buf) (a : Nat) (data : Bytes) : (memWrite b a data s).lastw = s.lastw := by cases b <;> rfl
@[simp] theorem memWrite_paydone (s : State) (b : Buf) (a : Nat) (data : Bytes) : (memWrite b a data s).paydone = s.paydone := by cases b <;> rfl
@[simp] theorem memWrite_kS (s : State) (b : Buf) (a : Nat) (data : Bytes) : (memWrite b a data s).kS = s.kS := by cases b <;> rfl
@[simp] theorem memWrite_kE (s : State) (b : Buf) (a : Nat) (data : Bytes) : (memWrite b a data s).kE = s.kE := by cases b <;> rfl
@[simp] theorem memWrite_kRS (s : State) (b : Buf) (a : Nat) (data : Bytes) : (memWrite b a data s).kRS = s.kRS := by cases b <;> rfl
@[simp] theorem memWrite_kRE (s : State) (b : Buf) (a : Nat) (data : Bytes) : (memWrite b a data s).kRE = s.kRE := by cases b <;> rfl
@[simp] theorem memWrite_kPSK (s : State) (b : Buf) (a : Nat) (data : Bytes) : (memWrite b a data s).kPSK = s.kPSK := by cases b <;> rfl
@[simp] theorem memWrite_tcValid (s : State) (b : Buf) (a : Nat) (data : Bytes) : (memWrite b a data s).tcValid = s.tcValid := by cases b <;> rfl
@[simp] theorem memWrite_tcAborted (s : State) (b : Buf) (a : Nat) (data : Bytes) : (memWrite b a data s).tcAborted = s.tcAborted := by cases b <;> rfl
@[simp] theorem memWrite_snonce (s : State) (b : Buf) (a : Nat) (data : Bytes) : (memWrite b a data s).snonce = s.snonce := by cases b <;> rfl
@[simp] theorem memWrite_rnonce (s : State) (b : Buf) (a : Nat) (data : Bytes) : (memWrite b a data s).rnonce = s.rnonce := by cases b <;> rfl
@[simp] theorem memWrite_phb (s : State) (b : Buf) (a : Nat) (data : Bytes) : (memWrite b a data s).phb = s.phb := by cases b <;> rfl
@[simp] theorem memWrite_phCnt (s : State) (b : Buf) (a : Nat) (data : Bytes) : (memWrite b a data s).phCnt = s.phCnt := by cases b <;> rfl
@[simp] theorem memWrite_phT (s : State) (b : Buf) (a : Nat) (data : Bytes) : (memWrite b a data s).phT = s.phT := by cases b <;> rfl
@[simp] theorem memWrite_phM (s : State) (b : Buf) (a : Nat) (data : Bytes) : (memWrite b a data s).phM = s.phM := by cases b <;> rfl
@[simp] theorem memWrite_phL (s : State) (b : Buf) (a : Nat) (data : Bytes) : (memWrite b a data s).phL = s.phL := by cases b <;> rfl
@[simp] theorem memWrite_phJ (s : State) (b : Buf) (a : Nat) (data : Bytes) : (memWrite b a data s).phJ = s.phJ := by cases b <;> rfl
@[simp] theorem memWrite_digest (s : State) (b : Buf) (a : Nat) (data : Bytes) : (memWrite b a data s).digest = s.digest := by cases b <;> rfl
@[simp] theorem memWrite_dho (s : State) (b : Buf) (a : Nat) (data : Bytes) : (memWrite b a data s).dho = s.dho := by cases b <;> rfl
@[simp] theorem memWrite_rk (s : State) (b : Buf) (a : Nat) (data : Bytes) : (memWrite b a data s).rk = s.rk := by cases b <;> rfl
@[simp] theorem memWrite_tagx (s : State) (b : Buf) (a : Nat) (data : Bytes) : (memWrite b a data s).tagx = s.tagx := by cases b <;> rfl
@[simp] theorem memWrite_ptx (s : State) (b : Buf) (a : Nat) (data : Bytes) : (memWrite b a data s).ptx = s.ptx := by cases b <;> rfl
@[simp] theorem memWrite_fatal (s : State) (b : Buf) (a : Nat) (data : Bytes) : (memWrite b a data s).fatal = s.fatal := by cases b <;> rfl
@[simp] theorem memWrite_cv (s : State) (b : Buf) (a : Nat) (data : Bytes) : (memWrite b a data s).cv = s.cv := by cases b <;> rfl
@[simp] theorem memWrite_err (s : State) (b : Buf) (a : Nat) (data : Bytes) : (memWrite b a data s).err = s.err := by cases b <;> rfl
@[simp] theorem memWrite_p0 (s : State) (b : Buf) (a : Nat) (data : Bytes) : (memWrite b a data s).p0 = s.p0 := by cases b <;> rfl
@[simp] theorem memWrite_p1 (s : State) (b : Buf) (a : Nat) (data : Bytes) : (memWrite b a data s).p1 = s.p1 := by cases b <;> rfl
@[simp] theorem memWrite_op (s : State) (b : Buf) (a : Nat) (data : Bytes) : (memWrite b a data s).op = s.op := by cases b <;> rfl
@[simp] theorem memWrite_res (s : State) (b : Buf) (a : Nat) (data : Bytes) : (memWrite b a data s).res = s.res := by cases b <;> rfl
@[simp] theorem memWrite_inbox (s : State) (b : Buf) (a : Nat) (data : Bytes) : (memWrite b a data s).inbox = s.inbox := by cases b <;> rfl

/-! ### MemRead -/

@[simp] theorem memRead_ctxT (s : State) (b : Buf) (a n : Nat) : ((memRead b a n s).2).ctxT = s.ctxT := rfl
@[simp] theorem memRead_ctxS (s : State) (b : Buf) (a n : Nat) : ((memRead b a n s).2).ctxS = s.ctxS := rfl
@[simp] theorem memRead_ctxR (s : State) (b : Buf) (a n : Nat) : ((memRead b a n s).2).ctxR = s.ctxR := rfl
@[simp] theorem memRead_ctxX (s : State) (b : Buf) (a n : Nat) : ((memRead b a n s).2).ctxX = s.ctxX := rfl
@[simp] theorem memRead_keyed (s : State) (b : Buf) (a n : Nat) : ((memRead b a n s).2).keyed = s.keyed := rfl
@[simp] theorem memRead_phase (s : State) (b : Buf) (a n : Nat) : ((memRead b a n s).2).phase = s.phase := rfl
@[simp] theorem memRead_role (s : State) (b : Buf) (a n : Nat) : ((memRead b a n s).2).role = s.role := rfl
@[simp] theorem memRead_pattern (s : State) (b : Buf) (a n : Nat) : ((memRead b a n s).2).pattern = s.pattern := rfl
@[simp] theorem memRead_seq (s : State) (b : Buf) (a n : Nat) : ((memRead b a n s).2).seq = s.seq := rfl
@[simp] theorem memRead_off (s : State) (b : Buf) (a n : Nat) : ((memRead b a n s).2).off = s.off := rfl
@[simp] theorem memRead_msgcur (s : State) (b : Buf) (a n : Nat) : ((memRead b a n s).2).msgcur = s.msgcur := rfl
@[simp] theorem memRead_lastw (s : State) (b : Buf) (a n : Nat) : ((memRead b a n s).2).lastw = s.lastw := rfl
@[simp] theorem memRead_paydone (s : State) (b : Buf) (a n : Nat) : ((memRead b a n s).2).paydone = s.paydone := rfl
@[simp] theorem memRead_kS (s : State) (b : Buf) (a n : Nat) : ((memRead b a n s).2).kS = s.kS := rfl
@[simp] theorem memRead_kE (s : State) (b : Buf) (a n : Nat) : ((memRead b a n s).2).kE = s.kE := rfl
@[simp] theorem memRead_kRS (s : State) (b : Buf) (a n : Nat) : ((memRead b a n s).2).kRS = s.kRS := rfl
@[simp] theorem memRead_kRE (s : State) (b : Buf) (a n : Nat) : ((memRead b a n s).2).kRE = s.kRE := rfl
@[simp] theorem memRead_kPSK (s : State) (b : Buf) (a n : Nat) : ((memRead b a n s).2).kPSK = s.kPSK := rfl
@[simp] theorem memRead_tcValid (s : State) (b : Buf) (a n : Nat) : ((memRead b a n s).2).tcValid = s.tcValid := rfl
@[simp] theorem memRead_tcAborted (s : State) (b : Buf) (a n : Nat) : ((memRead b a n s).2).tcAborted = s.tcAborted := rfl
@[simp] theorem memRead_snonce (s : State) (b : Buf) (a n : Nat) : ((memRead b a n s).2).snonce = s.snonce := rfl
@[simp] theorem memRead_rnonce (s : State) (b : Buf) (a n : Nat) : ((memRead b a n s).2).rnonce = s.rnonce := rfl
@[simp] theorem memRead_phb (s : State) (b : Buf) (a n : Nat) : ((memRead b a n s).2).phb = s.phb := rfl
@[simp] theorem memRead_phCnt (s : State) (b : Buf) (a n : Nat) : ((memRead b a n s).2).phCnt = s.phCnt := rfl
@[simp] theorem memRead_phT (s : State) (b : Buf) (a n : Nat) : ((memRead b a n s).2).phT = s.phT := rfl
@[simp] theorem memRead_phM (s : State) (b : Buf) (a n : Nat) : ((memRead b a n s).2).phM = s.phM := rfl
@[simp] theorem memRead_phL (s : State) (b : Buf) (a n : Nat) : ((memRead b a n s).2).phL = s.phL := rfl
@[simp] theorem memRead_phJ (s : State) (b : Buf) (a n : Nat) : ((memRead b a n s).2).phJ = s.phJ := rfl
@[simp] theorem memRead_digest (s : State) (b : Buf) (a n : Nat) : ((memRead b a n s).2).digest = s.digest := rfl
@[simp] theorem memRead_dho (s : State) (b : Buf) (a n : Nat) : ((memRead b a n s).2).dho = s.dho := rfl
@[simp] theorem memRead_rk (s : State) (b : Buf) (a n : Nat) : ((memRead b a n s).2).rk = s.rk := rfl
@[simp] theorem memRead_tagx (s : State) (b : Buf) (a n : Nat) : ((memRead b a n s).2).tagx = s.tagx := rfl
@[simp] theorem memRead_ptx (s : State) (b : Buf) (a n : Nat) : ((memRead b a n s).2).ptx = s.ptx := rfl
@[simp] theorem memRead_fatal (s : State) (b : Buf) (a n : Nat) : ((memRead b a n s).2).fatal = s.fatal := rfl
@[simp] theorem memRead_cv (s : State) (b : Buf) (a n : Nat) : ((memRead b a n s).2).cv = s.cv := rfl
@[simp] theorem memRead_err (s : State) (b : Buf) (a n : Nat) : ((memRead b a n s).2).err = s.err := rfl
@[simp] theorem memRead_p0 (s : State) (b : Buf) (a n : Nat) : ((memRead b a n s).2).p0 = s.p0 := rfl
@[simp] theorem memRead_p1 (s : State) (b : Buf) (a n : Nat) : ((memRead b a n s).2).p1 = s.p1 := rfl
@[simp] theorem memRead_msg (s : State) (b : Buf) (a n : Nat) : ((memRead b a n s).2).msg = s.msg := rfl
@[simp] theorem memRead_dat (s : State) (b : Buf) (a n : Nat) : ((memRead b a n s).2).dat = s.dat := rfl
@[simp] theorem memRead_ad (s : State) (b : Buf) (a n : Nat) : ((memRead b a n s).2).ad = s.ad := rfl
@[simp] theorem memRead_op (s : State) (b : Buf) (a n : Nat) : ((memRead b a n s).2).op = s.op := rfl
@[simp] theorem memRead_res (s : State) (b : Buf) (a n : Nat) : ((memRead b a n s).2).res = s.res := rfl
@[simp] theorem memRead_inbox (s : State) (b : Buf) (a n : Nat) : ((memRead b a n s).2).inbox = s.inbox := rfl

end Sys2Proof.Machine
end

