-- ==== Sys2Proof/Laws/Ops.lean ====
section
/-! SUPPORT. What each shared operation does, said once: how pieces of a command follow one another, the threader, the
port operations, the micro-operations, DH. Later proofs cite these instead of unfolding the operations. -/

namespace Sys2Proof.Machine

/-! ### Pieces of a command -/

@[simp] theorem Res.bind_ok {α β : Type} (a : α) (s : State) (f : α → State → Res β) :
    (Res.ok a s).bind f = f a s := rfl
@[simp] theorem Res.bind_err {α β : Type} (e : RtErr) (s : State) (f : α → State → Res β) :
    (Res.err e s : Res α).bind f = .err e s := rfl
@[simp] theorem Res.bind_viol {α β : Type} (c : Cause) (s : State) (f : α → State → Res β) :
    (Res.viol c s : Res α).bind f = .viol c s := rfl
@[simp] theorem Res.map_ok {α β : Type} (f : α → β) (a : α) (s : State) :
    (Res.ok a s).map f = .ok (f a) s := rfl
@[simp] theorem Res.map_err {α β : Type} (f : α → β) (e : RtErr) (s : State) :
    (Res.err e s : Res α).map f = .err e s := rfl
@[simp] theorem Res.map_viol {α β : Type} (f : α → β) (c : Cause) (s : State) :
    (Res.viol c s : Res α).map f = .viol c s := rfl
@[simp] theorem noResult_ok (a : Unit) (s : State) : noResult (.ok a s) = .ok [] s := rfl
@[simp] theorem noResult_err (e : RtErr) (s : State) : noResult (.err e s) = .err e s := rfl
@[simp] theorem noResult_viol (c : Cause) (s : State) : noResult (.viol c s) = .viol c s := rfl

/-- A bind answers ok exactly when both pieces do. -/
theorem Res.bind_eq_ok {α β : Type} {r : Res α} {f : α → State → Res β} {b : β} {t : State} :
    r.bind f = .ok b t ↔ ∃ a s, r = .ok a s ∧ f a s = .ok b t := by
  cases r <;> simp

/-- A bind raises an error exactly when one of its pieces does. -/
theorem Res.bind_eq_err {α β : Type} {r : Res α} {f : α → State → Res β} {e : RtErr} {t : State} :
    r.bind f = .err e t ↔ r = .err e t ∨ ∃ a s, r = .ok a s ∧ f a s = .err e t := by
  cases r <;> simp

/-- A bind ends in a violation exactly when one of its pieces does. -/
theorem Res.bind_eq_viol {α β : Type} {r : Res α} {f : α → State → Res β} {c : Cause} {t : State} :
    r.bind f = .viol c t ↔ r = .viol c t ∨ ∃ a s, r = .ok a s ∧ f a s = .viol c t := by
  cases r <;> simp

theorem Res.bind_assoc {α β γ : Type} (r : Res α) (f : α → State → Res β) (g : β → State → Res γ) :
    (r.bind f).bind g = r.bind fun a s => (f a s).bind g := by
  cases r <;> rfl

/-- `require` of a condition that holds goes on in the same state. -/
theorem require_of {c : Prop} [Decidable c] (h : c) (v : Cause) (s : State) :
    require c v s = .ok () s := if_pos h

/-- `require` of a condition that fails is the violation, in the same state. -/
theorem require_of_not {c : Prop} [Decidable c] (h : ¬ c) (v : Cause) (s : State) :
    require c v s = .viol v s := if_neg h

/-- `require` answers ok exactly when the condition holds, in the same state. -/
@[simp] theorem require_eq_ok {c : Prop} [Decidable c] {v : Cause} {s t : State} {u : Unit} :
    require c v s = .ok u t ↔ c ∧ s = t := by
  unfold require; split <;> simp [*]

/-- `require` ends in its violation exactly when the condition fails, in the same state. -/
@[simp] theorem require_eq_viol {c : Prop} [Decidable c] {v v' : Cause} {s t : State} :
    require c v s = .viol v' t ↔ ¬ c ∧ v = v' ∧ s = t := by
  unfold require; split <;> simp [*]

/-- `require` raises no runtime error. -/
@[simp] theorem require_ne_err {c : Prop} [Decidable c] {v : Cause} {e : RtErr} {s t : State} :
    require c v s ≠ .err e t := by
  unfold require; split <;> simp

/-- A counted loop keeps whatever each of its turns keeps, if every turn ends well. -/
theorem forUp_keeps {I : Nat → State → Prop} {n : Nat} {f : Nat → State → Res Unit} {s : State}
    (h0 : I 0 s) (hf : ∀ i s, i < n → I i s → ∃ t, f i s = .ok () t ∧ I (i + 1) t) :
    ∃ t, forUp n f s = .ok () t ∧ I n t := by
  induction n with
  | zero => exact ⟨s, rfl, h0⟩
  | succ n ih =>
    obtain ⟨t, ht, hI⟩ := ih fun i s hi => hf i s (Nat.lt_succ_of_lt hi)
    obtain ⟨u, hu, hIu⟩ := hf n t (Nat.lt_succ_self n) hI
    exact ⟨u, by simp [forUp, ht, hu], hIu⟩

/-- A host command while FATAL = 1 is refused (R148). -/
theorem runCommand_of_fatal {f : State → Res Unit} {s : State} (h : s.fatal = true) :
    runCommand f s = .next (refuseFatal s) := by simp [runCommand, h]

/-- A host command while FATAL = 0 runs to its end. -/
theorem runCommand_of_good {f : State → Res Unit} {s : State} (h : s.fatal = false) :
    runCommand f s = .next (finishCommand (f s)) := by simp [runCommand, h]

/-- An internal operation while FATAL = 1 is not executed. -/
theorem runInternal_of_fatal {f : State → Res Bytes} {s : State} (h : s.fatal = true) :
    runInternal f s = .next (refuseFatal s) := by simp [runInternal, h]

/-- An internal operation while FATAL = 0 runs. -/
theorem runInternal_of_good {f : State → Res Bytes} {s : State} (h : s.fatal = false) :
    runInternal f s = .next (finishInternal (f s)) := by simp [runInternal, h]

@[simp] theorem finishCommand_ok (u : Unit) (s : State) :
    finishCommand (.ok u s) = { s.wipe with err := .ok } := rfl
@[simp] theorem finishCommand_err (e : RtErr) (s : State) :
    finishCommand (.err e s) = { s.wipe with err := e.toErr } := rfl
@[simp] theorem finishCommand_viol (c : Cause) (s : State) :
    finishCommand (.viol c s) = enterViolation c s := rfl
@[simp] theorem finishInternal_ok (b : Bytes) (s : State) :
    finishInternal (.ok b s) = { s with res := b } := rfl
@[simp] theorem finishInternal_err (e : RtErr) (s : State) :
    finishInternal (.err e s) = { s with err := e.toErr } := rfl
@[simp] theorem finishInternal_viol (c : Cause) (s : State) :
    finishInternal (.viol c s) = enterViolation c s := rfl

/-! ### The threader and the sponge port -/

theorem withCtx_of_some {α : Type} {c : Ctx} {s : State} {x : Sponge} (h : s.ctx c = some x)
    (f : Sponge → Res α) : withCtx c s f = f x := by simp [withCtx, h]

theorem withCtx_of_none {α : Type} {c : Ctx} {s : State} (h : s.ctx c = none)
    (f : Sponge → Res α) : withCtx c s f = .viol .seq s := by simp [withCtx, h]

@[simp] theorem spInit_eq (P : Params) (c : Ctx) (id : Bytes) (s : State) :
    spInit P c id s = .ok () (s.setCtx c (some (P.spInit id))) := rfl

@[simp] theorem spLaneseed_eq (P : Params) (c : Ctx) (key : Key) (idb : Byte) (s : State) :
    spLaneseed P c key idb s = .ok () (s.setCtx c (some (P.spLaneseed key idb))) := rfl

theorem spAbsorb_of_some {P : Params} {c : Ctx} {d : Bytes} {s : State} {x : Sponge} (h : s.ctx c = some x) :
    spAbsorb P c d s = .ok () (s.setCtx c (some (P.spAbsorb x d))) := withCtx_of_some h _

theorem spSqueeze_of_some {P : Params} {c : Ctx} {n : Nat} {s : State} {x : Sponge} (h : s.ctx c = some x) :
    spSqueeze P c n s = .ok (P.spSqueeze x n).2 (s.setCtx c (some (P.spSqueeze x n).1)) := withCtx_of_some h _

theorem spEncrypt_of_some {P : Params} {c : Ctx} {d : Bytes} {s : State} {x : Sponge} (h : s.ctx c = some x) :
    spEncrypt P c d s = .ok (P.spEncrypt x d).2 (s.setCtx c (some (P.spEncrypt x d).1)) := withCtx_of_some h _

theorem spDecrypt_of_some {P : Params} {c : Ctx} {d : Bytes} {s : State} {x : Sponge} (h : s.ctx c = some x) :
    spDecrypt P c d s = .ok (P.spDecrypt x d).2 (s.setCtx c (some (P.spDecrypt x d).1)) := withCtx_of_some h _

theorem spRatchet_of_some {P : Params} {c : Ctx} {s : State} {x : Sponge} (h : s.ctx c = some x) :
    spRatchet P c s = .ok () (s.setCtx c (some (P.spRatchet x))) := withCtx_of_some h _

theorem spClone_of_some {c : Ctx} {s : State} {x : Sponge} (h : s.ctx c = some x) :
    spClone c s = .ok () (s.setCtx .X (some x)) := withCtx_of_some h _

/-- A port operation that reads an invalid context is CV_SEQ (R70). -/
theorem port_of_none (P : Params) {c : Ctx} {s : State} (h : s.ctx c = none) (d : Bytes) (n : Nat) :
    spAbsorb P c d s = .viol .seq s ∧ spSqueeze P c n s = .viol .seq s ∧ spEncrypt P c d s = .viol .seq s
      ∧ spDecrypt P c d s = .viol .seq s ∧ spRatchet P c s = .viol .seq s ∧ spClone c s = .viol .seq s :=
  ⟨withCtx_of_none h _, withCtx_of_none h _, withCtx_of_none h _, withCtx_of_none h _, withCtx_of_none h _,
    withCtx_of_none h _⟩

/-! ### Fixed-length byte strings and the tag comparison -/

/-- A byte string of exactly n bytes is kept by `vecOfBytes`. -/
theorem vecOfBytes_toList {n : Nat} {b : Bytes} (h : b.length = n) : (vecOfBytes n b).toList = b := by
  subst h
  simp [vecOfBytes, Vector.toList]

/-- Reading a key back from its own bytes gives the key. -/
@[simp] theorem keyOfBytes_toList (k : Key) : keyOfBytes k.toList = k :=
  Vector.toList_inj.mp (vecOfBytes_toList k.length_toList)

/-- A free-byte string has the length asked for. -/
@[simp] theorem freeBytes_length (k n : Nat) : (freeBytes k n).length = n := by simp [freeBytes]

@[simp] theorem freeBytes_zero (k : Nat) : freeBytes k 0 = [] := rfl

/-- MemRead inside the length is the slice, and changes nothing (R36). -/
theorem memRead_of_le {b : Buf} {a n : Nat} {s : State} (h : a + n ≤ (s.buf b).length) :
    memRead b a n s = (((s.buf b).drop a).take n, s) := by
  have : n - min n ((s.buf b).length - a) = 0 := by omega
  simp [memRead, this]

/-- Whatever MemRead does, it gives as many bytes as asked for. -/
theorem memRead_length (b : Buf) (a n : Nat) (s : State) : (memRead b a n s).1.length = n := by
  simp [memRead]

/-- A write inside or at the end of a byte string has no gap (R36). -/
theorem overwrite_of_le {cur : Bytes} {k a : Nat} {data : Bytes} (h : a ≤ cur.length) :
    overwrite cur k a data = cur.take a ++ data ++ cur.drop (a + data.length) := by
  have : a - cur.length = 0 := by omega
  simp [overwrite, this]

/-- How long a byte string is after a write. -/
theorem overwrite_length (cur : Bytes) (k a : Nat) (data : Bytes) :
    (overwrite cur k a data).length = max cur.length (a + data.length) := by
  simp [overwrite]
  omega

end Sys2Proof.Machine
end

