-- ==== Sys2Proof/Laws/Symmetric.lean ====
section
/-! SUPPORT. What the symmetric-state micro-operations, the writes to memory and the common part of the DH tokens do,
said once. -/

namespace Sys2Proof.Machine

/-- `tag_differs` of two byte strings of one length is inequality (R89). -/
theorem tagDiffers_eq_false {a b : Bytes} (h : a.length = b.length) : tagDiffers a b = false ↔ a = b := by
  have fold : ∀ (a b : Bytes) (d : Byte), a.length = b.length →
      ((List.zipWith (fun x y => x ^^^ y) a b).foldl (fun d x => d ||| x) d = 0 ↔ d = 0 ∧ a = b) := by
    intro a
    induction a with
    | nil => intro b d h; cases b <;> simp_all
    | cons p a ih =>
      intro b d h
      cases b with
      | nil => simp at h
      | cons q b =>
        have : (d ||| (p ^^^ q)) = 0 ↔ d = 0 ∧ p = q := by
          simp [BitVec.or_eq_zero_iff, BitVec.xor_eq_zero_iff]
        simp only [List.zipWith_cons_cons, List.foldl_cons, ih b _ (by simpa using h), this,
          List.cons.injEq, and_assoc]
  simpa [tagDiffers] using fold a b 0 h

/-- The comparison of a received tag with an expected one. -/
theorem tagDiffers_eq {a : Bytes} {t : Tag} (h : a.length = 16) :
    tagDiffers a t.toList = decide (t.toList ≠ a) := by
  by_cases e : t.toList = a
  · rw [(tagDiffers_eq_false (by simp [h])).mpr e.symm]; simp [e]
  · have : tagDiffers a t.toList ≠ false := fun hf => e ((tagDiffers_eq_false (by simp [h])).mp hf).symm
    simp [e, this]

@[simp] theorem ssInit_eq (P : Params) (pid : Bytes) (s : State) :
    ssInit P pid s = .ok () { s with ctxT := some (P.spInit pid), keyed := false } := rfl

theorem ssMixhash_of_some {P : Params} {d : Bytes} {s : State} {x : Sponge} (h : s.ctxT = some x) :
    ssMixhash P d s = .ok () { s with ctxT := some (P.spAbsorb x d) } :=
  spAbsorb_of_some (c := .T) h

theorem ssMixkey_of_some {P : Params} {d : Bytes} {s : State} {x : Sponge} (h : s.ctxT = some x) :
    ssMixkey P d s = .ok () { s with ctxT := some (P.spAbsorb x d), keyed := true } := by
  rw [ssMixkey, spAbsorb_of_some (c := .T) h]; rfl

/-- SS_ENCRYPT of a keyed transcript (R87). -/
theorem ssEncrypt_of_keyed {P : Params} {d : Bytes} {s : State} {x : Sponge} (hk : s.keyed = true)
    (h : s.ctxT = some x) :
    ssEncrypt P d s = .ok ((P.spEncrypt x d).2 ++ (P.spSqueeze (P.spEncrypt x d).1 16).2.toList)
      { s with ctxT := some (P.spSqueeze (P.spEncrypt x d).1 16).1 } := by
  rw [ssEncrypt, require_of hk, Res.bind_ok, spEncrypt_of_some (c := .T) h, Res.bind_ok,
    spSqueeze_of_some (c := .T) (x := (P.spEncrypt x d).1) rfl]
  rfl

/-- Every outcome of SS_ENCRYPT. -/
theorem ssEncrypt_cases (P : Params) (d : Bytes) (s : State) :
    (s.keyed = false ∧ ssEncrypt P d s = .viol .notKeyed s)
      ∨ (s.keyed = true ∧ s.ctxT = none ∧ ssEncrypt P d s = .viol .seq s)
      ∨ ∃ x blk, s.keyed = true ∧ s.ctxT = some x ∧ blk.length = d.length + 16
          ∧ ssEncrypt P d s
            = .ok blk { s with ctxT := some (P.spSqueeze (P.spEncrypt x d).1 16).1 } := by
  rcases Bool.eq_false_or_eq_true s.keyed with hk | hk
  · refine .inr ?_
    rcases h : s.ctxT with _ | x
    · refine .inl ⟨hk, rfl, ?_⟩
      rw [ssEncrypt, require_of hk, Res.bind_ok, spEncrypt, withCtx_of_none (c := .T) h]; rfl
    · refine .inr ⟨x, _, hk, rfl, ?_, (ssEncrypt_of_keyed hk h).trans rfl⟩
      simp [P.spEncrypt_length]
  · exact .inl ⟨hk, by rw [ssEncrypt, require_of_not (by simp [hk])]; rfl⟩

/-- SS_DECRYPT of a keyed transcript, of a string that holds a tag (R88). -/
theorem ssDecrypt_of_keyed {P : Params} {d : Bytes} {s : State} {x : Sponge} (hk : s.keyed = true)
    (h : s.ctxT = some x) (hl : 16 ≤ d.length) :
    ssDecrypt P d s =
      (let c := P.spDecrypt x (d.take (d.length - 16))
       let q := P.spSqueeze c.1 16
       let u := { s with ctxT := some q.1, ptx := [], tagx := Tag.zero }
       if q.2.toList = d.drop (d.length - 16) then .ok c.2 u else .err .messageCorrupted u) := by
  have hd : (d.drop (d.length - 16)).length = 16 := by rw [List.length_drop]; omega
  rw [ssDecrypt, require_of hk, Res.bind_ok, if_neg (by simp only [Config.tagLen]; omega)]
  simp only [Config.tagLen, spDecrypt_of_some (c := .T) h, Res.bind_ok]
  rw [spSqueeze_of_some (c := .T) (x := (P.spDecrypt x (d.take (d.length - 16))).1) rfl, Res.bind_ok]
  simp only [tagDiffers_eq hd]
  split <;> rename_i hq
  · rw [if_neg (by simpa using hq)]; rfl
  · rw [if_pos (by simpa using hq)]; rfl

/-- SS_DECRYPT of a string shorter than a tag (R88). -/
theorem ssDecrypt_of_short {P : Params} {d : Bytes} {s : State} (hk : s.keyed = true) (hl : d.length < 16) :
    ssDecrypt P d s = .err .ciphertextTooShort s := by
  rw [ssDecrypt, require_of hk, Res.bind_ok, if_pos (by simpa [Config.tagLen] using hl)]

/-- SS_DECRYPT without a key (R88). -/
theorem ssDecrypt_of_not_keyed {P : Params} {d : Bytes} {s : State} (hk : s.keyed = false) :
    ssDecrypt P d s = .viol .notKeyed s := by
  rw [ssDecrypt, require_of_not (by simp [hk])]; rfl

/-- SS_ENCRYPT without a key (R87). -/
theorem ssEncrypt_of_not_keyed {P : Params} {d : Bytes} {s : State} (hk : s.keyed = false) :
    ssEncrypt P d s = .viol .notKeyed s := by
  rw [ssEncrypt, require_of_not (by simp [hk])]; rfl

/-- Decrypting what was encrypted gives the plaintext, and the same states after the tag (SP-INV, R69). -/
theorem decrypt_encrypt (P : Params) (x : Sponge) (d : Bytes) :
    P.spDecrypt x (P.spEncrypt x d).2 = ((P.spEncrypt x d).1, d) := P.spDecrypt_spEncrypt x d

/-- The common part of the DH tokens with both slots valid and a valid transcript (R101 to R104). -/
theorem mixDh_of_valid {P : Params} {kp : KpSlot} {pk : PkSlot} {s : State} {a b : Key} {x : Sponge}
    (ha : s.kpVal kp = some a) (hb : s.pkVal pk = some b) (h : s.ctxT = some x) :
    mixDh P kp pk s = (match P.dhCombine a b with
      | some z => .ok () { s with ctxT := some (P.spAbsorb x z.toList), keyed := true, dho := Key.zero }
      | none => .err .dhFailure s) := by
  rw [mixDh]
  simp only [dhCombine, ha, hb]
  cases P.dhCombine a b with
  | none => rfl
  | some z =>
    simp only [Res.bind_ok]
    rw [ssMixkey_of_some (s := { s with dho := z }) h]
    rfl

/-- The common part of the DH tokens with an invalid slot (R81). -/
theorem mixDh_of_invalid {P : Params} {kp : KpSlot} {pk : PkSlot} {s : State}
    (h : s.kpVal kp = none ∨ s.pkVal pk = none) : mixDh P kp pk s = .viol .keySlot s := by
  unfold mixDh dhCombine
  obtain h | h := h <;> rw [h] <;> [skip; cases s.kpVal kp] <;> rfl

/-- A token's write inside the capacity and without a gap (R142). -/
theorem tokenWrite_of_le {b : Bytes} {s : State} (h : s.op.off.toNat + b.length ≤ 65535)
    (hm : s.op.off.toNat ≤ s.msg.length) :
    tokenWrite b s = .ok () { s with
      msg := s.msg.take s.op.off.toNat ++ b ++ s.msg.drop (s.op.off.toNat + b.length) } := by
  rw [tokenWrite, require_of (by simpa [Config.maxMsgLen] using h), Res.bind_ok]
  have : s.op.off.toNat - s.msg.length = 0 := by omega
  simp [memWrite, State.buf, State.setBuf, overwrite_of_le hm, this]

end Sys2Proof.Machine
end

