-- ==== Sys2Proof/Laws/Commands.lean ====
section
/-! SUPPORT. Every outcome of each command body, said once: the check that failed and the untouched state, or the end
state. Statements over all commands cite these instead of unfolding the bodies. -/

namespace Sys2Proof.Machine

/-- `hs_phasecheck` of an active handshake (R92). -/
theorem hsPhaseCheck_active {s : State} (h : s.phase = .active) : hsPhaseCheck s = .ok () s := by simp [hsPhaseCheck, h]

/-- Pattern codes and names (R55). -/
theorem Pattern.ofCode_code (p : Pattern) : Pattern.ofCode p.code = some p := by cases p <;> rfl
/-- A reserved pattern code names no pattern (R55). -/
theorem Pattern.ofCode_of_reserved {c : BitVec 4} (h : 8 < c.toNat) : Pattern.ofCode c = none := by
  unfold Pattern.ofCode; split <;> first | rfl | omega

/-- Every outcome of HS_INIT (R95). -/
theorem hsInit_cases (P : Params) (pat : BitVec 4) (role : Role) (s : State) :
   (hsInit P pat role s = .viol .illegal s ∧ 8 < pat.toNat) ∨ (∃ p : Pattern, p.code = pat
    ∧ slotsValid (need p role) s = false ∧ hsInit P pat role s = .viol .keySlot s)
   ∨ (∃ p : Pattern, p.code = pat ∧ slotsValid (need p role) s = true
    ∧ hsInit P pat role s = .ok () { hsInitControl p role s with ctxT := some (P.spInit (protocolId p)), keyed := false, phase := .active }) := by
  by_cases h : 8 < pat.toNat
  · exact .inl ⟨by simp [hsInit, Pattern.ofCode_of_reserved h], h⟩
  have : ∃ p : Pattern, p.code = pat := by
    have : ∀ c : BitVec 4, c.toNat ≤ 8 → ∃ p : Pattern, p.code = c := by
      intro c hc
      have e : c = BitVec.ofNat 4 c.toNat := by simp
      generalize c.toNat = n at *
      subst e
      interval_cases n
      exacts [⟨.K, rfl⟩, ⟨.N, rfl⟩, ⟨.X, rfl⟩, ⟨.NNpsk2, rfl⟩, ⟨.KK, rfl⟩, ⟨.NK, rfl⟩, ⟨.NX, rfl⟩, ⟨.XX, rfl⟩, ⟨.IK, rfl⟩]
    exact this pat (by omega)
  obtain ⟨p, hp⟩ := this
  cases hs : slotsValid (need p role) s with
  | false => exact .inr (.inl ⟨p, hp, hs, by simp [hsInit, ← hp, Pattern.ofCode_code, require, hs]⟩)
  | true => exact .inr (.inr ⟨p, hp, hs, by simp [hsInit, ← hp, Pattern.ofCode_code, require, hs]⟩)

/-- Every outcome of `hs_phasecheck` (R92). -/
theorem hsPhaseCheck_cases (s : State) : (s.phase = .active ∧ hsPhaseCheck s = .ok () s) ∨ (s.phase ≠ .active
    ∧ (hsPhaseCheck s = .viol .terminal s ∨ hsPhaseCheck s = .viol .seq s)) := by
  cases h : s.phase <;> simp [hsPhaseCheck, h]

/-- HS_WRITE is out of turn, or runs its token list (R117). -/
theorem hsWrite_cases (P : Params) (s : State) :
   ((hsWrite P s = .viol .terminal s ∨ hsWrite P s = .viol .seq s) ∧ ¬ (s.phase = .active
    ∧ s.seq.toNat < s.pattern.nmsgs ∧ writerOf s.seq.toNat = s.role)) ∨
   (s.phase = .active ∧ s.seq.toNat < s.pattern.nmsgs ∧ writerOf s.seq.toNat = s.role
    ∧ hsWrite P s = (match runTokens P (rom s.pattern s.seq.toNat) (hsWriteStart s) with
  | .ok _ s => .ok () (hsWriteEnd s)
  | .err e s => .err e (hsFail true s)
  | .viol c s => .viol c s)) := by
  rcases hsPhaseCheck_cases s with ⟨hp, h⟩ | ⟨hp, h⟩
  swap
  · exact .inl ⟨by rcases h with h | h <;> simp [hsWrite, h], fun hc => hp hc.1⟩
  by_cases h1 : s.seq.toNat < s.pattern.nmsgs
  swap
  · exact .inl ⟨.inr (by rw [hsWrite, h, Res.bind_ok, require_of_not h1]; rfl), fun hc => h1 hc.2.1⟩
  by_cases h2 : writerOf s.seq.toNat = s.role
  swap
  · exact .inl ⟨.inr (by rw [hsWrite, h, Res.bind_ok, require_of h1, Res.bind_ok, require_of_not h2]; rfl), fun hc => h2 hc.2.2⟩
  exact .inr ⟨hp, h1, h2, by rw [hsWrite, h, Res.bind_ok, require_of h1, Res.bind_ok, require_of h2]; rfl⟩

/-- HS_READ is out of turn, takes a short frame, or runs its token list (R118). -/
theorem hsRead_cases (P : Params) (s : State) :
   ((hsRead P s = .viol .terminal s ∨ hsRead P s = .viol .seq s) ∧ ¬ (s.phase = .active
    ∧ s.seq.toNat < s.pattern.nmsgs ∧ writerOf s.seq.toNat ≠ s.role)) ∨
   (s.phase = .active ∧ s.seq.toNat < s.pattern.nmsgs ∧ writerOf s.seq.toNat ≠ s.role ∧
   ((s.msg.length < fixedLen (rom s.pattern s.seq.toNat)
    ∧ hsRead P s = .err .ciphertextTooShort (hsFail false (hsReadStart s)))
   ∨ (fixedLen (rom s.pattern s.seq.toNat) ≤ s.msg.length
    ∧ hsRead P s = (match runTokens P (rom s.pattern s.seq.toNat) (hsReadStart s) with
  | .ok _ s => .ok () (hsReadEnd s)
  | .err e s => .err e (hsFail false s)
  | .viol c s => .viol c s)))) := by
  rcases hsPhaseCheck_cases s with ⟨hp, h⟩ | ⟨hp, h⟩
  swap
  · exact .inl ⟨by rcases h with h | h <;> simp [hsRead, h], fun hc => hp hc.1⟩
  by_cases h1 : s.seq.toNat < s.pattern.nmsgs
  swap
  · exact .inl ⟨.inr (by rw [hsRead, h, Res.bind_ok, require_of_not h1]; rfl), fun hc => h1 hc.2.1⟩
  by_cases h2 : writerOf s.seq.toNat ≠ s.role
  swap
  · exact .inl ⟨.inr (by rw [hsRead, h, Res.bind_ok, require_of h1, Res.bind_ok, require_of_not h2]; rfl), fun hc => h2 hc.2.2⟩
  refine .inr ⟨hp, h1, h2, ?_⟩
  by_cases h3 : s.msg.length < fixedLen (rom s.pattern s.seq.toNat)
  · exact .inl ⟨h3, by rw [hsRead, h, Res.bind_ok, require_of h1, Res.bind_ok, require_of h2, Res.bind_ok, if_pos h3]⟩
  · exact .inr ⟨by omega, by rw [hsRead, h, Res.bind_ok, require_of h1, Res.bind_ok, require_of h2]; exact if_neg h3⟩

/-- Every outcome of HS_ENCPAY (R119). -/
theorem hsEncpay_cases (P : Params) (s : State) :
   (∃ c, c ∈ [Cause.terminal, .seq, .notKeyed, .len] ∧ hsEncpay P s = .viol c s ∧ ¬ (s.phase = .active
    ∧ s.msgcur = true ∧ s.lastw = true ∧ s.paydone = false ∧ s.keyed = true
    ∧ s.off.toNat + s.dat.length + 16 ≤ 65535 ∧ s.ctxT.isSome)) ∨
   (∃ x, s.phase = .active ∧ s.msgcur = true ∧ s.lastw = true ∧ s.paydone = false ∧ s.keyed = true
    ∧ s.off.toNat + s.dat.length + 16 ≤ 65535 ∧ s.ctxT = some x ∧
     hsEncpay P s = .ok () { s with
            paydone := true, ctxT := some (P.spSqueeze (P.spEncrypt x s.dat).1 16).1
            msg := s.msg.take s.off.toNat ++ freeBytes s.freeCtr (s.off.toNat - s.msg.length)
              ++ ((P.spEncrypt x s.dat).2 ++ (P.spSqueeze (P.spEncrypt x s.dat).1 16).2.toList)
            freeCtr := s.freeCtr + (s.off.toNat - s.msg.length) }) := by
  rcases hsPhaseCheck_cases s with ⟨hp, h⟩ | ⟨hp, h⟩
  swap
  · refine .inl ?_; rcases h with h | h
    · exact ⟨.terminal, by simp, by simp [hsEncpay, h], fun hc => hp hc.1⟩
    · exact ⟨.seq, by simp, by simp [hsEncpay, h], fun hc => hp hc.1⟩
  by_cases h1 : s.msgcur = true ∧ s.lastw = true ∧ s.paydone = false
  swap
  · exact .inl ⟨.seq, by simp, by rw [hsEncpay, h, Res.bind_ok, require_of_not h1]; rfl, fun hc => h1 ⟨hc.2.1, hc.2.2.1, hc.2.2.2.1⟩⟩
  by_cases h2 : s.keyed = true
  swap
  · exact .inl ⟨.notKeyed, by simp, by rw [hsEncpay, h, Res.bind_ok, require_of h1, Res.bind_ok, require_of_not h2]; rfl, fun hc => h2 hc.2.2.2.2.1⟩
  by_cases h3 : s.off.toNat + s.dat.length + 16 ≤ 65535
  swap
  · exact .inl ⟨.len, by simp, by rw [hsEncpay, h, Res.bind_ok, require_of h1, Res.bind_ok, require_of h2, Res.bind_ok, require_of_not (by simp [Config.tagLen, Config.maxMsgLen]; omega)]; rfl, fun hc => h3 hc.2.2.2.2.2.1⟩
  cases hx : s.ctxT with
  | none =>
    refine .inl ⟨.seq, by simp, ?_, fun hc => by simp at hc⟩
    rw [hsEncpay, h, Res.bind_ok, require_of h1, Res.bind_ok, require_of h2, Res.bind_ok, require_of (by simp [Config.tagLen, Config.maxMsgLen]; omega), Res.bind_ok, ssEncrypt, require_of h2, Res.bind_ok, spEncrypt, withCtx_of_none (c := .T) hx]; rfl
  | some x =>
    refine .inr ⟨x, hp, h1.1, h1.2.1, h1.2.2, h2, h3, rfl, ?_⟩
    rw [hsEncpay, h, Res.bind_ok, require_of h1, Res.bind_ok, require_of h2, Res.bind_ok, require_of (by simp [Config.tagLen, Config.maxMsgLen]; omega), Res.bind_ok, ssEncrypt_of_keyed h2 hx, Res.bind_ok]
    have hl : ((P.spEncrypt x s.dat).2 ++ (P.spSqueeze (P.spEncrypt x s.dat).1 16).2.toList).length = s.dat.length + 16 := by
      simp [P.spEncrypt_length]
    simp only [memWrite, State.buf, State.setBuf, overwrite, Config.tagLen]
    generalize hb : (P.spEncrypt x s.dat).2 ++ (P.spSqueeze (P.spEncrypt x s.dat).1 16).2.toList = blk at *
    have : (s.msg.take s.off.toNat ++ freeBytes s.freeCtr (s.off.toNat - s.msg.length) ++ blk ++ s.msg.drop (s.off.toNat + blk.length)).take (s.off.toNat + s.dat.length + 16) = s.msg.take s.off.toNat ++ freeBytes s.freeCtr (s.off.toNat - s.msg.length) ++ blk := by
      rw [List.take_append_of_le_length, List.take_of_length_le]
      · simp [hl]; omega
      · simp [hl]; omega
    rw [this]

/-- Every outcome of HS_DECPAY (R120). -/
theorem hsDecpay_cases (P : Params) (s : State) :
   (∃ c, c ∈ [Cause.terminal, .seq, .notKeyed] ∧ hsDecpay P s = .viol c s ∧ ¬ (s.phase = .active
    ∧ s.msgcur = true ∧ s.lastw = false ∧ s.paydone = false ∧ s.keyed = true ∧ s.ctxT.isSome)) ∨
   (s.phase = .active ∧ hsDecpay P s = .err .ciphertextTooShort (hsFail false s)) ∨
   (s.phase = .active ∧ ∃ x y, s.ctxT = some x ∧ s.keyed = true
    ∧ hsDecpay P s = .err .messageCorrupted (hsFail false { s with ctxT := some y, ptx := [], tagx := Tag.zero })) ∨
   (∃ x y d, s.phase = .active ∧ s.ctxT = some x ∧ s.keyed = true ∧ s.lastw = false ∧ s.msgcur = true
    ∧ d.length + s.off.toNat + 16 = s.msg.length
    ∧ hsDecpay P s = .ok () { s with ctxT := some y, ptx := [], tagx := Tag.zero, dat := d, paydone := true }) := by
  rcases hsPhaseCheck_cases s with ⟨hp, h⟩ | ⟨hp, h⟩
  swap
  · refine .inl ?_; rcases h with h | h
    · exact ⟨.terminal, by simp, by simp [hsDecpay, h], fun hc => hp hc.1⟩
    · exact ⟨.seq, by simp, by simp [hsDecpay, h], fun hc => hp hc.1⟩
  by_cases h1 : s.msgcur = true ∧ s.lastw = false ∧ s.paydone = false
  swap
  · exact .inl ⟨.seq, by simp, by rw [hsDecpay, h, Res.bind_ok, require_of_not h1]; rfl, fun hc => h1 ⟨hc.2.1, hc.2.2.1, hc.2.2.2.1⟩⟩
  by_cases h2 : s.keyed = true
  swap
  · exact .inl ⟨.notKeyed, by simp, by rw [hsDecpay, h, Res.bind_ok, require_of h1, Res.bind_ok, require_of_not h2]; rfl, fun hc => h2 hc.2.2.2.2.1⟩
  by_cases h3 : s.msg.length < s.off.toNat + 16
  · exact .inr (.inl ⟨hp, by rw [hsDecpay, h, Res.bind_ok, require_of h1, Res.bind_ok, require_of h2, Res.bind_ok, if_pos (by simpa [Config.tagLen] using h3)]⟩)
  have hl : (s.msg.drop s.off.toNat).length = s.msg.length - s.off.toNat := by simp
  have e : hsDecpay P s = match ssDecrypt P (s.msg.drop s.off.toNat) s with
    | .ok pt s => .ok () { s with dat := pt, paydone := true }
    | .err e s => .err e (hsFail false s)
    | .viol c s => .viol c s := by
    rw [hsDecpay, h, Res.bind_ok, require_of h1, Res.bind_ok, require_of h2]; exact if_neg (by simpa [Config.tagLen] using h3)
  cases hx : s.ctxT with
  | none =>
    refine .inl ⟨.seq, by simp, ?_, fun hc => by simp at hc⟩
    rw [e, ssDecrypt, require_of h2, Res.bind_ok, if_neg (by simp [Config.tagLen]; omega)]
    simp only [spDecrypt]
    rw [withCtx_of_none (c := .T) hx]; rfl
  | some x =>
    rw [ssDecrypt_of_keyed h2 hx (by rw [hl]; omega), hl] at e
    by_cases hq : (P.spSqueeze (P.spDecrypt x ((s.msg.drop s.off.toNat).take (s.msg.length - s.off.toNat - 16))).1 16).2.toList = (s.msg.drop s.off.toNat).drop (s.msg.length - s.off.toNat - 16)
    · simp only [if_pos hq] at e
      refine .inr (.inr (.inr ⟨x, _, _, hp, rfl, h2, h1.2.1, h1.1, ?_, e⟩))
      rw [P.spDecrypt_length]; simp; omega
    · simp only [if_neg hq] at e
      exact .inr (.inr (.inl ⟨hp, x, _, rfl, h2, e⟩))

/-- Every outcome of HS_FINAL (R123). -/
theorem hsFinal_cases (P : Params) (s : State) :
   ((∃ c, c ∈ [Cause.terminal, .seq] ∧ hsFinal P s = .viol c s) ∧ ¬ (s.phase = .active
    ∧ s.seq.toNat = s.pattern.nmsgs ∧ s.ctxT.isSome)) ∨
   (∃ x y z, s.phase = .active ∧ s.seq.toNat = s.pattern.nmsgs ∧ s.ctxT = some x
    ∧ hsFinal P s = .ok () (hsFinalEnd { s with ctxS := some y, ctxR := some z })) := by
  rcases hsPhaseCheck_cases s with ⟨hp, h⟩ | ⟨hp, h⟩
  swap
  · refine .inl ⟨?_, fun hc => hp hc.1⟩; rcases h with h | h
    · exact ⟨.terminal, by simp, by simp [hsFinal, h]⟩
    · exact ⟨.seq, by simp, by simp [hsFinal, h]⟩
  by_cases h1 : s.seq.toNat = s.pattern.nmsgs
  swap
  · exact .inl ⟨⟨.seq, by simp, by rw [hsFinal, h, Res.bind_ok, require_of_not h1]; rfl⟩, fun hc => h1 hc.2.1⟩
  cases hx : s.ctxT with
  | none => exact .inl ⟨⟨.seq, by simp, by rw [hsFinal, h, Res.bind_ok, require_of h1, Res.bind_ok, spSqueeze, withCtx_of_none (c := .T) hx]; rfl⟩, fun hc => by simp at hc⟩
  | some x =>
    refine .inr ⟨x, P.spLaneseed (P.spSqueeze x 32).2 (roleByte s.role), P.spLaneseed (P.spSqueeze x 32).2 (~~~ (roleByte s.role)), hp, h1, rfl, ?_⟩
    rw [hsFinal, h, Res.bind_ok, require_of h1, Res.bind_ok, spSqueeze_of_some (c := .T) hx, Res.bind_ok]
    simp only [spLaneseed_eq, Res.bind_ok]
    rfl

/-- `tc_precheck` of a valid context that was not aborted (R125). -/
theorem tcPrecheck_ok {s : State} (hv : s.tcValid = true) (ha : s.tcAborted = false) : tcPrecheck s = .ok () s := by
  simp [tcPrecheck, require, hv, ha]

/-- The absorption of the associated data, adp = 0 included (R126, R127). -/
theorem absorbAd_of_some {P : Params} {adp : Bool} {s : State} {x : Sponge} (h : s.ctxX = some x) :
    absorbAd P adp s = .ok () { s with ctxX := some (if adp = true then P.spAbsorb x s.ad else x) } := by
  cases adp
  · show Res.ok () s = _
    simp [← h]
  · exact spAbsorb_of_some (c := .X) h

theorem nonceBytes_eq (n : BitVec 64) : nonceBytes n = leBytes 8 n.toNat := rfl

/-- TC_ENC past its checks (R126). -/
theorem tcEnc_of_checks {P : Params} {adp : Bool} {s : State} {x : Sponge} (hv : s.tcValid = true) (ha : s.tcAborted = false)
  (hl : s.dat.length + 16 ≤ 65535) (hn : s.snonce.toNat < 2 ^ 64 - 1) (hx : s.ctxS = some x) :
    tcEnc P adp s =
    (let y := P.spAbsorb x (leBytes 8 s.snonce.toNat)
    let z := if adp = true then P.spAbsorb y s.ad else y
    let c := P.spEncrypt z s.dat
    let q := P.spSqueeze c.1 16
    .ok () { s with msg := c.2 ++ q.2.toList, snonce := s.snonce + 1, ctxX := none }) := by
  rw [tcEnc, tcPrecheck_ok hv ha, Res.bind_ok, require_of (by simpa [Config.tagLen, Config.maxMsgLen] using hl), Res.bind_ok,
   require_of (by simpa [Config.nonceMax] using hn), Res.bind_ok, spClone_of_some (c := .S) hx, Res.bind_ok,
   spAbsorb_of_some (c := .X) (x := x) rfl, Res.bind_ok, absorbAd_of_some (x := P.spAbsorb x (nonceBytes s.snonce)) rfl, Res.bind_ok,
   spEncrypt_of_some (c := .X) rfl, Res.bind_ok, spSqueeze_of_some (c := .X) rfl, Res.bind_ok]
  rfl

/-- TC_DEC past its checks, with a frame that holds a tag (R127). -/
theorem tcDec_of_checks {P : Params} {adp : Bool} {s : State} {x : Sponge} (hv : s.tcValid = true) (ha : s.tcAborted = false)
  (hl : s.msg.length ≤ 65535) (hn : s.rnonce.toNat < 2 ^ 64 - 1) (h16 : 16 ≤ s.msg.length) (hx : s.ctxR = some x) :
    tcDec P adp s =
    (let n := s.msg.length - 16
      let y := P.spAbsorb x (leBytes 8 s.rnonce.toNat)
      let z := if adp = true then P.spAbsorb y s.ad else y
      let c := P.spDecrypt z (s.msg.take n)
      let q := P.spSqueeze c.1 16
        if q.2.toList = s.msg.drop n then
          .ok () { s with dat := c.2, rnonce := s.rnonce + 1, ptx := [], tagx := Tag.zero, ctxX := none }
        else .err .messageCorrupted { s with dat := [], tcAborted := true, ptx := [], tagx := Tag.zero, ctxX := none }) := by
  rw [tcDec, tcPrecheck_ok hv ha, Res.bind_ok, require_of (by simpa [Config.tagLen, Config.maxMsgLen] using hl), Res.bind_ok,
   require_of (by simpa [Config.nonceMax] using hn), Res.bind_ok, if_neg (by simp [Config.tagLen]; omega)]
  simp only [Config.tagLen]
  rw [spClone_of_some (c := .R) hx, Res.bind_ok,
   spAbsorb_of_some (c := .X) (x := x) rfl, Res.bind_ok, absorbAd_of_some (x := P.spAbsorb x (nonceBytes s.rnonce)) rfl, Res.bind_ok,
   spDecrypt_of_some (c := .X) rfl, Res.bind_ok, spSqueeze_of_some (c := .X) rfl, Res.bind_ok]
  simp only []
  have hd : (s.msg.drop (s.msg.length - 16)).length = 16 := by rw [List.length_drop]; omega
  simp only [State.setCtx, tagDiffers_eq hd, nonceBytes_eq]
  generalize (if adp = true then _ else _ : Sponge) = z
  by_cases hq : (P.spSqueeze (P.spDecrypt z (s.msg.take (s.msg.length - 16))).1 16).2.toList = s.msg.drop (s.msg.length - 16)
  · rw [if_neg (by simpa using hq), if_pos hq]
  · rw [if_pos (by simpa using hq), if_neg hq]

/-- TC_ENC passes its checks or ends in one violation, with nothing changed. -/
theorem tcEnc_cases (P : Params) (adp : Bool) (s : State) : (s.tcValid = true ∧ s.tcAborted = false
    ∧ s.dat.length + 16 ≤ 65535 ∧ s.snonce.toNat < 2 ^ 64 - 1 ∧ ∃ x, s.ctxS = some x)
    ∨ ∃ c, c ∈ [Cause.noCtx, .terminal, .len, .nonce, .seq] ∧ tcEnc P adp s = .viol c s ∧ (c = .seq
    → s.tcValid = true ∧ s.ctxS = none) := by
  by_cases hv : s.tcValid = true
  swap
  · exact .inr ⟨.noCtx, by simp, by rw [tcEnc, tcPrecheck, require_of_not hv]; rfl, by nofun⟩
  by_cases ha : s.tcAborted = false
  swap
  · exact .inr ⟨.terminal, by simp, by rw [tcEnc, tcPrecheck, require_of hv, Res.bind_ok, require_of_not ha]; rfl, by nofun⟩
  by_cases hl : s.dat.length + 16 ≤ 65535
  swap
  · exact .inr ⟨.len, by simp, by rw [tcEnc, tcPrecheck_ok hv ha, Res.bind_ok, require_of_not (by simp [Config.tagLen, Config.maxMsgLen]; omega)]; rfl, by nofun⟩
  by_cases hn : s.snonce.toNat < 2 ^ 64 - 1
  swap
  · exact .inr ⟨.nonce, by simp, by rw [tcEnc, tcPrecheck_ok hv ha, Res.bind_ok, require_of (by simp [Config.tagLen, Config.maxMsgLen]; omega), Res.bind_ok, require_of_not (by simp [Config.nonceMax]; omega)]; rfl, by nofun⟩
  cases hx : s.ctxS with
  | none => exact .inr ⟨.seq, by simp, by rw [tcEnc, tcPrecheck_ok hv ha, Res.bind_ok, require_of (by simp [Config.tagLen, Config.maxMsgLen]; omega), Res.bind_ok, require_of (by simp [Config.nonceMax]; omega), Res.bind_ok, spClone, withCtx_of_none (c := .S) hx]; rfl, fun _ => ⟨hv, rfl⟩⟩
  | some x => exact .inl ⟨hv, ha, hl, hn, x, rfl⟩

/-- TC_DEC passes its checks, takes a short frame, or ends in one violation, with nothing changed. -/
theorem tcDec_cases (P : Params) (adp : Bool) (s : State) : (s.tcValid = true ∧ s.tcAborted = false
    ∧ s.msg.length ≤ 65535 ∧ s.rnonce.toNat < 2 ^ 64 - 1 ∧ ((s.msg.length < 16
    ∧ tcDec P adp s = .err .ciphertextTooShort s) ∨ (16 ≤ s.msg.length ∧ ∃ x, s.ctxR = some x)))
    ∨ ∃ c, c ∈ [Cause.noCtx, .terminal, .len, .nonce, .seq] ∧ tcDec P adp s = .viol c s ∧ (c = .seq
    → s.tcValid = true ∧ s.ctxR = none) ∧ (c = .len → 65535 < s.msg.length):= by
  by_cases hv : s.tcValid = true
  swap
  · exact .inr ⟨.noCtx, by simp, by rw [tcDec, tcPrecheck, require_of_not hv]; rfl, by nofun, by nofun⟩
  by_cases ha : s.tcAborted = false
  swap
  · exact .inr ⟨.terminal, by simp, by rw [tcDec, tcPrecheck, require_of hv, Res.bind_ok, require_of_not ha]; rfl, by nofun, by nofun⟩
  by_cases hl : s.msg.length ≤ 65535
  swap
  · exact .inr ⟨.len, by simp, by rw [tcDec, tcPrecheck_ok hv ha, Res.bind_ok, require_of_not (by simp [Config.maxMsgLen]; omega)]; rfl, by nofun, fun _ => by omega⟩
  by_cases hn : s.rnonce.toNat < 2 ^ 64 - 1
  swap
  · exact .inr ⟨.nonce, by simp, by rw [tcDec, tcPrecheck_ok hv ha, Res.bind_ok, require_of (by simp [Config.maxMsgLen]; omega), Res.bind_ok, require_of_not (by simp [Config.nonceMax]; omega)]; rfl, by nofun, by nofun⟩
  by_cases h16 : s.msg.length < 16
  · refine .inl ⟨hv, ha, hl, hn, .inl ⟨h16, ?_⟩⟩
    rw [tcDec, tcPrecheck_ok hv ha, Res.bind_ok, require_of (by simpa [Config.tagLen, Config.maxMsgLen] using hl), Res.bind_ok,
     require_of (by simpa [Config.nonceMax] using hn), Res.bind_ok, if_pos (by simp [Config.tagLen]; omega)]
  cases hx : s.ctxR with
  | none => exact .inr ⟨.seq, by simp, by rw [tcDec, tcPrecheck_ok hv ha, Res.bind_ok, require_of (by simp [Config.maxMsgLen]; omega), Res.bind_ok, require_of (by simp [Config.nonceMax]; omega), Res.bind_ok, if_neg (by simp [Config.tagLen]; omega), spClone, withCtx_of_none (c := .R) hx]; rfl, fun _ => ⟨hv, rfl⟩, by nofun⟩
  | some x => exact .inl ⟨hv, ha, hl, hn, .inr ⟨by omega, x, rfl⟩⟩

/-- Every outcome of `tc_precheck` (R125). -/
theorem tcPrecheck_cases (s : State) : (s.tcValid = true ∧ s.tcAborted = false ∧ tcPrecheck s = .ok () s)
    ∨ (¬ (s.tcValid = true ∧ s.tcAborted = false) ∧ ∃ c, c ∈ [Cause.noCtx, .terminal]
    ∧ tcPrecheck s = .viol c s) := by
  cases hv : s.tcValid <;> cases ha : s.tcAborted <;> simp [tcPrecheck, require, hv, ha]

/-- Every outcome of TC_REKEY_S (R129). -/
theorem tcRekeyS_cases (P : Params) (s : State) : (∃ c, c ∈ [Cause.noCtx, .terminal, .seq]
    ∧ tcRekeyS P s = .viol c s ∧ ¬ (s.tcValid = true ∧ s.tcAborted = false ∧ s.ctxS.isSome) ∧ (c = .seq
    → s.tcValid = true ∧ s.ctxS = none)) ∨ (∃ x, s.tcValid = true ∧ s.tcAborted = false ∧ s.ctxS = some x
    ∧ tcRekeyS P s = .ok () { s with ctxS := some (P.spRatchet x) }) := by
  rcases tcPrecheck_cases s with ⟨hv, ha, h⟩ | ⟨hn, c, hc, h⟩
  · cases hx : s.ctxS with
    | none => exact .inl ⟨.seq, by simp, by rw [tcRekeyS, h, Res.bind_ok, spRatchet, withCtx_of_none (c := .S) hx], by simp, fun _ => ⟨hv, rfl⟩⟩
    | some x => exact .inr ⟨x, hv, ha, rfl, by rw [tcRekeyS, h, Res.bind_ok, spRatchet_of_some (c := .S) hx]; rfl⟩
  · refine .inl ⟨c, by simp at hc ⊢; tauto, by rw [tcRekeyS, h]; rfl, fun h => hn ⟨h.1, h.2.1⟩, ?_⟩
    rintro rfl; simp at hc
/-- Every outcome of TC_REKEY_R (R130). -/
theorem tcRekeyR_cases (P : Params) (s : State) : (∃ c, c ∈ [Cause.noCtx, .terminal, .seq]
    ∧ tcRekeyR P s = .viol c s ∧ ¬ (s.tcValid = true ∧ s.tcAborted = false ∧ s.ctxR.isSome) ∧ (c = .seq
    → s.tcValid = true ∧ s.ctxR = none)) ∨ (∃ x, s.tcValid = true ∧ s.tcAborted = false ∧ s.ctxR = some x
    ∧ tcRekeyR P s = .ok () { s with ctxR := some (P.spRatchet x) }) := by
  rcases tcPrecheck_cases s with ⟨hv, ha, h⟩ | ⟨hn, c, hc, h⟩
  · cases hx : s.ctxR with
    | none => exact .inl ⟨.seq, by simp, by rw [tcRekeyR, h, Res.bind_ok, spRatchet, withCtx_of_none (c := .R) hx], by simp, fun _ => ⟨hv, rfl⟩⟩
    | some x => exact .inr ⟨x, hv, ha, rfl, by rw [tcRekeyR, h, Res.bind_ok, spRatchet_of_some (c := .R) hx]; rfl⟩
  · refine .inl ⟨c, by simp at hc ⊢; tauto, by rw [tcRekeyR, h]; rfl, fun h => hn ⟨h.1, h.2.1⟩, ?_⟩
    rintro rfl; simp at hc
/-- Every outcome of TC_REKEY (R131). -/
theorem tcRekey_cases (P : Params) (s : State) : (∃ c v, c ∈ [Cause.noCtx, .terminal, .seq]
    ∧ tcRekey P s = .viol c { s with ctxS := v } ∧ ¬ (s.tcValid = true ∧ s.tcAborted = false ∧ s.ctxS.isSome
    ∧ s.ctxR.isSome) ∧ (c = .seq → s.tcValid = true ∧ (s.ctxS = none ∨ s.ctxR = none)))
    ∨ (∃ x y, s.tcValid = true ∧ s.tcAborted = false ∧ s.ctxS = some x ∧ s.ctxR = some y
    ∧ tcRekey P s = .ok () { s with ctxS := some (P.spRatchet x), ctxR := some (P.spRatchet y) }) := by
  rcases tcPrecheck_cases s with ⟨hv, ha, h⟩ | ⟨hn, c, hc, h⟩
  · cases hx : s.ctxS with
    | none => exact .inl ⟨.seq, s.ctxS, by simp, by rw [tcRekey, h, Res.bind_ok, spRatchet, withCtx_of_none (c := .S) hx]; rfl, by simp, fun _ => ⟨hv, .inl rfl⟩⟩
    | some x =>
      cases hy : s.ctxR with
      | none => exact .inl ⟨.seq, some (P.spRatchet x), by simp, by rw [tcRekey, h, Res.bind_ok, spRatchet_of_some (c := .S) hx, Res.bind_ok, spRatchet, withCtx_of_none (c := .R) (by exact hy)]; simp [State.setCtx, hy], by simp, fun _ => ⟨hv, .inr rfl⟩⟩
      | some y => exact .inr ⟨x, y, hv, ha, rfl, rfl, by rw [tcRekey, h, Res.bind_ok, spRatchet_of_some (c := .S) hx, Res.bind_ok, spRatchet_of_some (c := .R) (x := y) (by exact hy)]; rfl⟩
  · refine .inl ⟨c, s.ctxS, by simp at hc ⊢; tauto, by rw [tcRekey, h]; rfl, fun h => hn ⟨h.1, h.2.1⟩, ?_⟩
    rintro rfl; simp at hc


end Sys2Proof.Machine
end

