-- ==== Sys2Proof/Laws/Encoding.lean ====
section
/-! SUPPORT. The bits of a command word: where each field of an encoded word stands, the four bytes of a word and back,
and when the field checks of the decoder accept a word. -/

namespace Sys2Proof

/-- Every bit of a word made of four bytes. -/
theorem wordOfBytes_getLsbD (b0 b1 b2 b3 : Byte) (i : Nat) :
    (wordOfBytes b0 b1 b2 b3).getLsbD i =
      if i < 8 then b0.getLsbD i
      else if i < 16 then b1.getLsbD (i - 8)
      else if i < 24 then b2.getLsbD (i - 16)
      else b3.getLsbD (i - 24) := by
  refine (BitVec.getLsbD_append (n := 24) (m := 8) (x := b3 ++ b2 ++ b1)).trans ?_
  rw [BitVec.getLsbD_append, BitVec.getLsbD_append]
  by_cases h : i < 8
  · simp [h]
  by_cases h2 : i < 16
  · simp [h, h2, show i - 8 < 8 by omega]
  by_cases h3 : i < 24
  · simp [h, h2, h3, show ¬ i - 8 < 8 by omega, show i - 8 - 8 < 8 by omega]; congr 1
  simp [h, h2, h3, show ¬ i - 8 < 8 by omega, show ¬ i - 8 - 8 < 8 by omega]; congr 1

/-- Every bit of an encoded command word (R50). -/
theorem commandWord_getLsbD (op : BitVec 8) (pat : BitVec 4) (r a : Bool) (i : Nat) :
    (commandWord op pat r a).getLsbD i =
      if i < 8 then op.getLsbD i
      else if i < 12 then pat.getLsbD (i - 8)
      else if i = 12 then r
      else if i = 13 then a
      else false := by
  refine (BitVec.getLsbD_append (n := 24) (m := 8) (y := op)).trans ?_
  refine (congrArg (fun z => if i < 8 then op.getLsbD i else z)
    (BitVec.getLsbD_append (n := 20) (m := 4) (y := pat))).trans ?_
  refine (congrArg (fun z => if i < 8 then op.getLsbD i else if i - 8 < 4 then pat.getLsbD (i - 8) else z)
    (BitVec.getLsbD_append (n := 19) (m := 1) (y := BitVec.ofBool r))).trans ?_
  rw [BitVec.getLsbD_append]
  by_cases h : i < 8
  · simp [h]
  by_cases h2 : i < 12
  · simp [h, h2, show i - 8 < 4 by omega]
  by_cases h3 : i = 12
  · subst h3; simp
  by_cases h4 : i = 13
  · subst h4; simp
  simp [h, h2, h3, h4, show ¬ i - 8 < 4 by omega, show ¬ i - 8 - 4 < 1 by omega,
    show ¬ i - 8 - 4 - 1 < 1 by omega]

/-- The bytes of a word, put together again, are the word. -/
theorem wordOfBytes_bytes (w : Word32) :
    wordOfBytes (w.extractLsb' 0 8) (w.extractLsb' 8 8) (w.extractLsb' 16 8) (w.extractLsb' 24 8) = w := by
  apply BitVec.eq_of_getLsbD_eq
  intro i hi
  rw [wordOfBytes_getLsbD]
  simp only [BitVec.getLsbD_extractLsb']
  split
  · simp [*]
  split
  · rw [show 8 + (i - 8) = i by omega]; simp; omega
  split
  · rw [show 16 + (i - 16) = i by omega]; simp; omega
  · rw [show 24 + (i - 24) = i by omega]; simp; omega

/-- Decoding the bytes of a word is decoding the word. -/
theorem decode_bytesOfWord (w : Word32) : decode .H (bytesOfWord w) = decodeCommand w := by
  unfold bytesOfWord decode
  simp only [wordOfBytes_bytes]

/-- The fields of an encoded command word are the ones it was made of. -/
theorem commandWord_fields (op : BitVec 8) (pat : BitVec 4) (r a : Bool) :
    (commandWord op pat r a).extractLsb' 0 8 = op ∧ (commandWord op pat r a).extractLsb' 8 4 = pat
      ∧ (commandWord op pat r a).getLsbD 12 = r ∧ (commandWord op pat r a).getLsbD 13 = a
      ∧ (commandWord op pat r a).extractLsb' 14 18 = 0 := by
  refine ⟨?_, ?_, ?_, ?_, ?_⟩
  · apply BitVec.eq_of_getLsbD_eq; intro i hi
    rw [BitVec.getLsbD_extractLsb', commandWord_getLsbD]; simp [hi]
  · apply BitVec.eq_of_getLsbD_eq; intro i hi
    rw [BitVec.getLsbD_extractLsb', commandWord_getLsbD]; simp [hi]; omega
  · rw [commandWord_getLsbD]; simp
  · rw [commandWord_getLsbD]; simp
  · apply BitVec.eq_of_getLsbD_eq; intro i hi
    rw [BitVec.getLsbD_extractLsb', commandWord_getLsbD]
    simp [show ¬ (14 + i < 8) by omega, show ¬ (14 + i < 12) by omega, show ¬ (14 + i = 12) by omega]
    omega

/-- A word whose reserved bits are 0 is the one made of its fields. -/
theorem commandWord_eta (w : Word32) (h : w.extractLsb' 14 18 = 0) :
    commandWord (w.extractLsb' 0 8) (w.extractLsb' 8 4) (w.getLsbD 12) (w.getLsbD 13) = w := by
  apply BitVec.eq_of_getLsbD_eq
  intro i hi
  rw [commandWord_getLsbD]
  simp only [BitVec.getLsbD_extractLsb']
  split
  · simp [*]
  split
  · rw [show 8 + (i - 8) = i by omega]; simp; omega
  split
  · simp [*]
  split
  · simp [*]
  have := congrArg (fun v : BitVec 18 => v.getLsbD (i - 14)) h
  simp only [BitVec.getLsbD_extractLsb'] at this
  rw [show 14 + (i - 14) = i by omega] at this
  simp only [show i - 14 < 18 by omega] at this
  simpa using this.symm

@[simp] theorem Role.ofBit_toBit (r : Role) : Role.ofBit r.toBit = r := by cases r <;> rfl
@[simp] theorem Role.toBit_ofBit (b : Bool) : (Role.ofBit b).toBit = b := by cases b <;> rfl
@[simp] theorem Ctx.ofId_id (c : Ctx) : Ctx.ofId c.id = c := by cases c <;> rfl

/-- When a word without fields is accepted. -/
theorem decodePlain_eq_ok {w : Word32} {i j : Instr} :
    decodePlain w i = .ok j
      ↔ (w.extractLsb' 8 4 = 0 ∧ w.getLsbD 12 = false ∧ w.getLsbD 13 = false ∧ i = j) := by
  unfold decodePlain; split <;> [skip; split <;> [skip; split]] <;> simp_all

/-- When a transport word is accepted. -/
theorem decodeAdp_eq_ok {w : Word32} {f : Bool → Instr} {j : Instr} :
    decodeAdp w f = .ok j
      ↔ (w.extractLsb' 8 4 = 0 ∧ w.getLsbD 12 = false ∧ f (w.getLsbD 13) = j) := by
  unfold decodeAdp; split <;> [skip; split] <;> simp_all

/-- When an HS_INIT word is accepted. -/
theorem decodeInit_eq_ok {w : Word32} {j : Instr} :
    decodeInit w = .ok j
      ↔ (w.getLsbD 13 = false ∧ (w.extractLsb' 8 4).toNat ≤ 8
        ∧ .hsInit (w.extractLsb' 8 4) (Role.ofBit (w.getLsbD 12)) = j) := by
  unfold decodeInit; split <;> [skip; split] <;> simp_all

/-- The encoder gives a command word to format H and to no other. -/
theorem encodeCommand_isSome {i : Instr} : (encodeCommand i).isSome = true ↔ i.format = .H := by
  cases i <;> simp [encodeCommand, Instr.format]

end Sys2Proof
end

