-- ==== Sys2Proof/Laws/Exec.lean ====
section
/-! SUPPORT. Every meaning as one body over the parameters: a host command other than RESET is `runCommand` of its
command body, an instruction of an internal format is `runInternal` of its internal body. Statements over all
instructions cite these two and then speak of bodies. -/

namespace Sys2Proof.Machine

/-- The body of a host command; of any other instruction, nothing. -/
def commandBody (P : Params) : Instr → State → Res Unit
  | .hsInit pat role => hsInit P pat role
  | .hsWrite => hsWrite P
  | .hsRead => hsRead P
  | .hsEncpay => hsEncpay P
  | .hsDecpay => hsDecpay P
  | .hsFinal => hsFinal P
  | .tcEnc adp => tcEnc P adp
  | .tcDec adp => tcDec P adp
  | .tcRekeyS => tcRekeyS P
  | .tcRekeyR => tcRekeyR P
  | .tcRekey => tcRekey P
  | .phHash => phHash P
  | _ => fun s => .ok () s

/-- The body of an instruction of an internal format; of any other instruction, nothing. -/
def internalBody (P : Params) : Instr → State → Res Bytes
  | .tokEnd => fun s => noResult (runToken P .tEnd s)
  | .tokE => fun s => noResult (tokenE P s)
  | .tokS => fun s => noResult (tokenS P s)
  | .tokEe => fun s => noResult (tokenEe P s)
  | .tokEs => fun s => noResult (tokenEs P s)
  | .tokSe => fun s => noResult (tokenSe P s)
  | .tokSs => fun s => noResult (tokenSs P s)
  | .tokPsk => fun s => noResult (tokenPsk P s)
  | .ssInit => fun s => noResult (ssInit P s.op.data s)
  | .ssMixhash => fun s => noResult (ssMixhash P s.op.data s)
  | .ssMixkey => fun s => noResult (ssMixkey P s.op.data s)
  | .ssEncrypt => fun s => ssEncrypt P s.op.data s
  | .ssDecrypt => fun s => ssDecrypt P s.op.data s
  | .spInit c => fun s => noResult (spInit P c s.op.data s)
  | .spAbsorb c => fun s => noResult (spAbsorb P c s.op.data s)
  | .spSqueeze c => fun s => (spSqueeze P c s.op.count s).map Vector.toList
  | .spEncrypt c => fun s => spEncrypt P c s.op.data s
  | .spDecrypt c => fun s => spDecrypt P c s.op.data s
  | .spRatchet c => fun s => noResult (spRatchet P c s)
  | .spClone c => fun s => noResult (spClone c s)
  | .spLaneseed c => fun s => noResult (spLaneseed P c s.rk s.op.idb s)
  | .dhCombine => fun s => noResult (dhCombine P s.op.kp s.op.pk s)
  | .dhPub => fun s => (dhPub P s.op.kp s).map Vector.toList
  | _ => fun s => .ok [] s

/-- A host command other than RESET is its body, run as a command. -/
theorem exec_command {i : Instr} (hf : i.format = .H) (hr : i ≠ .reset) (s : State) :
    exec i s = runCommand (commandBody Config.params i) s := by
  cases i <;> first | rfl | exact absurd rfl hr | exact nomatch hf

/-- An instruction of an internal format is its body, run as a step of its own. -/
theorem exec_internal {i : Instr} (hf : i.format ≠ .H) (s : State) :
    exec i s = runInternal (internalBody Config.params i) s := by
  cases i <;> first | rfl | exact absurd rfl hf

/-- A host command other than RESET while FATAL = 0: its body, then the end of a command. -/
theorem exec_command_good {i : Instr} (hf : i.format = .H) (hr : i ≠ .reset) {s : State}
    (h : s.fatal = false) :
    exec i s = .next (finishCommand (commandBody Config.params i s)) :=
  (exec_command hf hr s).trans (runCommand_of_good h)

/-- An instruction of an internal format while FATAL = 0: its body, then the end of an internal operation. -/
theorem exec_internal_good {i : Instr} (hf : i.format ≠ .H) {s : State} (h : s.fatal = false) :
    exec i s = .next (finishInternal (internalBody Config.params i s)) :=
  (exec_internal hf s).trans (runInternal_of_good h)

/-- Every instruction answers a next state. -/
theorem exec_next (i : Instr) (s : State) : ∃ t, exec i s = .next t := by
  by_cases hf : i.format = .H
  · by_cases hr : i = .reset
    · exact ⟨resetState s, by rw [hr]; rfl⟩
    · exact ⟨_, exec_command hf hr s⟩
  · exact ⟨_, exec_internal hf s⟩

end Sys2Proof.Machine
end

