-- ==== Sys2Proof/Laws/Frame.lean ====
section
/-! SUPPORT. What a piece of a command leaves alone, said as an equation: `E` of the state after is `E` of the state
before, where `E` erases or projects. Pieces compose by transitivity, and a field is read off by `congrArg`. -/

namespace Sys2Proof.Machine

/-- The state a piece ends in, however it ends. -/
def Res.state {α : Type} : Res α → State
  | .ok _ s => s
  | .err _ s => s
  | .viol _ s => s

@[simp] theorem Res.state_ok {α : Type} (a : α) (s : State) : (Res.ok a s).state = s := rfl
@[simp] theorem Res.state_err {α : Type} (e : RtErr) (s : State) : (Res.err e s : Res α).state = s := rfl
@[simp] theorem Res.state_viol {α : Type} (c : Cause) (s : State) : (Res.viol c s : Res α).state = s := rfl
@[simp] theorem Res.state_map {α β : Type} (f : α → β) (r : Res α) : (r.map f).state = r.state := by
  cases r <;> rfl
@[simp] theorem Res.state_noResult (r : Res Unit) : (noResult r).state = r.state := Res.state_map _ r

/-- Pieces one after another leave alone what each of them does. -/
theorem Res.bind_frame {α β γ : Type} {E : State → γ} {r : Res α} {f : α → State → Res β} {s : State}
    (h : E r.state = E s) (hf : ∀ a u, r = .ok a u → E (f a u).state = E u) :
    E (r.bind f).state = E s := by
  cases r with
  | ok a u => exact (hf a u rfl).trans h
  | err e u => exact h
  | viol c u => exact h

/-- `require` leaves everything alone. -/
@[simp] theorem require_state {c : Prop} [Decidable c] (v : Cause) (s : State) : (require c v s).state = s := by
  unfold require; split <;> rfl

/-- The check of the phase leaves everything alone. -/
@[simp] theorem hsPhaseCheck_state (s : State) : (hsPhaseCheck s).state = s := by
  unfold hsPhaseCheck; split <;> rfl

/-- The check of the transport context leaves everything alone. -/
@[simp] theorem tcPrecheck_state (s : State) : (tcPrecheck s).state = s := by
  refine Res.bind_frame (E := id) (require_state ..) fun a u _ => ?_
  exact require_state ..

/-- A port operation that writes only its context leaves alone what a context write leaves alone. -/
theorem withCtx_frame {α γ : Type} {E : State → γ} {c : Ctx} {s : State} {f : Sponge → Res α}
    (hf : ∀ x, E (f x).state = E s) : E (withCtx c s f).state = E s := by
  unfold withCtx; split
  · rfl
  · exact hf _

theorem spAbsorb_frame {γ : Type} {E : State → γ} {P : Params} {c : Ctx} {d : Bytes} {s : State}
    (h : ∀ v, E (s.setCtx c v) = E s) : E (spAbsorb P c d s).state = E s := withCtx_frame fun _ => h _
theorem spSqueeze_frame {γ : Type} {E : State → γ} {P : Params} {c : Ctx} {n : Nat} {s : State}
    (h : ∀ v, E (s.setCtx c v) = E s) : E (spSqueeze P c n s).state = E s := withCtx_frame fun _ => h _
theorem spEncrypt_frame {γ : Type} {E : State → γ} {P : Params} {c : Ctx} {d : Bytes} {s : State}
    (h : ∀ v, E (s.setCtx c v) = E s) : E (spEncrypt P c d s).state = E s := withCtx_frame fun _ => h _
theorem spDecrypt_frame {γ : Type} {E : State → γ} {P : Params} {c : Ctx} {d : Bytes} {s : State}
    (h : ∀ v, E (s.setCtx c v) = E s) : E (spDecrypt P c d s).state = E s := withCtx_frame fun _ => h _
theorem spRatchet_frame {γ : Type} {E : State → γ} {P : Params} {c : Ctx} {s : State}
    (h : ∀ v, E (s.setCtx c v) = E s) : E (spRatchet P c s).state = E s := withCtx_frame fun _ => h _

/-- A state with what tokens write erased: the symmetric state, MSG, the remote keys, the running offset, DHO, TAGX, PTX
and the numbering of free bytes (R97 to R105). -/
def eraseTokenWrites (s : State) : State :=
  { s with
    ctxT := none, keyed := false, msg := [], kRS := none, kRE := none
    op := { s.op with off := 0 }, dho := Key.zero, tagx := Tag.zero, ptx := [], freeCtr := 0 }

/-- A state with what the symmetric-state mixer writes erased (R84 to R88). -/
def eraseMixerWrites (s : State) : State :=
  { s with ctxT := none, keyed := false, tagx := Tag.zero, ptx := [] }

theorem ssMixhash_frame (P : Params) (d : Bytes) (s : State) :
    eraseMixerWrites (ssMixhash P d s).state = eraseMixerWrites s := spAbsorb_frame fun _ => rfl

theorem ssMixkey_frame (P : Params) (d : Bytes) (s : State) :
    eraseMixerWrites (ssMixkey P d s).state = eraseMixerWrites s :=
  Res.bind_frame (spAbsorb_frame fun _ => rfl) fun _ _ _ => rfl

theorem ssEncrypt_frame (P : Params) (d : Bytes) (s : State) :
    eraseMixerWrites (ssEncrypt P d s).state = eraseMixerWrites s :=
  Res.bind_frame (by rw [require_state]) fun _ _ _ =>
  Res.bind_frame (spEncrypt_frame fun _ => rfl) fun _ _ _ =>
  Res.bind_frame (spSqueeze_frame fun _ => rfl) fun _ _ _ => rfl

theorem ssDecrypt_frame (P : Params) (d : Bytes) (s : State) :
    eraseMixerWrites (ssDecrypt P d s).state = eraseMixerWrites s := by
  refine Res.bind_frame (by rw [require_state]) fun _ u _ => ?_
  split
  · rfl
  · refine Res.bind_frame (spDecrypt_frame fun _ => rfl) fun _ v _ => ?_
    refine Res.bind_frame (s := v) (E := eraseMixerWrites)
      (spSqueeze_frame (s := { v with ptx := _ }) fun _ => rfl) fun _ _ _ => ?_
    dsimp only
    split <;> rfl

/-- What the mixer leaves alone, tokens leave alone. -/
theorem eraseTokenWrites_of_mixer {s t : State} (h : eraseMixerWrites t = eraseMixerWrites s) :
    eraseTokenWrites t = eraseTokenWrites s := by
  have := congrArg eraseTokenWrites h
  exact this

theorem dhCombine_frame (P : Params) (kp : KpSlot) (pk : PkSlot) (s : State) :
    eraseTokenWrites (dhCombine P kp pk s).state = eraseTokenWrites s := by
  unfold dhCombine
  split
  · split <;> rfl
  · rfl

theorem dhPub_state (P : Params) (kp : KpSlot) (s : State) : (dhPub P kp s).state = s := by
  unfold dhPub; split <;> rfl

theorem mixDh_frame (P : Params) (kp : KpSlot) (pk : PkSlot) (s : State) :
    eraseTokenWrites (mixDh P kp pk s).state = eraseTokenWrites s :=
  Res.bind_frame (dhCombine_frame ..) fun _ _ _ =>
  Res.bind_frame (eraseTokenWrites_of_mixer (ssMixkey_frame ..)) fun _ _ _ => rfl

theorem tokenWrite_frame (b : Bytes) (s : State) :
    eraseTokenWrites (tokenWrite b s).state = eraseTokenWrites s :=
  Res.bind_frame (by rw [require_state]) fun _ _ _ => rfl

theorem tokenE_frame (P : Params) (s : State) :
    eraseTokenWrites (tokenE P s).state = eraseTokenWrites s := by
  unfold tokenE
  split
  · exact Res.bind_frame (by rw [require_state]) fun _ _ _ =>
      Res.bind_frame (by rw [dhPub_state]) fun _ _ _ =>
      Res.bind_frame (tokenWrite_frame ..) fun _ _ _ =>
      Res.bind_frame (eraseTokenWrites_of_mixer (ssMixhash_frame ..)) fun _ _ _ => rfl
  · exact Res.bind_frame (by rw [require_state]) fun _ _ _ =>
      Res.bind_frame ((eraseTokenWrites_of_mixer (ssMixhash_frame ..)).trans rfl) fun _ _ _ => rfl

theorem tokenS_frame (P : Params) (s : State) :
    eraseTokenWrites (tokenS P s).state = eraseTokenWrites s := by
  unfold tokenS
  split
  · exact Res.bind_frame (by rw [require_state]) fun _ _ _ =>
      Res.bind_frame (by rw [dhPub_state]) fun _ _ _ =>
      Res.bind_frame (eraseTokenWrites_of_mixer (ssEncrypt_frame ..)) fun _ _ _ =>
      Res.bind_frame (tokenWrite_frame ..) fun _ _ _ => rfl
  · exact Res.bind_frame (by rw [require_state]) fun _ _ _ =>
      Res.bind_frame ((eraseTokenWrites_of_mixer (ssDecrypt_frame ..)).trans rfl) fun _ _ _ => rfl

/-- What every token leaves alone, however it ends (R97 to R105). -/
theorem runToken_frame (P : Params) (t : Token) (s : State) :
    eraseTokenWrites (runToken P t s).state = eraseTokenWrites s := by
  cases t with
  | tEnd => rfl
  | e => exact tokenE_frame P s
  | s => exact tokenS_frame P s
  | ee => exact mixDh_frame ..
  | es => show eraseTokenWrites (tokenEs P s).state = _; unfold tokenEs; split <;> exact mixDh_frame ..
  | se => show eraseTokenWrites (tokenSe P s).state = _; unfold tokenSe; split <;> exact mixDh_frame ..
  | ss => exact mixDh_frame ..
  | psk =>
    show eraseTokenWrites (tokenPsk P s).state = _
    unfold tokenPsk
    split
    · rfl
    · exact eraseTokenWrites_of_mixer (ssMixkey_frame ..)

/-- What a token list leaves alone, however it ends. -/
theorem runTokens_frame (P : Params) (ts : List Token) (s : State) :
    eraseTokenWrites (runTokens P ts s).state = eraseTokenWrites s := by
  induction ts generalizing s with
  | nil => rfl
  | cons t rest ih => exact Res.bind_frame (runToken_frame P t s) fun _ u _ => ih u

end Sys2Proof.Machine
end

