-- ==== Sys2Proof/Laws/Memory.lean ====
section
/-! SUPPORT. The laws of the three buffers: a read after a write, a write leaves every other byte alone, and every
operation over a buffer keeps the canonical form. -/

namespace Sys2Proof.Machine

/-- The canonical form, as a bound (R32). -/
theorem memory_wf_iff {b : Bytes} : Memory.wf b = true ↔ b.length ≤ 65535 := by
  rw [Memory.wf, decide_eq_true_iff]; rfl

/-- The canonical form of the whole memory, buffer by buffer. -/
theorem memWf_iff {s : State} : s.memWf = true ↔ ∀ b, (s.buf b).length ≤ 65535 := by
  simp only [State.memWf, Bool.and_eq_true, memory_wf_iff]
  constructor
  · rintro ⟨⟨h1, h2⟩, h3⟩ b
    cases b <;> assumption
  · exact fun h => ⟨⟨h .MSG, h .DAT⟩, h .AD⟩

/-- The canonical form depends on the buffers alone. -/
theorem memWf_congr {s t : State} (h : ∀ b, t.buf b = s.buf b) : t.memWf = s.memWf := by
  unfold State.memWf
  rw [show t.msg = s.msg from h .MSG, show t.dat = s.dat from h .DAT, show t.ad = s.ad from h .AD]

/-- Memory after reset has the canonical form. -/
theorem reset_memWf : State.reset.memWf = true := by decide

/-- A buffer read after it was replaced. -/
@[simp] theorem buf_setBuf_self (s : State) (b : Buf) (v : Bytes) : (s.setBuf b v).buf b = v := by
  cases b <;> rfl

/-- A buffer read after another was replaced. -/
theorem buf_setBuf_of_ne (s : State) {b c : Buf} (h : c ≠ b) (v : Bytes) : (s.setBuf b v).buf c = s.buf c := by
  cases b <;> cases c <;> first | rfl | exact absurd rfl h

/-- Replacing a buffer by a byte string of legal length keeps the canonical form. -/
theorem setBuf_memWf {s : State} {b : Buf} {v : Bytes} (h : s.memWf = true) (hv : v.length ≤ 65535) :
    (s.setBuf b v).memWf = true := by
  rw [memWf_iff] at h ⊢
  intro c
  by_cases hc : c = b
  · subst hc; simpa using hv
  · rw [buf_setBuf_of_ne s hc]; exact h c

/-- MemWrite is the replacement of one buffer, the free bytes used counted. -/
theorem memWrite_buf (b c : Buf) (a : Nat) (data : Bytes) (s : State) :
    (memWrite b a data s).buf c = if c = b then overwrite (s.buf b) s.freeCtr a data else s.buf c := by
  by_cases h : c = b
  · subst h; simp only [if_pos]; cases c <;> rfl
  · rw [if_neg h, ← buf_setBuf_of_ne s h (overwrite (s.buf b) s.freeCtr a data)]
    cases c <;> rfl

/-- MemWrite inside the capacity keeps the canonical form (R36, R142). -/
theorem memWrite_memWf {s : State} {b : Buf} {a : Nat} {data : Bytes} (h : s.memWf = true)
    (hl : a + data.length ≤ 65535) : (memWrite b a data s).memWf = true := by
  rw [memWf_iff] at h ⊢
  intro c
  rw [memWrite_buf]
  split
  · rw [overwrite_length]; have := h b; omega
  · exact h c

/-- MemRead changes no buffer. -/
theorem memRead_buf (b c : Buf) (a n : Nat) (s : State) : (memRead b a n s).2.buf c = s.buf c := by
  cases c <;> rfl

/-- MemRead keeps the canonical form. -/
theorem memRead_memWf {s : State} (b : Buf) (a n : Nat) (h : s.memWf = true) :
    (memRead b a n s).2.memWf = true := (memWf_congr fun c => memRead_buf b c a n s).trans h

/-- A byte written reads as written (R36). -/
theorem readByte_memWrite_of_mem {s : State} {b : Buf} {a i : Nat} {data : Bytes} (h1 : a ≤ i)
    (h2 : i < a + data.length) : (memWrite b a data s).readByte b i = data[i - a]? := by
  unfold State.readByte
  rw [memWrite_buf, if_pos rfl]
  generalize s.buf b = cur
  have hl : (cur.take a ++ freeBytes s.freeCtr (a - cur.length)).length = a := by simp; omega
  rw [overwrite, List.append_assoc, List.getElem?_append_right (by omega), hl,
    List.getElem?_append_left (by omega)]

/-- A byte outside the bytes written, and inside the length before, reads as before (R36). -/
theorem readByte_memWrite_of_not_mem {s : State} {b : Buf} {a i : Nat} {data : Bytes}
    (h : i < a ∨ a + data.length ≤ i) (hi : i < (s.buf b).length) :
    (memWrite b a data s).readByte b i = s.readByte b i := by
  unfold State.readByte
  rw [memWrite_buf, if_pos rfl]
  revert hi
  generalize s.buf b = cur
  intro hi
  rcases h with h | h
  · rw [overwrite, List.append_assoc, List.append_assoc,
      List.getElem?_append_left (by simp; omega), List.getElem?_take_of_lt h]
  · rw [overwrite_of_le (by omega), List.getElem?_append_right (by simp; omega), List.getElem?_drop]
    congr 1
    simp
    omega

/-- Bytes of another buffer are not written. -/
theorem readByte_memWrite_of_ne {s : State} {b c : Buf} (h : c ≠ b) (a i : Nat) (data : Bytes) :
    (memWrite b a data s).readByte c i = s.readByte c i := by
  unfold State.readByte
  rw [memWrite_buf, if_neg h]

/-- A write of a length register keeps the canonical form: 16 bits hold no number above the capacity (R30). -/
theorem hostSetLen_memWf {s : State} (b : Buf) (n : BitVec 16) (h : s.memWf = true) :
    (hostSetLen b n s).memWf = true := by
  have hn := n.isLt
  unfold hostSetLen
  dsimp only
  split
  · exact setBuf_memWf h (by simp; omega)
  · refine (memWf_congr fun c => ?_).trans (setBuf_memWf (b := b)
      (v := s.buf b ++ freeBytes s.freeCtr (n.toNat - (s.buf b).length)) h (by simp; omega))
    cases c <;> rfl

/-- A poke keeps the canonical form: it never lengthens a buffer. -/
theorem hostPoke_memWf {s : State} (b : Buf) (a : Nat) (data : Bytes) (h : s.memWf = true) :
    (hostPoke b a data s).memWf = true := by
  have hb := memWf_iff.mp h b
  exact setBuf_memWf h (by simp; omega)

/-- A load that answers keeps the canonical form. -/
theorem hostLoad_memWf {s t : State} {b : Buf} {data : Bytes} (h : s.memWf = true)
    (ht : hostLoad b data s = .next t) : t.memWf = true := by
  unfold hostLoad at ht
  split at ht
  · next hl => cases ht; exact setBuf_memWf h (by simpa [Config.maxMsgLen] using hl)
  · cases ht

/-- Ending a command, taking a contract violation and `hs_fail` keep the canonical form: they empty buffers or leave
them. -/
theorem wipe_memWf (s : State) : s.wipe.memWf = s.memWf := rfl

theorem enterViolation_memWf {s : State} (c : Cause) (h : s.memWf = true) :
    (enterViolation c s).memWf = true := by
  rw [memWf_iff] at h ⊢
  intro b
  cases b
  · exact h .MSG
  · exact Nat.zero_le _
  · exact h .AD

theorem hsFail_memWf {s : State} (w : Bool) (h : s.memWf = true) : (hsFail w s).memWf = true := by
  rw [memWf_iff] at h ⊢
  intro b
  cases b
  · cases w
    · exact h .MSG
    · exact Nat.zero_le _
  · exact Nat.zero_le _
  · exact h .AD

end Sys2Proof.Machine
end

