-- ==== Sys2Proof/Laws/PasswordHash.lean ====
section
/-! SUPPORT. What one hash call of the password hash does,
    and that its counters in 64 bits and in unbounded arithmetic
give the same bytes. -/

namespace Sys2Proof.Machine

/-- Absorbing a list of inputs is a fold of the primitive (R135). -/
theorem absorbAll_eq (P : Params) (xs : List Bytes) (s : State) (x : Sponge) (h : s.ctxX = some x) :
    absorbAll P xs s = .ok () { s with ctxX := some (xs.foldl P.spAbsorb x) } := by
  induction xs generalizing s x with
  | nil => rw [absorbAll, List.foldl_nil, ← h]
  | cons y ys ih =>
    rw [absorbAll, spAbsorb_of_some (c := .X) h, Res.bind_ok, ih _ (P.spAbsorb x y) rfl]; rfl

/-- The hash call in closed form (R135); the counter moves by 1. -/
theorem phH_eq (P : Params) (xs : List Bytes) (s : State) :
    phH P xs s = .ok (refHash P s.phCnt.toNat xs) { s with phCnt := s.phCnt + 1, ctxX := none } := by
  rw [phH, spInit_eq, Res.bind_ok, spAbsorb_of_some (c := .X) rfl, Res.bind_ok]
  rw [absorbAll_eq P xs _ (P.spAbsorb (P.spInit []) (leBytes 8 s.phCnt.toNat)) rfl, Res.bind_ok,
      spSqueeze_of_some (c := .X) rfl, Res.bind_ok]
  rfl

/-- `le_k` reads its number modulo 2^(8k) (R10). -/
theorem leBytes_mod (k n : Nat) : leBytes k (n % 2 ^ (8 * k)) = leBytes k n := by
  unfold leBytes
  apply List.map_congr_left
  intro i hi
  rw [List.mem_range] at hi
  apply BitVec.eq_of_getLsbD_eq
  intro j hj
  simp only [BitVec.getLsbD_ofNat, hj, Nat.testBit_shiftRight, Nat.testBit_mod_two_pow]
  simp [show 8 * i + j < 8 * k by omega]

/-- A hash call reads its counter modulo 2^64 (R28, R135). -/
theorem refHash_mod (P : Params) (c : Nat) (xs : List Bytes) : refHash P (BitVec.ofNat 64 c).toNat xs = refHash P c xs := by
  unfold refHash; rw [BitVec.toNat_ofNat, show (64 : Nat) = 8 * 8 from rfl, leBytes_mod 8 c]

/-- `B[m] <- H(xs)` in closed form (R136). -/
theorem hashToBlock_eq {P : Params} {m : Nat} {xs : List Bytes} {s : State} {c : Nat} (hc : s.phCnt = BitVec.ofNat 64 c) :
    hashToBlock P m xs s = .ok () { s with
      phb := s.phb.set m (refHash P c xs), phCnt := BitVec.ofNat 64 (c + 1), ctxX := none } := by
  rw [hashToBlock, phH_eq, Res.bind_ok, hc, refHash_mod]
  simp [BitVec.ofNat_add]

end Sys2Proof.Machine
end

