-- ==== Sys2Proof/Tests/Slice0.lean ====
section
/-! SUPPORT. Tests. Section 1 decodes words written out bit by bit from spec/30_encoding.md; section 2 the checks of
WellFormed; section 3 the vectors of spec/95_test_vectors.md, with its TOY primitives; section 4 one step each over the
real interface; section 5, for every statement with hypotheses, states that meet them. Every expected value is the
spec's. -/

namespace Sys2Proof.Tests

open Sys2Proof Sys2Proof.Machine

/-! ### 1. Decoding (30_encoding.md R50 to R58, R64; 95 V-ENC, V-ENC-ILL) -/

/-- Format H: 18 bits of 0, adp, role, pat (4 bits), op (8 bits), R50 and R54. -/
theorem test_decode_format_H :
    decodeCommand 0b000000000000000000_0_1_0111_00000001#32 = .ok (.hsInit 7 .responder)
      ∧ decodeCommand 0b000000000000000000_0_0_1000_00000001#32 = .ok (.hsInit 8 .initiator)
      ∧ decodeCommand 0b000000000000000000_0_0_0000_00000010#32 = .ok .hsWrite
      ∧ decodeCommand 0b000000000000000000_0_0_0000_00000011#32 = .ok .hsRead
      ∧ decodeCommand 0b000000000000000000_0_0_0000_00000100#32 = .ok .hsEncpay
      ∧ decodeCommand 0b000000000000000000_0_0_0000_00000101#32 = .ok .hsDecpay
      ∧ decodeCommand 0b000000000000000000_0_0_0000_00000110#32 = .ok .hsFinal
      ∧ decodeCommand 0b000000000000000000_1_0_0000_00010000#32 = .ok (.tcEnc true)
      ∧ decodeCommand 0b000000000000000000_0_0_0000_00010000#32 = .ok (.tcEnc false)
      ∧ decodeCommand 0b000000000000000000_1_0_0000_00010001#32 = .ok (.tcDec true)
      ∧ decodeCommand 0b000000000000000000_0_0_0000_00010010#32 = .ok .tcRekeyS
      ∧ decodeCommand 0b000000000000000000_0_0_0000_00010011#32 = .ok .tcRekeyR
      ∧ decodeCommand 0b000000000000000000_0_0_0000_00010100#32 = .ok .tcRekey
      ∧ decodeCommand 0b000000000000000000_0_0_0000_00100000#32 = .ok .phHash
      ∧ decodeCommand 0b000000000000000000_0_0_0000_00111111#32 = .ok .reset :=
  ⟨rfl, rfl, rfl, rfl, rfl, rfl, rfl, rfl, rfl, rfl, rfl, rfl, rfl, rfl, rfl⟩

/-- Format T, four bits (R56). -/
theorem test_decode_format_T :
    decode .T [0b0000] = .ok .tokEnd ∧ decode .T [0b0001] = .ok .tokE ∧ decode .T [0b0010] = .ok .tokS
      ∧ decode .T [0b0011] = .ok .tokEe ∧ decode .T [0b0100] = .ok .tokEs ∧ decode .T [0b0101] = .ok .tokSe
      ∧ decode .T [0b0110] = .ok .tokSs ∧ decode .T [0b0111] = .ok .tokPsk
      ∧ decode .T [0b1000] = .error .reservedToken ∧ decode .T [0b1111] = .error .reservedToken
      ∧ decode .T [0b10000] = .error .tooWide :=
  ⟨rfl, rfl, rfl, rfl, rfl, rfl, rfl, rfl, rfl, rfl, rfl⟩

/-- Format U, three bits (R57). -/
theorem test_decode_format_U :
    decode .U [0b000] = .ok .ssInit ∧ decode .U [0b001] = .ok .ssMixhash ∧ decode .U [0b010] = .ok .ssMixkey
      ∧ decode .U [0b011] = .ok .ssEncrypt ∧ decode .U [0b100] = .ok .ssDecrypt
      ∧ decode .U [0b101] = .error .reservedMicro ∧ decode .U [0b1000] = .error .tooWide :=
  ⟨rfl, rfl, rfl, rfl, rfl, rfl, rfl⟩

/-- Format P, the context in bits 4:3 and the operation in bits 2:0 (R53, R58). -/
theorem test_decode_format_P :
    decode .P [0b00_000] = .ok (.spInit .T) ∧ decode .P [0b01_001] = .ok (.spAbsorb .S)
      ∧ decode .P [0b10_010] = .ok (.spSqueeze .R) ∧ decode .P [0b11_011] = .ok (.spEncrypt .X)
      ∧ decode .P [0b00_100] = .ok (.spDecrypt .T) ∧ decode .P [0b01_101] = .ok (.spRatchet .S)
      ∧ decode .P [0b10_110] = .ok (.spClone .R) ∧ decode .P [0b11_111] = .ok (.spLaneseed .X)
      ∧ decode .P [0b1_00_000] = .error .tooWide :=
  ⟨rfl, rfl, rfl, rfl, rfl, rfl, rfl, rfl, rfl⟩

/-- Format D, one bit (R53, R58). -/
theorem test_decode_format_D :
    decode .D [0b0] = .ok .dhCombine ∧ decode .D [0b1] = .ok .dhPub ∧ decode .D [0b10] = .error .tooWide :=
  ⟨rfl, rfl, rfl⟩

/-- The words of V-ENC-ILL, each with its reason (R64). -/
theorem test_illegal_words :
    decodeCommand 0x00000000 = .error .unknownOpcode ∧ decodeCommand 0x00000901 = .error .reservedPattern
      ∧ decodeCommand 0x00000F01 = .error .reservedPattern ∧ decodeCommand 0x00002001 = .error .unusedAdp
      ∧ decodeCommand 0x00002002 = .error .unusedAdp ∧ decodeCommand 0x00000102 = .error .unusedPat
      ∧ decodeCommand 0x00001010 = .error .unusedRole ∧ decodeCommand 0x0000403F = .error .reservedBits
      ∧ decodeCommand 0x00000007 = .error .unknownOpcode ∧ decodeCommand 0x00000015 = .error .unknownOpcode
      ∧ decodeCommand 0x00000021 = .error .unknownOpcode ∧ decodeCommand 0x000000FF = .error .unknownOpcode
      ∧ decodeCommand 0x80000002 = .error .reservedBits :=
  ⟨rfl, rfl, rfl, rfl, rfl, rfl, rfl, rfl, rfl, rfl, rfl, rfl, rfl⟩

/-- A command word lies in memory least significant byte first (R38(f)). -/
theorem test_word_byte_order : decode .H [0x01, 0x17, 0x00, 0x00] = .ok (.hsInit 7 .responder) := rfl

/-- A table row's bits, numbered as the table numbers them. -/
theorem test_table_words :
    decodeTableWord 32 0x00002010 = some (.tcEnc true) ∧ decodeTableWord 4 0x7 = some .tokPsk
      ∧ decodeTableWord 3 0x4 = some .ssDecrypt ∧ decodeTableWord 5 0x1D = some (.spRatchet .X)
      ∧ decodeTableWord 1 0x1 = some .dhPub ∧ decodeTableWord 32 0x00000901 = none :=
  ⟨rfl, rfl, rfl, rfl, rfl, rfl⟩

/-! ### 2. WellFormed: the one check, and an ill-formed term it refuses (R55, R64) -/

theorem test_wf_refuses_pattern_9 : (Instr.hsInit 9 .initiator).wf = false := rfl
theorem test_wf_refuses_pattern_15 : (Instr.hsInit 15 .responder).wf = false := rfl
theorem test_wf_accepts_pattern_8 : (Instr.hsInit 8 .responder).wf = true := rfl

/-! ### 3. The vectors of 95_test_vectors.md with its TOY primitives -/

/-- `mix` of the TOY sponge. -/
def mix (a b : BitVec 32) : BitVec 32 := (a ^^^ b) * 0x01000193

/-- All bytes of a string mixed in. -/
def mixAll (a : BitVec 32) (d : Bytes) : BitVec 32 := d.foldl (fun a b => mix a (b.setWidth 32)) a

/-- The byte `a >> 24`. -/
def topByte (a : BitVec 32) : Byte := (a >>> 24).setWidth 8

/-- The TOY squeeze. -/
def toySqueeze : Nat → BitVec 32 → BitVec 32 × Bytes
  | 0, a => (a, [])
  | n + 1, a => ((toySqueeze n (mix a 0xF2)).1, topByte (mix a 0xF2) :: (toySqueeze n (mix a 0xF2)).2)

/-- The TOY encryption, before its last mix. -/
def toyEncrypt : Bytes → BitVec 32 → BitVec 32 × Bytes
  | [], a => (a, [])
  | p :: r, a =>
    ((toyEncrypt r (mix a (p.setWidth 32))).1, (p ^^^ topByte a) :: (toyEncrypt r (mix a (p.setWidth 32))).2)

/-- The TOY decryption, before its last mix. -/
def toyDecrypt : Bytes → BitVec 32 → BitVec 32 × Bytes
  | [], a => (a, [])
  | c :: r, a =>
    ((toyDecrypt r (mix a ((c ^^^ topByte a).setWidth 32))).1,
      (c ^^^ topByte a) :: (toyDecrypt r (mix a ((c ^^^ topByte a).setWidth 32))).2)

theorem toyEncrypt_length (p : Bytes) (a : BitVec 32) : (toyEncrypt p a).2.length = p.length := by
  induction p generalizing a with
  | nil => rfl
  | cons x r ih => simp [toyEncrypt, ih]

theorem toyDecrypt_length (p : Bytes) (a : BitVec 32) : (toyDecrypt p a).2.length = p.length := by
  induction p generalizing a with
  | nil => rfl
  | cons x r ih => simp [toyDecrypt, ih]

theorem toyDecrypt_toyEncrypt (p : Bytes) (a : BitVec 32) :
    toyDecrypt (toyEncrypt p a).2 a = ((toyEncrypt p a).1, p) := by
  induction p generalizing a with
  | nil => rfl
  | cons x r ih =>
    have h : (x ^^^ topByte a) ^^^ topByte a = x := by
      rw [BitVec.xor_assoc, BitVec.xor_self, BitVec.xor_zero]
    rw [toyEncrypt, toyDecrypt, h, ih]

/-- A TOY sponge state from its 32-bit word. -/
def toySponge (a : BitVec 32) : Sponge := ⟨a.toNat⟩

/-- The word back. -/
def toyWord (s : Sponge) : BitVec 32 := BitVec.ofNat 32 s.code

@[simp] theorem toyWord_toySponge (a : BitVec 32) : toyWord (toySponge a) = a := by
  simp [toyWord, toySponge]

/-- The first two bytes, little-endian, of a TOY key. -/
def toyScalar (k : Key) : Nat := (k[0]'(by decide)).toNat + 256 * (k[1]'(by decide)).toNat

/-- A TOY key: two bytes and 30 bytes of 0. -/
def toyKey (n : Nat) : Key :=
  ((Vector.replicate 32 (0 : Byte)).set 0 (BitVec.ofNat 8 n) (by decide)).set 1 (BitVec.ofNat 8 (n / 256)) (by decide)

theorem toyScalar_toyKey {n : Nat} (h : n < 65536) : toyScalar (toyKey n) = n := by
  simp [toyScalar, toyKey]
  omega

/-- TOY `dh_combine` of a scalar and a public key. -/
def toyCombine (a y : Nat) : Option Key :=
  if 65521 ≤ y ∨ y ≤ 1 then none
  else if y ^ a % 65521 = 1 then none
  else some (toyKey (y ^ a % 65521))

/-- The TOY primitives, with the properties R69 and R80 ask for, and PH_MAX_SPACE 65536. -/
def toy : Params where
  spInit id := toySponge (mix (mixAll 0x811C9DC5 id) 0xF0)
  spAbsorb s d := toySponge (mix (mixAll (toyWord s) d) 0xF1)
  spSqueeze s n := (toySponge (toySqueeze n (toyWord s)).1, vecOfBytes n (toySqueeze n (toyWord s)).2)
  spEncrypt s p := (toySponge (mix (toyEncrypt p (toyWord s)).1 0xF3), (toyEncrypt p (toyWord s)).2)
  spDecrypt s c := (toySponge (mix (toyDecrypt c (toyWord s)).1 0xF3), (toyDecrypt c (toyWord s)).2)
  spRatchet s := toySponge (mix (mix (toyWord s) 0xF5) 0xF5)
  spLaneseed k b := toySponge (mix (mixAll (mix 0x811C9DC5 (b.setWidth 32)) k.toList) 0xF6)
  dhPub k := toyKey (17 ^ toyScalar k % 65521)
  dhCombine k pk := if (pk.toList.drop 2).all (· == 0) then toyCombine (toyScalar k) (toyScalar pk) else none
  phMaxSpace := 65536
  spEncrypt_length s p := toyEncrypt_length p _
  spDecrypt_length s c := toyDecrypt_length c _
  spDecrypt_spEncrypt s p := by simp [toyDecrypt_toyEncrypt]
  dhCombine_comm a b x y hx hy := by
    have lt : ∀ n, 17 ^ n % 65521 < 65536 := fun n => by
      have := Nat.mod_lt (17 ^ n) (show 0 < 65521 by decide); omega
    simp only [toyScalar_toyKey (lt _)] at hx hy
    have key : ∀ {p : Bool} {m n : Nat} {z : Key},
        (if p = true then toyCombine m n else none) = some z → z = toyKey (n ^ m % 65521) := by
      intro p m n z h
      split at h
      · unfold toyCombine at h
        split at h
        · cases h
        · split at h <;> cases h
          rfl
      · cases h
    rw [key hx, key hy, ← Nat.pow_mod, ← Nat.pow_mod, ← pow_mul, ← pow_mul, Nat.mul_comm]
  phMaxSpace_pos := by decide
  phMaxSpace_le := by decide

/-- A byte string of `n` bytes as it is printed: the first byte is the leftmost of the number. -/
def hex (n w : Nat) : Bytes := (leBytes n w).reverse

/-- The state a command body ends in. -/
def after (r : Res Unit) : State := finishCommand r

/-- V-TOY. -/
theorem test_toy_primitives :
    toyWord (toy.spInit []) = 0x750B7A6F ∧ toyWord (toy.spInit (protocolId .N)) = 0xD26D97A5
      ∧ toyWord (toy.spAbsorb (toySponge 0x750B7A6F) [0x61, 0x62, 0x63]) = 0xAD403A90
      ∧ (toy.spSqueeze (toySponge 0x750B7A6F) 4).2.toList = hex 4 0xde6bc3bf
      ∧ (toy.spEncrypt (toySponge 0x750B7A6F) [0x61, 0x62, 0x63]).2 = hex 3 0x142dbc
      ∧ toyWord (toy.spRatchet (toySponge 0x750B7A6F)) = 0x7856F401
      ∧ toyWord (toy.spLaneseed (Vector.replicate 32 0) 0xFF) = 0xCB96F4A8
      ∧ toy.dhPub (toyKey 1001) = toyKey 15838 ∧ toy.dhCombine (toyKey 1002) (toyKey 27856) = some (toyKey 32216)
      ∧ toy.dhCombine (toyKey 2001) (toyKey 1) = none := by decide +kernel

/-- V-ENC-NONCE. -/
theorem test_nonce_bytes :
    nonceBytes 0 = hex 8 0 ∧ nonceBytes 1 = hex 8 0x0100000000000000
      ∧ nonceBytes 258 = hex 8 0x0201000000000000
      ∧ nonceBytes (BitVec.ofNat 64 (2 ^ 64 - 2)) = hex 8 0xfeffffffffffffff := by decide +kernel

/-- A keyed transcript, as V-SS has it before SS_ENCRYPT. -/
def keyedState : State := { State.reset with ctxT := some (toySponge 0x6AFE4B23), keyed := true }

/-- What V-SS encrypts "Lorem" to. -/
def loremBlock : Bytes := hex 21 0x26b24a5edc_443ef04ecb063a4059167d0d144da6a6

/-- V-SS, SS_ENCRYPT, right and without a key. -/
theorem test_ss_encrypt :
    let lorem := asciiBytes ['L', 'o', 'r', 'e', 'm']
    finishInternal (ssEncrypt toy lorem keyedState)
        = { keyedState with res := loremBlock, ctxT := some (toySponge 0xA689B153) }
      ∧ (finishInternal (ssEncrypt toy lorem { keyedState with keyed := false })).cv = .notKeyed := by
  decide +kernel

/-- V-SS, SS_DECRYPT: right, with one bit flipped, too short. -/
theorem test_ss_decrypt :
    finishInternal (ssDecrypt toy loremBlock keyedState)
        = { keyedState with
            res := asciiBytes ['L', 'o', 'r', 'e', 'm'], ctxT := some (toySponge 0xA689B153) }
      ∧ finishInternal (ssDecrypt toy (0x27 :: loremBlock.tail) keyedState)
        = { keyedState with err := .messageCorrupted, ctxT := some (toySponge 0x8EE3B1A8) }
      ∧ finishInternal (ssDecrypt toy (loremBlock.take 15) keyedState)
        = { keyedState with err := .ciphertextTooShort } := by decide +kernel

/-- V-SS: SS_INIT, SS_MIXHASH and SS_MIXKEY, one after the other. -/
theorem test_ss_mix :
    let a := finishInternal (noResult (ssInit toy (protocolId .XX) State.reset))
    let b := finishInternal (noResult
      (ssMixhash toy ((List.range 32).map fun i => BitVec.ofNat 8 (i + 1)) a))
    let c := finishInternal (noResult
      (ssMixkey toy ((List.range 32).map fun i => BitVec.ofNat 8 (0x80 + i)) b))
    a.ctxT = some (toySponge 0x96FA3ED1) ∧ b.ctxT = some (toySponge 0x0E11A8C0) ∧ b.keyed = false
      ∧ c = keyedState := by decide +kernel

/-- The initiator of V-KEYS: K.S, K.E, K.RS, K.PSK loaded. -/
def initiatorKeys : State :=
  { State.reset with kS := some (toyKey 1001), kE := some (toyKey 1002), kRS := some (toyKey 32472) }

/-- The responder of V-KEYS. -/
def responderKeys : State :=
  { State.reset with kS := some (toyKey 2001), kE := some (toyKey 2002), kRS := some (toyKey 15838) }

/-- V-ENC-STATUS and P1: HS_INIT of XX on either side; an unneeded slot is cleared. -/
theorem test_hs_init :
    let s := after (hsInit toy 7 .initiator initiatorKeys)
    let t := after (hsInit toy 7 .responder responderKeys)
    s.status = 0x00700200 ∧ s.ctxT = some (toySponge 0x96FA3ED1) ∧ s.kv = 0x03
      ∧ t.status = 0x00780200 ∧ t.ctxT = some (toySponge 0x96FA3ED1) ∧ t.kv = 0x03 := by decide +kernel

/-- P2: HS_WRITE of N, then HS_ENCPAY of "hello". -/
theorem test_hs_write_and_encpay :
    let s := after (hsWrite toy (after (hsInit toy 1 .initiator initiatorKeys)))
    let t := after (hsEncpay toy { s with dat := asciiBytes ['h', 'e', 'l', 'l', 'o'] })
    s.status = 0x0011AA00 ∧ s.msg = (toyKey 7162).toList ∧ s.ctxT = some (toySponge 0x8973B67D)
      ∧ t.status = 0x0011EA00 ∧ t.ctxT = some (toySponge 0xEB0CCD40)
      ∧ t.msg = (toyKey 7162).toList ++ hex 21 0xe113065c02_3024988ae65ed545bf05d432e2220aeb := by decide +kernel

/-- V-PAT, X: message 0 carries `e es s ss`. -/
theorem test_hs_write_X :
    (after (hsWrite toy (after (hsInit toy 2 .initiator initiatorKeys)))).msg = (toyKey 7162).toList
      ++ hex 32 0xb5535194280696c231a23d111b21735c5d884fb331d2ea86988ffd06f67a81b4
      ++ hex 16 0x88b0f1988ba66f2108a6e8f99eedfdaf := by decide +kernel

/-- P2 on the responder's side: HS_READ, then HS_DECPAY of the payload and of one with a bit flipped. -/
theorem test_hs_read_and_decpay :
    let m := (toyKey 7162).toList ++ hex 21 0xe113065c02_3024988ae65ed545bf05d432e2220aeb
    let s := after (hsRead toy { after (hsInit toy 1 .responder responderKeys) with msg := m })
    let t := after (hsDecpay toy s)
    let u := after (hsDecpay toy { s with msg := m.set 36 0x03 })
    s.status = 0x00192A00 ∧ s.kRE = some (toyKey 7162) ∧ s.off = 32
      ∧ t.status = 0x00196A00 ∧ t.dat = asciiBytes ['h', 'e', 'l', 'l', 'o']
      ∧ u.status = 0x00190E02 ∧ u.dat = [] ∧ u.ctxT = none ∧ u.kv = 0x08 := by decide +kernel

/-- V-HS-ERR: a frame of 31 bytes, and the TOY identity as a public key. -/
theorem test_hs_read_errors :
    let s := after (hsInit toy 1 .responder responderKeys)
    let t := after (hsRead toy { s with msg := List.replicate 31 0 })
    let u := after (hsRead toy { s with msg := (toyKey 1).toList })
    t.status = 0x00180E01 ∧ t.kv = 0x00 ∧ u.status = 0x00180E03 ∧ u.kv = 0x08 := by decide +kernel

/-- P2: HS_FINAL of both sides, lanes crossed. -/
theorem test_hs_final :
    let a := { State.reset with
      phase := .active, pattern := .N, seq := 1, lastw := true, msgcur := true, paydone := true, keyed := true
      off := 32, ctxT := some (toySponge 0xEB0CCD40), kE := some (toyKey 1002), kRS := some (toyKey 32472) }
    let i := after (hsFinal toy a)
    let r := after (hsFinal toy { a with role := .responder })
    i.status = 0x0012CC00 ∧ i.kv = 0x04 ∧ i.ctxS = some (toySponge 0x89DE9130)
      ∧ i.ctxR = some (toySponge 0xBC16D4A3) ∧ r.ctxS = i.ctxR ∧ r.ctxR = i.ctxS := by decide +kernel

/-- The transport context of section 6, after NK: I's side. -/
def transportI : State :=
  { State.reset with
    phase := .done, pattern := .NK, seq := 2, tcValid := true
    ctxS := some (toySponge 0x5CB8A927), ctxR := some (toySponge 0x1CA86E60) }

/-- R's side. -/
def transportR : State :=
  { transportI with role := .responder, lastw := true, ctxS := transportI.ctxR, ctxR := transportI.ctxS }

/-- V-TC-1, 9, 10: TC_ENC without, with empty, with some associated data. -/
theorem test_tc_enc :
    let s := { transportI with dat := asciiBytes ['m', '0'] }
    (after (tcEnc toy false s)).msg = hex 18 0x66819b0812e1a2d211bb42f0800a091124f3
      ∧ (after (tcEnc toy false s)).status = 0x00521400 ∧ (after (tcEnc toy false s)).snonce = 1
      ∧ (after (tcEnc toy true s)).msg = hex 18 0x5846057448dc83fced7126a7cb6694e0879f
      ∧ (after (tcEnc toy true { s with ad := asciiBytes ['h', 'd', 'r'] })).msg
        = hex 18 0x1556a156e04749e60847eb4dc7a1ea34cd48 := by decide +kernel

/-- V-TC-4 to V-TC-6: in order, out of order, after the abort. -/
theorem test_tc_dec :
    let s := after (tcDec toy false { transportR with msg := hex 18 0x66819b0812e1a2d211bb42f0800a091124f3 })
    let t := after (tcDec toy false { s with msg := hex 18 0x25d62f06cfdaf38b19d408dcc04b5449d2fc })
    let u := after (tcDec toy false { t with msg := hex 18 0x46676e7de87fb1cc1df0842a9090d28f8e53 })
    s.status = 0x005A9400 ∧ s.dat = asciiBytes ['m', '0'] ∧ s.rnonce = 1
      ∧ t.status = 0x005E9402 ∧ t.dat = [] ∧ t.rnonce = 1
      ∧ u.status = 0x005C953F := by decide +kernel

/-- V-TC-12a, 12b: a short frame, an empty message. -/
theorem test_tc_short_and_empty :
    (after (tcEnc toy false transportI)).msg = hex 16 0xfd109a1d8191f8a1271e72cbbaefffa5
      ∧ (after (tcDec toy false { transportR with msg := hex 16 0xfd109a1d8191f8a1271e72cbbaefffa5 })).rnonce = 1
      ∧ after (tcDec toy false { transportR with msg := List.replicate 15 0 })
        = { transportR with msg := List.replicate 15 0, err := .ciphertextTooShort } := by decide +kernel

/-- V-TC-13, 17: the rekey commands. -/
theorem test_tc_rekey :
    (after (tcRekeyS toy { transportI with snonce := 1 }))
        = { transportI with snonce := 1, ctxS := some (toySponge 0x554F6AD9) }
      ∧ (after (tcRekeyR toy transportR)) = { transportR with ctxR := some (toySponge 0x554F6AD9) }
      ∧ (after (tcRekey toy transportI))
        = { transportI with ctxS := some (toySponge 0x554F6AD9), ctxR := some (toySponge 0xEBF23C0E) } := by
  decide +kernel

/-- Section 8: PH_HASH of "password" and "salt" with N = 2, T = 1; PH.CNT and PHB are wiped. -/
theorem test_ph_hash :
    let s := { State.reset with
      dat := asciiBytes ['p', 'a', 's', 's', 'w', 'o', 'r', 'd'], ad := asciiBytes ['s', 'a', 'l', 't'], p0 := 2, p1 := 1 }
    after (phHash toy s) = { s with
      digest := keyOfBytes (hex 32 0x9d86752c36661ee6cd378ae2ffc7470f0317b170e1453160b1215e56497d198f) } := by
  decide +kernel

/-! ### 4. One step over the machine's own parameters (95 section 7, V-ENC-STATUS, V-ENC-ILL) -/

/-- The machine with one event waiting. -/
def waiting (e : Event) (s : State) : State := { s with inbox := [e] }

/-- TC_ENC from reset: STATUS 0x0000019F. -/
theorem test_step_tc_enc_from_reset :
    ∃ t, step (waiting (.cmd 0x00000010) State.reset) = .next t ∧ t.status = 0x0000019F := ⟨_, rfl, rfl⟩

/-- An illegal word from reset: STATUS 0x0000011F. -/
theorem test_step_illegal_from_reset :
    ∃ t, step (waiting (.cmd 0x00000901) State.reset) = .next t ∧ t.status = 0x0000011F := ⟨_, rfl, rfl⟩

/-- HS_WRITE while IDLE is CV_SEQ. -/
theorem test_step_hs_write_idle :
    ∃ t, step (waiting (.cmd 0x00000002) State.reset) = .next t ∧ t.cv = .seq ∧ t.fatal = true := ⟨_, rfl, rfl, rfl⟩

/-- HS_INIT of XX with K.E loaded and K.S not is CV_KEYSLOT. -/
theorem test_step_hs_init_without_key :
    ∃ t, step (waiting (.cmd 0x00000701) { State.reset with kE := some Key.zero }) = .next t
      ∧ t.cv = .keySlot := ⟨_, rfl, rfl⟩

/-- P4: PH_HASH with P0 = 0: STATUS 0x0000018F, DATLEN 0. -/
theorem test_step_ph_hash_of_0 :
    ∃ t, step (waiting (.cmd 0x00000020) { State.reset with dat := [1] }) = .next t
      ∧ t.status = 0x0000018F ∧ t.dat = [] := ⟨_, rfl, rfl, rfl⟩

/-- RESET while FATAL = 1, and a word that is not exactly RESET. -/
theorem test_step_reset :
    step (waiting (.cmd 0x0000003F) { State.reset with fatal := true, msg := [1] }) = .next State.reset
      ∧ ∃ t, step (waiting (.cmd 0x0000403F) { State.reset with fatal := true }) = .next t
        ∧ t.fatal = true ∧ t.err = .contractViolation := ⟨rfl, _, rfl, rfl, rfl⟩

/-- A host write of a register: P0, a length register that truncates, a read-only register, one that does not exist. -/
theorem test_step_host_registers :
    step (waiting (.reg 2 7) State.reset) = .next { State.reset with p0 := 7 }
      ∧ step (waiting (.reg 4 1) { State.reset with msg := [8, 9] }) = .next { State.reset with msg := [8] }
      ∧ step (waiting (.reg 7 1) State.reset) = .next State.reset
      ∧ step (waiting (.reg 10 1) State.reset) = .fault .noSuchRegister := ⟨rfl, rfl, rfl, rfl⟩

/-- An instruction placed by withFetchWord is the one the next step runs. -/
theorem test_withFetchWord :
    step (State.reset.withFetchWord 32 0x0000003F) = .next State.reset
      ∧ step (State.reset.withFetchWord 4 0x0) = .next State.reset := ⟨rfl, rfl⟩

/-! ### 5. States that meet the hypotheses of the statements

One theorem `witness_<statement>` for each statement with hypotheses; with several clauses, one conjunct for each, at the
ends of its range. -/

/-- Some sponge state. -/
def anySponge : Sponge := ⟨0⟩

/-- Some key. -/
def anyKey : Key := Vector.replicate 32 7

/-- An XX initiator right after HS_INIT. -/
def xxI : State :=
  { State.reset with
    phase := .active, pattern := .XX, ctxT := some anySponge, kS := some anyKey, kE := some anyKey }

/-- An XX responder right after HS_INIT. -/
def xxR : State := { xxI with role := .responder }

/-- An N initiator after its message, with the message in MSG. -/
def nWriter : State :=
  { State.reset with
    phase := .active, pattern := .N, seq := 1, off := 32, msgcur := true, lastw := true, keyed := true
    ctxT := some anySponge, kE := some anyKey, kRS := some anyKey, msg := List.replicate 32 0 }

/-- An N responder after that message, with a payload block of a tag alone. -/
def nReader : State :=
  { State.reset with
    phase := .active, role := .responder, pattern := .N, seq := 1, off := 32, msgcur := true, keyed := true
    ctxT := some anySponge, kS := some anyKey, kRE := some anyKey, msg := List.replicate 48 0 }

/-- A transport context. -/
def lanes : State :=
  { State.reset with phase := .done, tcValid := true, ctxS := some anySponge, ctxR := some anySponge }

/-- A contract violation latched. -/
def violated : State := { State.reset with fatal := true, cv := .seq, err := .contractViolation }

/-- The peer of an IK handshake: the responder's public static key is known to the initiator. -/
def ikI : State :=
  { xxI with pattern := .IK, kRS := some (Config.params.dhPub anyKey) }

/-- The IK responder. -/
def ikR : State := { xxR with pattern := .IK }

theorem consistent_xxI : xxI.Consistent := by constructor <;> decide
theorem consistent_xxR : xxR.Consistent := by constructor <;> decide
theorem holds_xxI : xxI.Holds := by constructor <;> decide
theorem holds_xxR : xxR.Holds := by constructor <;> decide

theorem transientsClear_reset : State.reset.transientsClear :=
  ⟨rfl, rfl, rfl, rfl, rfl, rfl, rfl, rfl, rfl, rfl, rfl, rfl, rfl⟩

theorem inv_xxI : xxI.Inv := ⟨consistent_xxI, rfl, transientsClear_reset, fun _ _ => holds_xxI⟩
theorem inv_xxR : xxR.Inv := ⟨consistent_xxR, rfl, transientsClear_reset, fun _ _ => holds_xxR⟩

theorem inv_ikI : ikI.Inv := by
  refine ⟨?_, rfl, transientsClear_reset, fun _ _ => ?_⟩
  · constructor <;> decide
  · constructor <;> first | rfl | decide

theorem inv_ikR : ikR.Inv := by
  refine ⟨?_, rfl, transientsClear_reset, fun _ _ => ?_⟩
  · constructor <;> decide
  · constructor <;> decide

/-- A frame of a tag alone that is not the tag the receive lane gives: every bit of it differs. -/
def badFrame : Bytes :=
  (Config.params.spSqueeze
    (Config.params.spDecrypt (Config.params.spAbsorb anySponge (leBytes 8 0)) []).1 16).2.toList.map fun b => ~~~ b

/-- TC_DEC of that frame ends in MessageCorrupted. -/
theorem tcDec_badFrame :
    ∃ t, exec (.tcDec false) { lanes with msg := badFrame } = .next t
      ∧ t.err = .messageCorrupted ∧ t.tcAborted = true ∧ t.fatal = false := by
  have hl : badFrame.length = 16 := by simp [badFrame]
  have ne : ∀ l : Bytes, l ≠ [] → l ≠ l.map fun b => ~~~ b := by
    intro l hl h
    cases l with
    | nil => exact hl rfl
    | cons b r =>
      have hb : ∀ b : Byte, b ≠ ~~~ b := by decide
      exact hb b (List.cons.inj h).1
  rw [exec_command_good rfl (by nofun) rfl, commandBody,
    tcDec_of_checks (x := anySponge) rfl rfl (by simp [hl]) (by decide) (by simp [hl]) rfl]
  simp only [hl, Nat.sub_self, List.take_zero, List.drop_zero, Bool.false_eq_true, if_false]
  rw [if_neg]
  · exact ⟨_, rfl, rfl, rfl, rfl⟩
  · exact ne _ (fun h => by simpa using congrArg List.length h)

/-- A frame of a tag alone that is the tag the receive lane gives. -/
def goodFrame : Bytes :=
  (Config.params.spEncrypt (Config.params.spAbsorb anySponge (leBytes 8 0)) []).2
    ++ (Config.params.spSqueeze
      (Config.params.spEncrypt (Config.params.spAbsorb anySponge (leBytes 8 0)) []).1 16).2.toList

/-- TC_DEC of that frame ends OK. -/
theorem tcDec_goodFrame :
    ∃ t, exec (.tcDec false) { lanes with msg := goodFrame } = .next t ∧ t.err = .ok ∧ t.fatal = false := by
  unfold goodFrame
  have hc : (Config.params.spEncrypt (Config.params.spAbsorb anySponge (leBytes 8 0)) []).2 = [] :=
    List.length_eq_zero_iff.mp (Config.params.spEncrypt_length _ _)
  have hd := Config.params.spDecrypt_spEncrypt (Config.params.spAbsorb anySponge (leBytes 8 0)) []
  rw [hc] at hd
  rw [hc, List.nil_append, exec_command_good rfl (by nofun) rfl, commandBody,
    tcDec_of_checks (x := anySponge) rfl rfl (by simp) (by decide) (by simp) rfl]
  simp only [Vector.length_toList, Nat.sub_self, List.take_zero, List.drop_zero, Bool.false_eq_true, if_false]
  rw [if_pos]
  · exact ⟨_, rfl, rfl, rfl⟩
  · exact congrArg (fun r => (Config.params.spSqueeze r.1 16).2.toList) hd

/-- HS_WRITE of XX message 0 ends well. -/
theorem hsWrite_xxI : ∃ t, exec .hsWrite xxI = .next t ∧ t.err = .ok ∧ t.fatal = false := by
  have h : hsWrite Config.params xxI = .ok () (hsWriteEnd (advanceOff 32 { hsWriteStart xxI with
      msg := (Config.params.dhPub anyKey).toList
      ctxT := some (Config.params.spAbsorb anySponge (Config.params.dhPub anyKey).toList) })) := by
    have hw : tokenWrite (Config.params.dhPub anyKey).toList (hsWriteStart xxI)
        = .ok () { hsWriteStart xxI with msg := (Config.params.dhPub anyKey).toList } :=
      (tokenWrite_of_le (by simp [hsWriteStart]) (by simp [hsWriteStart])).trans (by simp [hsWriteStart])
    have ht : runTokens Config.params (rom .XX 0) (hsWriteStart xxI) = .ok () (advanceOff 32 { hsWriteStart xxI with
        msg := (Config.params.dhPub anyKey).toList
        ctxT := some (Config.params.spAbsorb anySponge (Config.params.dhPub anyKey).toList) }) := by
      show ((tokenWrite (Config.params.dhPub anyKey).toList (hsWriteStart xxI)).bind _).bind _ = _
      rw [hw]
      rfl
    rcases hsWrite_cases Config.params xxI with ⟨_, hn⟩ | ⟨_, _, _, hc⟩
    · exact absurd ⟨rfl, by decide, rfl⟩ hn
    · rw [hc, show rom xxI.pattern xxI.seq.toNat = rom .XX 0 from rfl, ht]
  rw [exec_command_good rfl (by nofun) rfl, commandBody, h]
  exact ⟨_, rfl, rfl, rfl⟩

theorem witness_DecodingAnEncodingGivesItBack :
    (Instr.hsInit 8 .responder).wf = true ∧ (Instr.hsInit 0 .initiator).wf = true
      ∧ decode .H (bytesOfWord 0x0000003F) = .ok .reset ∧ decode .P [0x1F] = .ok (.spLaneseed .X)
      ∧ (waiting (.issue .T 0x08 Operands.zero) State.reset).inbox = [.issue .T 0x08 Operands.zero]
      ∧ (∀ i, decode .T [0x08] ≠ .ok i) := ⟨rfl, rfl, rfl, rfl, rfl, by nofun⟩

theorem witness_IllegalWordsAreThoseListed :
    (waiting (.cmd 0x00000901) State.reset).inbox = [.cmd 0x00000901]
      ∧ (Event.cmd 0x00000901).word = some (.H, bytesOfWord 0x00000901)
      ∧ ((0x00000901 : Word32).extractLsb' 0 8).toNat = 0x01 ∧ ((0x00000901 : Word32).extractLsb' 8 4).toNat = 9
      ∧ State.reset.fatal = false
      ∧ (waiting (.reg 0 0x00004002) violated).inbox = [.reg 0 0x00004002]
      ∧ (Event.reg 0 0x00004002).word = some (.H, bytesOfWord 0x00004002)
      ∧ (0x00004002 : Word32).extractLsb' 14 18 ≠ 0 ∧ violated.fatal = true
      ∧ ((0x00000801 : Word32).extractLsb' 8 4).toNat = 8 := by decide

theorem witness_StepRunsTheDecodedInstruction :
    (waiting (.cmd 0x00000006) State.reset).inbox = [.cmd 0x00000006]
      ∧ (Event.cmd 0x00000006).word = some (.H, bytesOfWord 0x00000006)
      ∧ decode .H (bytesOfWord 0x00000006) = .ok .hsFinal
      ∧ (Event.issue .T 0x01 Operands.zero).word = some (.T, [0x01]) ∧ decode .T [0x01] = .ok .tokE :=
  ⟨rfl, rfl, rfl, rfl, rfl⟩

theorem witness_IdleHoldsAllState : xxI.inbox = [] := rfl

theorem witness_HostLoadsKeySlotsOutsideAHandshake :
    (waiting (.slot .S anyKey) violated).inbox = [.slot .S anyKey] ∧ violated.phase ≠ .active ∧ Slot.S ≠ .RE
      ∧ (waiting (.slot .S anyKey) xxI).inbox = [.slot .S anyKey] ∧ xxI.phase = .active
      ∧ (waiting (.slot .RE anyKey) State.reset).inbox = [.slot .RE anyKey] ∧ State.reset.phase ≠ .active := by
  decide

theorem witness_HostWritesRegistersAndBuffers :
    (waiting (.reg 2 0xFFFFFFFF) State.reset).inbox = [.reg 2 0xFFFFFFFF]
      ∧ (waiting (.reg 3 0) State.reset).inbox = [.reg 3 0]
      ∧ (waiting (.reg 4 0xFFFF0001) { State.reset with msg := [1] }).inbox = [.reg 4 0xFFFF0001]
      ∧ ((0xFFFF0001 : Word32).extractLsb' 0 16).toNat ≤ ([1] : Bytes).length
      ∧ (waiting (.reg 5 0) State.reset).inbox = [.reg 5 0] ∧ State.reset.dat.length = 0
      ∧ (waiting (.reg 6 65535) { State.reset with ad := [1, 2] }).inbox = [.reg 6 65535]
      ∧ ([1, 2] : Bytes).length < ((65535 : Word32).extractLsb' 0 16).toNat
      ∧ (waiting (.reg 9 1) State.reset).inbox = [.reg 9 1]
      ∧ (waiting (.reg 10 1) State.reset).inbox = [.reg 10 1] ∧ 9 < 10
      ∧ (waiting (.load .AD (List.replicate 65535 0)) State.reset).inbox = [.load .AD (List.replicate 65535 0)]
      ∧ (List.replicate 65535 (0 : Byte)).length ≤ 65535 ∧ 65535 < (List.replicate 65536 (0 : Byte)).length
      ∧ (waiting (.poke .MSG 1 [7, 8]) { State.reset with msg := [1, 2] }).inbox = [.poke .MSG 1 [7, 8]]
      ∧ (waiting (.poke .MSG 1 [7, 8]) { State.reset with msg := [1, 2] }).msg.length = 2 := by
  rw [List.length_replicate, List.length_replicate]
  exact ⟨rfl, rfl, rfl, by decide, rfl, rfl, rfl, by decide, rfl, rfl, by decide, rfl, by decide, by decide, rfl, rfl⟩

theorem witness_ContractViolationWipesAndLatches :
    (∃ t, exec .hsWrite State.reset = .next t ∧ t.fatal = true ∧ t.seq = State.reset.seq)
      ∧ (∃ t, exec (.tcEnc true) State.reset = .next t ∧ t.fatal = true)
      ∧ Instr.hsWrite.format = .H ∧ State.reset.fatal = false :=
  ⟨⟨_, rfl, rfl, rfl⟩, ⟨_, rfl, rfl⟩, rfl, rfl⟩

theorem witness_FatalRefusesEveryWordButReset :
    (waiting (.cmd 0x0000403F) violated).inbox = [.cmd 0x0000403F] ∧ violated.fatal = true
      ∧ (Event.cmd 0x0000403F).word = some (.H, bytesOfWord 0x0000403F)
      ∧ (Event.reg 0 0x0000003F).word = some (.H, bytesOfWord 0x0000003F)
      ∧ (0x0000403F : Word32) ≠ 0x0000003F ∧ (0x0000403F : Word32).extractLsb' 0 8 = 0x3F
      ∧ State.reset.fatal = false ∧ (Event.slot .S anyKey).isHost = true ∧ (Event.slot .S anyKey).word = none
      ∧ ∃ t, perform (.slot .S anyKey) violated = .next t :=
  ⟨rfl, rfl, rfl, rfl, by decide, by decide, rfl, rfl, rfl, _, rfl⟩

theorem witness_ResetHasTheEffectOfHardwareReset :
    (waiting (.reg 0 0x0000013F) State.reset).inbox = [.reg 0 0x0000013F]
      ∧ (Event.reg 0 0x0000013F).word = some (.H, bytesOfWord 0x0000013F)
      ∧ (0x0000013F : Word32).extractLsb' 0 8 = 0x3F ∧ (0x0000013F : Word32) ≠ 0x0000003F
      ∧ State.reset.fatal = false ∧ violated.fatal = true := by decide

theorem witness_HandshakeCommandsCheckThePhaseFirst :
    Instr.hsFinal ∈ [Instr.hsWrite, .hsRead, .hsEncpay, .hsDecpay, .hsFinal]
      ∧ lanes.fatal = false ∧ lanes.phase = .done
      ∧ ({ State.reset with phase := .failed } : State).phase = .failed ∧ State.reset.phase = .idle := by decide

theorem witness_TransportCommandsCheckTheContextFirst :
    Instr.tcRekey ∈ [Instr.tcEnc false, .tcEnc true, .tcDec false, .tcDec true, .tcRekeyS, .tcRekeyR, .tcRekey]
      ∧ State.reset.fatal = false ∧ State.reset.tcValid = false
      ∧ lanes.tcValid = true ∧ ({ lanes with tcAborted := true } : State).tcAborted = true := by decide

theorem witness_RuntimeErrorsEndAStateMachine :
    (∃ t, exec (.tcDec true) { lanes with msg := List.replicate 15 0 } = .next t ∧ t.err = .ciphertextTooShort)
      ∧ (∃ t, exec .hsRead { xxR with msg := List.replicate 31 0 } = .next t ∧ t.err = .ciphertextTooShort)
      ∧ (∃ t, exec (.tcDec false) { lanes with msg := badFrame } = .next t ∧ t.err = .messageCorrupted)
      ∧ (∃ t, exec .hsDecpay { nReader with msg := [] } = .next t ∧ t.err = .ciphertextTooShort)
      ∧ lanes.fatal = false ∧ xxR.fatal = false ∧ nReader.fatal = false :=
  ⟨⟨_, rfl, rfl⟩, ⟨_, rfl, rfl⟩, ⟨_, tcDec_badFrame.choose_spec.1, tcDec_badFrame.choose_spec.2.1⟩, ⟨_, rfl, rfl⟩,
    rfl, rfl, rfl⟩

theorem witness_CommandsEndOnlyAsTabled :
    xxI.Inv ∧ xxI.fatal = false ∧ Instr.hsWrite.format = .H ∧ Instr.hsWrite.wf = true
      ∧ ∃ t, exec .hsWrite xxI = .next t := ⟨inv_xxI, rfl, rfl, rfl, exec_next _ _⟩

theorem witness_CommandsWriteOnlyTheirWriteSet :
    (∃ t, exec (.hsInit 7 .initiator) { State.reset with kS := some anyKey, kE := some anyKey } = .next t
        ∧ t.fatal = false)
      ∧ (∃ t, exec .hsWrite xxI = .next t ∧ t.err = .ok ∧ t.fatal = false)
      ∧ (∃ t, exec .hsRead { xxR with msg := [] } = .next t ∧ t.fatal = false)
      ∧ (∃ t, exec .hsEncpay nWriter = .next t ∧ t.fatal = false ∧ t.err = .ok)
      ∧ (∃ t, exec .hsDecpay { nReader with msg := [] } = .next t ∧ t.fatal = false)
      ∧ (∃ t, exec .hsFinal nWriter = .next t ∧ t.fatal = false)
      ∧ (∃ t, exec (.tcEnc true) lanes = .next t ∧ t.fatal = false)
      ∧ (∃ t, exec (.tcDec false) { lanes with msg := badFrame } = .next t ∧ t.fatal = false)
      ∧ (∃ t, exec .tcRekeyS lanes = .next t ∧ t.fatal = false)
      ∧ (∃ t, exec .tcRekeyR lanes = .next t ∧ t.fatal = false)
      ∧ (∃ t, exec .tcRekey lanes = .next t ∧ t.fatal = false) :=
  ⟨⟨_, rfl, rfl⟩, hsWrite_xxI, ⟨_, rfl, rfl⟩, ⟨_, rfl, rfl, rfl⟩, ⟨_, rfl, rfl⟩, ⟨_, rfl, rfl⟩, ⟨_, rfl, rfl⟩,
    ⟨_, tcDec_badFrame.choose_spec.1, tcDec_badFrame.choose_spec.2.2.2⟩, ⟨_, rfl, rfl⟩, ⟨_, rfl, rfl⟩, ⟨_, rfl, rfl⟩⟩

theorem witness_AbortedIsOneWay :
    (∃ t, exec (.tcDec false) { lanes with msg := badFrame } = .next t
        ∧ ({ lanes with msg := badFrame } : State).tcAborted = false ∧ t.tcAborted = true)
      ∧ (∃ t, exec .tcRekey { lanes with tcAborted := true } = .next t)
      ∧ ({ lanes with tcAborted := true } : State).tcAborted = true :=
  ⟨⟨_, tcDec_badFrame.choose_spec.1, rfl, tcDec_badFrame.choose_spec.2.2.1⟩, ⟨_, rfl⟩, rfl⟩

theorem witness_KeyedIsSetOnlyByMixingAKey :
    ∃ t, exec .ssMixkey xxI = .next t ∧ xxI.keyed = false ∧ t.keyed = true := ⟨_, rfl, rfl, rfl⟩

theorem witness_FatalIsSticky : violated.fatal = true ∧ Instr.phHash ≠ .reset := by decide

theorem witness_NoncesCountSuccessesAndNeverWrap :
    (∃ t, exec (.tcEnc false) { lanes with snonce := BitVec.ofNat 64 (2 ^ 64 - 2) } = .next t
        ∧ t.err = .ok ∧ t.snonce = BitVec.ofNat 64 (2 ^ 64 - 1))
      ∧ (∃ t, exec (.tcDec false) { lanes with msg := goodFrame } = .next t ∧ t.err = .ok)
      ∧ (∃ t, exec .hsFinal nWriter = .next t ∧ t.err = .ok)
      ∧ ∃ t, exec .reset lanes = .next t :=
  ⟨⟨_, rfl, rfl, by decide⟩, ⟨_, tcDec_goodFrame.choose_spec.1, tcDec_goodFrame.choose_spec.2.1⟩, ⟨_, rfl, rfl⟩, _, rfl⟩

theorem witness_EveryStepKeepsTheFieldsInAgreement :
    xxI.Consistent ∧ (waiting (.cmd 0x00000006) xxI).Consistent
      ∧ ∃ t, step (waiting (.cmd 0x00000006) xxI) = .next t :=
  ⟨consistent_xxI, by constructor <;> decide, _, rfl⟩

theorem witness_HostDrivenMachineStaysTracked :
    (waiting (.cmd 0x00000002) xxI).Inv ∧ ∃ t, step (waiting (.cmd 0x00000002) xxI) = .next t :=
  ⟨⟨by constructor <;> decide, rfl, transientsClear_reset, fun _ _ => by constructor <;> decide⟩, _, rfl⟩

theorem witness_HsInitCreatesAHandshake :
    State.reset.fatal = false ∧ 8 < (9 : BitVec 4).toNat ∧ Pattern.IK.code = 8
      ∧ slotsValid (need .XX .initiator) State.reset = false
      ∧ slotsValid (need .XX .initiator) { State.reset with kS := some anyKey, kE := some anyKey } = true := by decide

theorem witness_TokenListsRunAsExpanded :
    2 < Pattern.XX.nmsgs ∧ xxI.role = .initiator
      ∧ xxI.op.form = (if writerOf 2 = .initiator then .writing else .reading) := by decide

theorem witness_HsWriteRunsItsMessage :
    xxI.fatal = false ∧ xxI.phase = .active ∧ xxI.seq.toNat < xxI.pattern.nmsgs
      ∧ writerOf xxI.seq.toNat = xxI.role := by decide

theorem witness_HsWriteInTurnGivesTheMessage :
    xxI.Inv ∧ xxI.fatal = false ∧ xxI.phase = .active ∧ xxI.seq.toNat < xxI.pattern.nmsgs
      ∧ writerOf xxI.seq.toNat = xxI.role := ⟨inv_xxI, by decide⟩

theorem witness_HsReadRunsItsMessage :
    xxR.fatal = false ∧ xxR.phase = .active ∧ xxR.seq.toNat < xxR.pattern.nmsgs
      ∧ writerOf xxR.seq.toNat ≠ xxR.role
      ∧ (List.replicate 31 (0 : Byte)).length < (fixedAndKeyed xxR.pattern xxR.seq.toNat).1
      ∧ (fixedAndKeyed xxR.pattern xxR.seq.toNat).1 ≤ (List.replicate 32 (0 : Byte)).length := by decide

theorem witness_HsReadInTurnTakesTheMessage :
    let s := { xxR with msg := List.replicate 32 0 }
    s.Inv ∧ s.fatal = false ∧ s.phase = .active ∧ s.seq.toNat < s.pattern.nmsgs ∧ writerOf s.seq.toNat ≠ s.role
      ∧ (fixedAndKeyed s.pattern s.seq.toNat).1 ≤ s.msg.length :=
  ⟨⟨by constructor <;> decide, rfl, transientsClear_reset, fun _ _ => by constructor <;> decide⟩, by decide⟩

theorem witness_MessageCommandsOutOfTurnAreSequenceViolations :
    xxI.fatal = false ∧ xxI.phase = .active ∧ nWriter.pattern.nmsgs ≤ nWriter.seq.toNat
      ∧ nWriter.fatal = false ∧ nWriter.phase = .active
      ∧ writerOf xxR.seq.toNat ≠ xxR.role ∧ writerOf xxI.seq.toNat = xxI.role
      ∧ xxI.seq.toNat ≠ xxI.pattern.nmsgs := by decide

theorem witness_HsEncpayAppendsThePayloadBlock :
    nWriter.fatal = false ∧ nWriter.phase = .active
      ∧ ¬ (xxI.msgcur = true ∧ xxI.lastw = true ∧ xxI.paydone = false)
      ∧ nWriter.msgcur = true ∧ nWriter.lastw = true ∧ nWriter.paydone = false ∧ nWriter.keyed = true
      ∧ nWriter.ctxT = some anySponge ∧ ({ nWriter with keyed := false } : State).keyed = false
      ∧ nWriter.off.toNat + (List.replicate 65487 (0 : Byte)).length + 16 ≤ 65535
      ∧ 65535 < nWriter.off.toNat + (List.replicate 65488 (0 : Byte)).length + 16 := by
  rw [List.length_replicate, List.length_replicate]
  decide

theorem witness_HsDecpayOpensThePayloadBlock :
    nReader.fatal = false ∧ nReader.phase = .active
      ∧ ¬ (xxR.msgcur = true ∧ xxR.lastw = false ∧ xxR.paydone = false)
      ∧ nReader.msgcur = true ∧ nReader.lastw = false ∧ nReader.paydone = false ∧ nReader.keyed = true
      ∧ nReader.ctxT = some anySponge ∧ ({ nReader with keyed := false } : State).keyed = false
      ∧ (List.replicate 47 (0 : Byte)).length < nReader.off.toNat + 16
      ∧ nReader.off.toNat + 16 ≤ nReader.msg.length := by decide

theorem witness_HsFinalSeedsTheLanes :
    nWriter.fatal = false ∧ nWriter.phase = .active ∧ nWriter.seq.toNat = nWriter.pattern.nmsgs
      ∧ nWriter.ctxT = some anySponge := by decide

theorem witness_FinalLanesCross :
    nWriter.fatal = false ∧ nReader.fatal = false ∧ nWriter.phase = .active ∧ nReader.phase = .active
      ∧ nWriter.seq.toNat = nWriter.pattern.nmsgs ∧ nReader.seq.toNat = nReader.pattern.nmsgs
      ∧ nWriter.ctxT = some anySponge ∧ nReader.ctxT = some anySponge
      ∧ nWriter.role = .initiator ∧ nReader.role = .responder := by decide

/-- XX after message 0, the initiator. -/
def xx1I : State := { xxI with seq := 1, off := 32, msgcur := true, lastw := true }

/-- XX after message 0, the responder, who holds the initiator's public ephemeral key. -/
def xx1R : State :=
  { xxR with seq := 1, off := 32, msgcur := true, kRE := some (Config.params.dhPub anyKey) }

theorem inv_xx1I : xx1I.Inv :=
  ⟨by constructor <;> decide, rfl, transientsClear_reset, fun _ _ => by constructor <;> decide⟩

theorem inv_xx1R : xx1R.Inv := by
  refine ⟨?_, rfl, transientsClear_reset, fun _ _ => ?_⟩
  · constructor <;> decide
  · constructor <;> first | rfl | decide

theorem holdsPublicOf_some : holdsPublicOf (some (Config.params.dhPub anyKey)) (some anyKey) :=
  fun _ h => ⟨anyKey, rfl, (Option.some.inj h).symm⟩

theorem holdsPublicOf_none : holdsPublicOf none (some anyKey) := fun _ h => nomatch h

theorem witness_PeersStayPeersOverAMessage :
    (Peers ikI ikR ∧ ikI.seq.toNat < ikI.pattern.nmsgs ∧ writerOf ikI.seq.toNat = .initiator)
      ∧ (Peers xx1I xx1R ∧ xx1I.seq.toNat < xx1I.pattern.nmsgs ∧ writerOf xx1I.seq.toNat = .responder) :=
  ⟨⟨⟨inv_ikI, inv_ikR, rfl, rfl, rfl, rfl, rfl, rfl, rfl, rfl, rfl, rfl, rfl,
        holdsPublicOf_none, holdsPublicOf_none, holdsPublicOf_none, holdsPublicOf_some⟩, by decide, rfl⟩,
    ⟨⟨inv_xx1I, inv_xx1R, rfl, rfl, rfl, rfl, rfl, rfl, rfl, rfl, rfl, rfl, rfl,
        holdsPublicOf_some, holdsPublicOf_none, holdsPublicOf_none, holdsPublicOf_none⟩, by decide, rfl⟩⟩

theorem witness_HandshakePayloadRoundTrip :
    nWriter.fatal = false ∧ nReader.fatal = false ∧ nWriter.phase = .active ∧ nReader.phase = .active
      ∧ nWriter.ctxT = some anySponge ∧ nReader.ctxT = some anySponge
      ∧ nWriter.keyed = true ∧ nReader.keyed = true ∧ nWriter.off = nReader.off
      ∧ nWriter.msgcur = true ∧ nWriter.lastw = true ∧ nWriter.paydone = false
      ∧ nReader.msgcur = true ∧ nReader.lastw = false ∧ nReader.paydone = false
      ∧ nWriter.off.toNat ≤ nWriter.msg.length ∧ nWriter.off.toNat + nWriter.dat.length + 16 ≤ 65535 := by decide

/-- The operand lines at an offset, in a form. -/
def lines (f : Form) (off : BitVec 16) : Operands := { Operands.zero with form := f, off := off }

theorem witness_TokenESendsOrTakesTheEphemeralKey :
    xxI.fatal = false ∧ (lines .writing 0).form = .writing ∧ (lines .reading 0).form = .reading
      ∧ State.reset.kE = none ∧ xx1R.kRE.isSome = true ∧ xxI.kE = some anyKey ∧ xxI.ctxT = some anySponge
      ∧ xxI.kRE = none
      ∧ (lines .writing 65503).off.toNat ≤ (List.replicate 65503 (0 : Byte)).length
      ∧ (lines .writing 65503).off.toNat + 32 ≤ 65535
      ∧ (lines .reading 1).off.toNat + 32 ≤ (List.replicate 33 (0 : Byte)).length := by
  rw [List.length_replicate, List.length_replicate]
  exact ⟨rfl, rfl, rfl, rfl, rfl, rfl, rfl, rfl, by decide, by decide, by decide⟩

theorem witness_TokenSSendsOrTakesTheStaticKey :
    nWriter.fatal = false ∧ (lines .writing 0).form = .writing ∧ (lines .reading 0).form = .reading
      ∧ nWriter.kS = none ∧ nWriter.kRS.isSome = true
      ∧ xxI.keyed = false ∧ xxI.kS.isSome = true ∧ xxI.kRS = none
      ∧ nReader.kS = some anyKey ∧ nReader.keyed = true ∧ nReader.ctxT = some anySponge ∧ nReader.kRS = none
      ∧ (lines .writing 65487).off.toNat ≤ (List.replicate 65487 (0 : Byte)).length
      ∧ (lines .writing 65487).off.toNat + 48 ≤ 65535
      ∧ (lines .reading 0).off.toNat + 48 ≤ nReader.msg.length := by
  rw [List.length_replicate]
  decide

theorem witness_DhTokensMixTheSharedSecret :
    nReader.fatal = false ∧ nReader.role = .responder ∧ nReader.kpVal .S = some anyKey
      ∧ nReader.pkVal .RE = some anyKey ∧ nReader.ctxT = some anySponge
      ∧ nReader.kpVal .E = none ∧ nReader.pkVal .RS = none
      ∧ nWriter.role = .initiator ∧ nWriter.kpVal .E = some anyKey ∧ nWriter.pkVal .RS = some anyKey := by decide

theorem witness_TokenPskMixesTheSecretAndEndDoesNothing :
    xxI.fatal = false ∧ xxI.kPSK = none ∧ ({ xxI with kPSK := some anyKey } : State).kPSK = some anyKey
      ∧ xxI.ctxT = some anySponge := by decide

theorem witness_SymmetricStateInitAndMix : State.reset.fatal = false ∧ xxI.ctxT = some anySponge := by decide

theorem witness_SymmetricStateEncryptAndDecrypt :
    nWriter.fatal = false ∧ xxI.keyed = false ∧ nWriter.keyed = true ∧ nWriter.ctxT = some anySponge
      ∧ (List.replicate 15 (0 : Byte)).length < 16 ∧ 16 ≤ (List.replicate 16 (0 : Byte)).length := by decide

theorem witness_SymmetricStatesStayEqual :
    nWriter.fatal = false ∧ nReader.fatal = false ∧ nWriter.keyed = true ∧ nReader.keyed = true
      ∧ nWriter.ctxT = some anySponge ∧ nReader.ctxT = some anySponge := by decide

theorem witness_PortOperationsThreadTheNamedContext :
    State.reset.fatal = false ∧ State.reset.ctx .X = none
      ∧ Instr.spClone .X ∈ [Instr.spAbsorb .X, .spSqueeze .X, .spEncrypt .X, .spDecrypt .X, .spRatchet .X, .spClone .X]
      ∧ lanes.fatal = false ∧ lanes.ctx .S = some anySponge := by decide

theorem witness_PortOperationsCreateAContext :
    lanes.fatal = false ∧ lanes.ctx .R = some anySponge := by decide

theorem witness_DhPortCombinesAndDerives :
    State.reset.fatal = false ∧ State.reset.kpVal State.reset.op.kp = none
      ∧ xxI.kpVal xxI.op.kp = some anyKey ∧ xxI.pkVal xxI.op.pk = none
      ∧ ({ xxI with kRS := some anyKey } : State).pkVal xxI.op.pk = some anyKey := by decide

theorem witness_TcEncSealsAMessage :
    lanes.fatal = false ∧ lanes.tcValid = true ∧ lanes.tcAborted = false ∧ lanes.ctxS = some anySponge
      ∧ (List.replicate 65519 (0 : Byte)).length + 16 ≤ 65535
      ∧ (BitVec.ofNat 64 (2 ^ 64 - 2)).toNat < 2 ^ 64 - 1 := by
  rw [List.length_replicate]
  decide

theorem witness_TcDecOpensAMessage :
    lanes.fatal = false ∧ lanes.tcValid = true ∧ lanes.tcAborted = false ∧ lanes.ctxR = some anySponge
      ∧ (BitVec.ofNat 64 (2 ^ 64 - 2)).toNat < 2 ^ 64 - 1
      ∧ (List.replicate 15 (0 : Byte)).length < 16 ∧ 16 ≤ (List.replicate 16 (0 : Byte)).length
      ∧ (List.replicate 65535 (0 : Byte)).length ≤ 65535 := by
  rw [List.length_replicate (n := 65535)]
  decide

theorem witness_RekeyRatchetsTheLanes :
    lanes.fatal = false ∧ lanes.tcValid = true ∧ lanes.tcAborted = false
      ∧ lanes.ctxS = some anySponge ∧ lanes.ctxR = some anySponge := by decide

theorem witness_TransportLimitsAreViolations :
    lanes.fatal = false ∧ lanes.tcValid = true ∧ lanes.tcAborted = false
      ∧ 65535 < (List.replicate 65520 (0 : Byte)).length + 16
      ∧ (List.replicate 65519 (0 : Byte)).length + 16 ≤ 65535
      ∧ (BitVec.ofNat 64 (2 ^ 64 - 1)).toNat = 2 ^ 64 - 1
      ∧ lanes.msg.length ≤ 65535 := by
  rw [List.length_replicate, List.length_replicate]
  decide

theorem witness_TransportRoundTrip :
    lanes.fatal = false ∧ lanes.tcValid = true ∧ lanes.tcAborted = false
      ∧ lanes.ctxS = some anySponge ∧ lanes.ctxR = some anySponge ∧ lanes.snonce = lanes.rnonce
      ∧ lanes.snonce.toNat < 2 ^ 64 - 1 ∧ lanes.ad = lanes.ad ∧ lanes.dat.length + 16 ≤ 65535 := by decide

theorem witness_SendAndReceiveAreIndependent :
    lanes.fatal = false ∧ State.reset.fatal = false
      ∧ (∃ t, exec (.tcEnc true) lanes = .next t ∧ t.fatal = false)
      ∧ (∃ t, exec (.tcEnc true) State.reset = .next t ∧ t.fatal = true)
      ∧ (∃ t, exec (.tcDec false) { lanes with msg := goodFrame } = .next t ∧ t.err = .ok ∧ t.fatal = false)
      ∧ (∃ t, exec (.tcDec false) { lanes with msg := badFrame } = .next t ∧ t.err = .messageCorrupted)
      ∧ (∃ t, exec (.tcDec false) { lanes with msg := List.replicate 15 0 } = .next t ∧ t.err = .ciphertextTooShort)
      ∧ (∃ t, exec (.tcDec false) State.reset = .next t ∧ t.fatal = true) :=
  ⟨rfl, rfl, ⟨_, rfl, rfl⟩, ⟨_, rfl, rfl⟩, tcDec_goodFrame,
    ⟨_, tcDec_badFrame.choose_spec.1, tcDec_badFrame.choose_spec.2.1⟩, ⟨_, rfl, rfl⟩, _, rfl, rfl⟩

theorem witness_PhHashComputesTheDigest :
    let s := { State.reset with p0 := 1, p1 := 0xFFFFFFFF }
    s.fatal = false ∧ 1 ≤ s.p0.toNat ∧ s.p0.toNat ≤ Config.params.phMaxSpace
      ∧ s.p0.toNat + 7 * s.p1.toNat * s.p0.toNat ≤ 2 ^ 64 :=
  ⟨rfl, by decide, Config.params.phMaxSpace_pos, by decide⟩

theorem witness_PhHashRefusesIllegalParameters :
    State.reset.fatal = false ∧ ¬ (1 ≤ State.reset.p0.toNat ∧ State.reset.p0.toNat ≤ Config.params.phMaxSpace
      ∧ State.reset.p0.toNat + 7 * State.reset.p1.toNat * State.reset.p0.toNat ≤ 2 ^ 64) :=
  ⟨rfl, fun h => absurd h.1 (by decide)⟩

theorem witness_PhHashCallCount : 1 ≤ 1 ∧ State.reset.phCnt = 0 := by decide

end Sys2Proof.Tests
end

section
/-! PROOFS. Encoding (30_encoding.md): which command words are illegal and what executing one does (R64), and the
protocol identifiers (R59). -/

namespace Sys2Proof

/-! ### Which command words decode -/

/-- The 13 opcodes of format H (R54), in the order of R64. -/
def commandOpcodes : List Nat :=
  [0x01, 0x02, 0x03, 0x04, 0x05, 0x06, 0x10, 0x11, 0x12, 0x13, 0x14, 0x20, 0x3F]

/-- The field `op` of a command word (R50). -/
def opField (w : Word32) : Nat := (w.extractLsb' 0 8).toNat

/-- The field `pat` of a command word (R50). -/
def patField (w : Word32) : Nat := (w.extractLsb' 8 4).toNat

/-- The six conditions of R64, each of which makes a command word illegal; `decodes_iff_not_illegalWord` ties them to
the decoder. -/
def IllegalWord (w : Word32) : Prop :=
  opField w ∉ commandOpcodes
  ∨ w.extractLsb' 14 18 ≠ 0
  ∨ (patField w ≠ 0 ∧ opField w ≠ 0x01)
  ∨ (w.getLsbD 12 = true ∧ opField w ≠ 0x01)
  ∨ (w.getLsbD 13 = true ∧ opField w ≠ 0x10 ∧ opField w ≠ 0x11)
  ∨ (opField w = 0x01 ∧ 9 ≤ patField w)

theorem patField_eq_zero {w : Word32} : patField w = 0 ↔ w.extractLsb' 8 4 = 0 := BitVec.toNat_inj (y := 0)

/-- A word with a reserved bit set is rejected before its opcode is looked at. -/
theorem decodeCommand_of_reservedBits {w : Word32} (h : w.extractLsb' 14 18 ≠ 0) :
    decodeCommand w = .error .reservedBits := if_pos h

section
variable {w : Word32} (hres : w.extractLsb' 14 18 = 0)
include hres

/-- An opcode outside R54 is rejected. -/
theorem decodeCommand_of_unknownOpcode (hop : opField w ∉ commandOpcodes) :
    decodeCommand w = .error .unknownOpcode := by
  simp only [opField, commandOpcodes, List.mem_cons, List.not_mem_nil, or_false, not_or] at hop
  rw [decodeCommand, if_neg (not_not_intro hres)]
  split <;> simp_all

/-- Opcode 0x01 is HS_INIT. -/
theorem decodeCommand_of_init (hop : opField w = 0x01) : decodeCommand w = decodeInit w := by
  rw [decodeCommand, if_neg (not_not_intro hres), show (w.extractLsb' 0 8).toNat = 0x01 from hop]
  rfl

/-- Opcodes 0x10 and 0x11 are the two commands that use `adp` alone. -/
theorem decodeCommand_of_adp (hop : opField w = 0x10 ∨ opField w = 0x11) :
    ∃ f, decodeCommand w = decodeAdp w f := by
  rw [decodeCommand, if_neg (not_not_intro hres)]
  rcases hop with h | h <;> rw [opField] at h <;> rw [h] <;> exact ⟨_, rfl⟩

/-- Every other opcode of R54 is a command that uses no field. -/
theorem decodeCommand_of_plain (hop : opField w ∈ commandOpcodes) (hinit : opField w ≠ 0x01)
    (henc : opField w ≠ 0x10) (hdec : opField w ≠ 0x11) : ∃ i, decodeCommand w = decodePlain w i := by
  simp only [commandOpcodes, List.mem_cons, List.not_mem_nil, or_false, hinit, henc, hdec, false_or] at hop
  rw [decodeCommand, if_neg (not_not_intro hres)]
  rcases hop with h | h | h | h | h | h | h | h | h | h <;> rw [opField] at h <;> rw [h] <;> exact ⟨_, rfl⟩

end

/-- Which words the check of HS_INIT accepts. -/
theorem decodeInit_accepts {w : Word32} :
    (∃ j, decodeInit w = .ok j) ↔ w.getLsbD 13 = false ∧ patField w < 9 := by
  simp only [decodeInit_eq_ok, exists_and_left, exists_eq', and_true, patField, Nat.lt_succ_iff]

/-- Which words the check of a transport command accepts. -/
theorem decodeAdp_accepts {w : Word32} {f : Bool → Instr} :
    (∃ j, decodeAdp w f = .ok j) ↔ patField w = 0 ∧ w.getLsbD 12 = false := by
  simp only [decodeAdp_eq_ok, exists_and_left, exists_eq', and_true, patField_eq_zero]

/-- Which words the check of a command without fields accepts. -/
theorem decodePlain_accepts {w : Word32} {i : Instr} :
    (∃ j, decodePlain w i = .ok j) ↔ patField w = 0 ∧ w.getLsbD 12 = false ∧ w.getLsbD 13 = false := by
  simp only [decodePlain_eq_ok, exists_and_left, exists_eq', and_true, patField_eq_zero]

/-- A command word decodes exactly when none of the conditions of R64 holds: the reserved bits and the opcode settle
which field checks remain, and those are the remaining conditions. -/
theorem decodes_iff_not_illegalWord (w : Word32) : (∃ i, decodeCommand w = .ok i) ↔ ¬ IllegalWord w := by
  by_cases hres : w.extractLsb' 14 18 = 0
  swap
  · have hill : IllegalWord w := .inr (.inl hres)
    simp [decodeCommand_of_reservedBits hres, hill]
  by_cases hop : opField w ∈ commandOpcodes
  swap
  · have hill : IllegalWord w := .inl hop
    simp [decodeCommand_of_unknownOpcode hres hop, hill]
  by_cases hinit : opField w = 0x01
  · rw [decodeCommand_of_init hres hinit, decodeInit_accepts]
    simp [IllegalWord, hres, hinit, commandOpcodes]
  by_cases hadp : opField w = 0x10 ∨ opField w = 0x11
  · obtain ⟨f, hf⟩ := decodeCommand_of_adp hres hadp
    have hused : ¬ (opField w ≠ 0x10 ∧ opField w ≠ 0x11) := by tauto
    rw [hf, decodeAdp_accepts]
    simp [IllegalWord, hres, hop, hinit, hused]
  · obtain ⟨henc, hdec⟩ := not_or.mp hadp
    obtain ⟨i, hi⟩ := decodeCommand_of_plain hres hop hinit henc hdec
    rw [hi, decodePlain_accepts]
    simp [IllegalWord, hres, hop, hinit, henc, hdec]

end Sys2Proof

namespace Sys2Proof.Machine

/-! ### What an illegal word does -/

/-- An event that carries a command word writes CMD, so rejecting its word is the illegal command: an issued internal
code has one byte, a command word four. -/
theorem rejectWord_of_commandWord {e : Event} {w : Word32} (hw : e.word = some (.H, bytesOfWord w)) (s : State) :
    rejectWord e s = .next (illegalCommand s) := by
  cases e with
  | issue f b o => simp [Event.word, bytesOfWord] at hw
  | _ => rfl

/-- The step on a CMD write whose word does not decode. -/
theorem step_of_undecodable {s : State} {e : Event} {w : Word32} {rest : List Event} (hin : s.inbox = e :: rest)
    (hw : e.word = some (.H, bytesOfWord w)) (hbad : ¬ ∃ i, decodeCommand w = .ok i) :
    step s = .next (illegalCommand { s with inbox := rest }) := by
  have hdec : ∃ r, decode .H (bytesOfWord w) = .error r := by
    rw [decode_bytesOfWord]
    cases h : decodeCommand w with
    | ok i => exact absurd ⟨i, h⟩ hbad
    | error r => exact ⟨r, rfl⟩
  obtain ⟨r, hr⟩ := hdec
  simp only [step, hin, perform, hw, hr, rejectWord_of_commandWord hw]

/-- While FATAL = 0 an illegal command word is the contract violation CV_ILLEGAL (R64). -/
theorem illegalCommand_of_good {s : State} (h : s.fatal = false) :
    illegalCommand s = enterViolation .illegal s := by
  simp [illegalCommand, h]

/-- While FATAL = 1 an illegal command word only writes STATUS.ERR (R148). -/
theorem illegalCommand_of_fatal {s : State} (h : s.fatal = true) : illegalCommand s = refuseFatal s := if_pos h

/-- Settles O3: the decoder accepts exactly the words with none of the six conditions, and a rejected word is the
illegal command. -/
theorem illegalWordsAreThoseListed : Obligations.IllegalWordsAreThoseListed := by
  intro s e w rest hin hw op pat illegal
  have hiff : (∃ i, decodeCommand w = .ok i) ↔ ¬ illegal := decodes_iff_not_illegalWord w
  have hstep (h : illegal) : step s = .next (illegalCommand { s with inbox := rest }) :=
    step_of_undecodable hin hw fun hok => hiff.mp hok h
  refine ⟨?_, fun h hgood => ?_, fun h hfatal => ?_⟩
  · rwa [decode_bytesOfWord]
  · exact (hstep h).trans (congrArg _ (illegalCommand_of_good hgood))
  · exact (hstep h).trans (congrArg _ (illegalCommand_of_fatal hfatal))

/-! ### Protocol identifiers -/

/-- The identifier of a pattern is the nine bytes of "Xisco-v0_", then the pattern's name (R59). -/
theorem protocolId_eq (p : Pattern) :
    protocolId p = [0x58, 0x69, 0x73, 0x63, 0x6f, 0x2d, 0x76, 0x30, 0x5f] ++ asciiBytes p.name := by
  rw [protocolId, asciiBytes, List.map_append]
  rfl

/-- Settles O28: the common bytes are `protocolId_eq`, the name of each pattern is computed. -/
theorem protocolIdentifiersAsAscii : Obligations.ProtocolIdentifiersAsAscii := by
  simp only [Obligations.ProtocolIdentifiersAsAscii, protocolId_eq]
  exact ⟨rfl, rfl, rfl, rfl, rfl, rfl, rfl, rfl, rfl⟩

end Sys2Proof.Machine
end

section
/-! PROOFS. The symmetric state (40_symmetric_state.md): the comparison of tags (R89). -/

namespace Sys2Proof.Machine

/-- Settles O48: on two strings of one length the OR of the XORs is 0 exactly when they are equal
(`tagDiffers_eq_false`, by induction over the fold), and tags are equal when their bytes are. -/
theorem tagComparisonIsInequality : Obligations.TagComparisonIsInequality := by
  intro a b
  have hlen : a.toList.length = b.toList.length := by simp
  calc tagDiffers a.toList b.toList = true
      ↔ ¬ tagDiffers a.toList b.toList = false := (Bool.not_eq_false _).to_iff.symm
    _ ↔ ¬ a.toList = b.toList := not_congr (tagDiffers_eq_false hlen)
    _ ↔ a ≠ b := not_congr Vector.toList_inj

end Sys2Proof.Machine
end

section
/-! PROOFS. The handshake (41_handshake.md): the check of HS.PHASE that begins every handshake command but HS_INIT
(R92). -/

namespace Sys2Proof.Machine

/-- `hs_phasecheck` after the end of a handshake, good or bad (R92). -/
theorem hsPhaseCheck_of_ended {s : State} (h : s.phase = .done ∨ s.phase = .failed) :
    hsPhaseCheck s = .viol .terminal s := by
  rcases h with h | h <;> simp only [hsPhaseCheck, h]

/-- `hs_phasecheck` before a handshake (R92). -/
theorem hsPhaseCheck_of_idle {s : State} (h : s.phase = .idle) : hsPhaseCheck s = .viol .seq s := by
  simp only [hsPhaseCheck, h]

/-- Every handshake command but HS_INIT is `hs_phasecheck`, then the rest of its rule. The rest is one function for all
states: it sees the state only through the check. -/
theorem commandBody_begins_with_hsPhaseCheck {i : Instr}
    (hi : i ∈ [Instr.hsWrite, .hsRead, .hsEncpay, .hsDecpay, .hsFinal]) (P : Params) :
    ∃ rest, ∀ s, commandBody P i s = (hsPhaseCheck s).bind rest := by
  simp only [List.mem_cons, List.not_mem_nil, or_false] at hi
  rcases hi with rfl | rfl | rfl | rfl | rfl <;> exact ⟨_, fun _ => rfl⟩

/-- Where `hs_phasecheck` fails, a command that begins with it takes that violation, in the state it was given. -/
theorem exec_of_hsPhaseCheck_viol {i : Instr} {s : State} {c : Cause}
    (hi : i ∈ [Instr.hsWrite, .hsRead, .hsEncpay, .hsDecpay, .hsFinal]) (hgood : s.fatal = false)
    (hcheck : hsPhaseCheck s = .viol c s) : exec i s = .next (enterViolation c s) := by
  obtain ⟨hformat, hreset⟩ : i.format = .H ∧ i ≠ .reset := by
    revert i
    decide
  obtain ⟨rest, hbody⟩ := commandBody_begins_with_hsPhaseCheck hi Config.params
  rw [exec_command_good hformat hreset hgood, hbody, hcheck, Res.bind_viol, finishCommand_viol]

/-- Settles O13: each command begins with `hs_phasecheck` (`commandBody_begins_with_hsPhaseCheck`), which fails with
CV_TERMINAL after the handshake and with CV_SEQ before it. -/
theorem handshakeCommandsCheckThePhaseFirst : Obligations.HandshakeCommandsCheckThePhaseFirst := by
  intro i s hi hgood
  exact ⟨fun hended => exec_of_hsPhaseCheck_viol hi hgood (hsPhaseCheck_of_ended hended),
    fun hidle => exec_of_hsPhaseCheck_viol hi hgood (hsPhaseCheck_of_idle hidle)⟩

end Sys2Proof.Machine
end

section
/-! PROOFS. The transport (42_transport.md): the check of the transport context that begins every TC command (R125). -/

namespace Sys2Proof.Machine

/-- `tc_precheck` without a transport context, aborted or not (R125). -/
theorem tcPrecheck_of_invalid {s : State} (hv : s.tcValid = false) : tcPrecheck s = .viol .noCtx s := by
  rw [tcPrecheck, require_of_not (by simp [hv]), Res.bind_viol]

/-- `tc_precheck` of a valid context that was aborted (R125). -/
theorem tcPrecheck_of_aborted {s : State} (hv : s.tcValid = true) (ha : s.tcAborted = true) :
    tcPrecheck s = .viol .terminal s := by
  rw [tcPrecheck, require_of hv, Res.bind_ok, require_of_not (by simp [ha])]

/-- Every TC command is `tc_precheck`, then the rest of its rule. The rest is one function for all states: it sees the
state only through the check. -/
theorem commandBody_begins_with_tcPrecheck {i : Instr}
    (hi : i ∈ [Instr.tcEnc false, .tcEnc true, .tcDec false, .tcDec true, .tcRekeyS, .tcRekeyR, .tcRekey]) (P : Params) :
    ∃ rest, ∀ s, commandBody P i s = (tcPrecheck s).bind rest := by
  simp only [List.mem_cons, List.not_mem_nil, or_false] at hi
  rcases hi with rfl | rfl | rfl | rfl | rfl | rfl | rfl <;> exact ⟨_, fun _ => rfl⟩

/-- Where `tc_precheck` fails, a command that begins with it takes that violation, in the state it was given. -/
theorem exec_of_tcPrecheck_viol {i : Instr} {s : State} {c : Cause}
    (hi : i ∈ [Instr.tcEnc false, .tcEnc true, .tcDec false, .tcDec true, .tcRekeyS, .tcRekeyR, .tcRekey])
    (hgood : s.fatal = false) (hcheck : tcPrecheck s = .viol c s) : exec i s = .next (enterViolation c s) := by
  obtain ⟨hformat, hreset⟩ : i.format = .H ∧ i ≠ .reset := by
    revert i
    decide
  obtain ⟨rest, hbody⟩ := commandBody_begins_with_tcPrecheck hi Config.params
  rw [exec_command_good hformat hreset hgood, hbody, hcheck, Res.bind_viol, finishCommand_viol]

/-- Settles O14: each command begins with `tc_precheck` (`commandBody_begins_with_tcPrecheck`), which fails with CV_NOCTX
without a valid context and with CV_TERMINAL on an aborted one. -/
theorem transportCommandsCheckTheContextFirst : Obligations.TransportCommandsCheckTheContextFirst := by
  intro i s hi hgood
  exact ⟨fun hinvalid => exec_of_tcPrecheck_viol hi hgood (tcPrecheck_of_invalid hinvalid),
    fun hvalid haborted => exec_of_tcPrecheck_viol hi hgood (tcPrecheck_of_aborted hvalid haborted)⟩

end Sys2Proof.Machine
end

section
/-! PROOFS. Exceptions (60_exceptions.md): while FATAL = 1 the word of RESET is the only one not refused, and no other
host access depends on FATAL (R148). -/

namespace Sys2Proof

/-! ### A decoded word is the encoding of its instruction -/

section
variable {w : Word32} {j : Instr} (hres : w.extractLsb' 14 18 = 0)
include hres

/-- An accepted word of a command without fields has no bit set but its opcode's. -/
theorem encodeCommand_of_decodePlain {i : Instr} (h : decodePlain w i = .ok j)
    (hi : encodeCommand i = some (commandWord (w.extractLsb' 0 8) 0 false false)) : encodeCommand j = some w := by
  obtain ⟨hpat, hrole, hadp, rfl⟩ := decodePlain_eq_ok.mp h
  rw [hi, ← commandWord_eta w hres, hpat, hrole, hadp, (commandWord_fields _ _ _ _).1]

/-- An accepted word of a transport command has no bit set but those of its opcode and of `adp`. -/
theorem encodeCommand_of_decodeAdp {f : Bool → Instr} (h : decodeAdp w f = .ok j)
    (hf : ∀ adp, encodeCommand (f adp) = some (commandWord (w.extractLsb' 0 8) 0 false adp)) :
    encodeCommand j = some w := by
  obtain ⟨hpat, hrole, rfl⟩ := decodeAdp_eq_ok.mp h
  have heta := commandWord_eta w hres
  rw [hpat, hrole] at heta
  rw [hf, heta]

/-- An accepted word of HS_INIT has no bit set but those of its opcode, of `pat` and of `role`. -/
theorem encodeCommand_of_decodeInit (h : decodeInit w = .ok j) (hop : w.extractLsb' 0 8 = 0x01) :
    encodeCommand j = some w := by
  obtain ⟨hadp, -, rfl⟩ := decodeInit_eq_ok.mp h
  have heta := commandWord_eta w hres
  rw [hop, hadp] at heta
  rw [encodeCommand, Role.toBit_ofBit, heta]

end

/-- A command word that decodes is the encoding of its instruction (R50, R54). -/
theorem encodeCommand_of_decodeCommand {w : Word32} {i : Instr} (h : decodeCommand w = .ok i) :
    encodeCommand i = some w := by
  have hres : w.extractLsb' 14 18 = 0 := by
    by_contra hne
    rw [decodeCommand_of_reservedBits hne] at h
    cases h
  rw [decodeCommand, if_neg (not_not_intro hres)] at h
  have hopcode {n : Nat} (hn : (w.extractLsb' 0 8).toNat = n) : w.extractLsb' 0 8 = BitVec.ofNat 8 n := by
    rw [← hn, BitVec.ofNat_toNat, BitVec.setWidth_eq]
  split at h
  case h_14 => cases h
  case h_1 hn => exact encodeCommand_of_decodeInit hres h (hopcode hn)
  case h_7 hn => exact encodeCommand_of_decodeAdp hres h fun adp => by rw [hopcode hn]; rfl
  case h_8 hn => exact encodeCommand_of_decodeAdp hres h fun adp => by rw [hopcode hn]; rfl
  all_goals
    rename_i hn
    exact encodeCommand_of_decodePlain hres h (by rw [hopcode hn]; rfl)

/-- A command word means RESET exactly when it is 0x0000003F. -/
theorem decodeCommand_eq_reset {w : Word32} : decodeCommand w = .ok .reset ↔ w = 0x0000003F := by
  constructor
  · intro h
    exact (Option.some.inj (encodeCommand_of_decodeCommand h)).symm
  · rintro rfl
    rfl

/-- A word with RESET's opcode decodes to RESET or to nothing. -/
theorem eq_reset_of_resetOpcode {w : Word32} {i : Instr} (hop : w.extractLsb' 0 8 = 0x3F)
    (h : decodeCommand w = .ok i) : i = .reset := by
  rw [decodeCommand, hop] at h
  split at h
  · cases h
  · obtain ⟨-, -, -, hi⟩ := decodePlain_eq_ok.mp h
    exact hi.symm

end Sys2Proof

namespace Sys2Proof.Machine

/-! ### A step on a write of CMD -/

/-- The step on a CMD write whose word decodes: the operand lines stay. -/
theorem step_of_decoded {s : State} {e : Event} {w : Word32} {rest : List Event} {i : Instr}
    (hin : s.inbox = e :: rest) (hw : e.word = some (.H, bytesOfWord w)) (hdec : decodeCommand w = .ok i) :
    step s = exec i { s with inbox := rest } := by
  have hprepare (t : State) : e.prepare t = t := by
    cases e with
    | issue f b o => simp [Event.word, bytesOfWord] at hw
    | _ => rfl
  simp only [step, hin, perform, hw, decode_bytesOfWord, hdec, hprepare]

/-- While FATAL = 1 every command but RESET is refused (R148). -/
theorem exec_command_of_fatal {i : Instr} (hf : i.format = .H) (hr : i ≠ .reset) {s : State} (h : s.fatal = true) :
    exec i s = .next (refuseFatal s) := by
  rw [exec_command hf hr, runCommand_of_fatal h]

/-- While FATAL = 1 a CMD write of any word but RESET's is refused, whether the word decodes or not (R148). -/
theorem step_of_fatal {s : State} {e : Event} {w : Word32} {rest : List Event} (hin : s.inbox = e :: rest)
    (hw : e.word = some (.H, bytesOfWord w)) (hfatal : s.fatal = true) (hne : w ≠ 0x0000003F) :
    step s = .next (refuseFatal { s with inbox := rest }) := by
  by_cases hdec : ∃ i, decodeCommand w = .ok i
  · obtain ⟨i, hi⟩ := hdec
    have hformat : i.format = .H := by
      rw [← encodeCommand_isSome, encodeCommand_of_decodeCommand hi, Option.isSome_some]
    have hreset : i ≠ .reset := by
      rintro rfl
      exact hne (decodeCommand_eq_reset.mp hi)
    exact (step_of_decoded hin hw hi).trans (exec_command_of_fatal hformat hreset hfatal)
  · exact (step_of_undecodable hin hw hdec).trans (congrArg _ (illegalCommand_of_fatal hfatal))

/-- While FATAL = 0 a word with RESET's opcode that is not RESET's word is CV_ILLEGAL (R64). -/
theorem step_of_resetOpcode {s : State} {e : Event} {w : Word32} {rest : List Event} (hin : s.inbox = e :: rest)
    (hw : e.word = some (.H, bytesOfWord w)) (hgood : s.fatal = false) (hop : w.extractLsb' 0 8 = 0x3F)
    (hne : w ≠ 0x0000003F) : step s = .next (enterViolation .illegal { s with inbox := rest }) := by
  have hbad : ¬ ∃ i, decodeCommand w = .ok i := by
    rintro ⟨i, hi⟩
    obtain rfl := eq_reset_of_resetOpcode hop hi
    exact hne (decodeCommand_eq_reset.mp hi)
  exact (step_of_undecodable hin hw hbad).trans (congrArg _ (illegalCommand_of_good hgood))

/-! ### The host's other accesses, with FATAL replaced -/

section
variable (s : State) (f : Bool)

/-- FATAL is no part of a buffer. -/
theorem buf_setFatal (b : Buf) : State.buf { s with fatal := f } b = s.buf b := by cases b <;> rfl

/-- Replacing a buffer commutes with replacing FATAL. -/
theorem setBuf_setFatal (b : Buf) (v : Bytes) :
    State.setBuf { s with fatal := f } b v = { s.setBuf b v with fatal := f } := by cases b <;> rfl

/-- Replacing a key slot commutes with replacing FATAL. -/
theorem setSlot_setFatal (k : Slot) (v : Option Key) :
    State.setSlot { s with fatal := f } k v = { s.setSlot k v with fatal := f } := by cases k <;> rfl

/-- A write of a length register does not depend on FATAL, shorter or longer than the buffer. -/
theorem hostSetLen_setFatal (b : Buf) (n : BitVec 16) :
    hostSetLen b n { s with fatal := f } = { hostSetLen b n s with fatal := f } := by
  simp only [hostSetLen, buf_setFatal, setBuf_setFatal]
  split <;> rfl

/-- The bytes a poke reaches depend on the buffer, not on FATAL. -/
theorem hostPoke_setFatal (b : Buf) (a : Nat) (data : Bytes) :
    hostPoke b a data { s with fatal := f } = { hostPoke b a data s with fatal := f } := by
  simp only [hostPoke, buf_setFatal, setBuf_setFatal]

/-- A write of a key slot depends on HS.PHASE, not on FATAL. -/
theorem hostWriteSlot_setFatal (k : Slot) (v : Key) :
    hostWriteSlot k v { s with fatal := f } = { hostWriteSlot k v s with fatal := f } := by
  simp only [hostWriteSlot]
  split
  case h_1 => rfl
  case h_2 => rfl
  case h_3 => exact setSlot_setFatal s f _ (some v)

variable {s} {t : State}

/-- A load depends on the capacity, not on FATAL. -/
theorem hostLoad_setFatal {b : Buf} {data : Bytes} (h : hostLoad b data s = .next t) :
    hostLoad b data { s with fatal := f } = .next { t with fatal := f } := by
  simp only [hostLoad, setBuf_setFatal] at h ⊢
  split at h
  case isTrue hlen =>
    cases h
    rw [if_pos hlen]
  case isFalse => cases h

/-- A register written with FATAL replaced: an operand, a length or a read-only register. -/
theorem hostWriteReg_setFatal {n : Nat} {v : Word32} (h : hostWriteReg n v s = .next t) :
    hostWriteReg n v { s with fatal := f } = .next { t with fatal := f } := by
  unfold hostWriteReg at h ⊢
  split at h <;> cases h <;> simp only [hostSetLen_setFatal]

/-- Every host access but a write of CMD answers the same with FATAL replaced (R148). -/
theorem perform_setFatal {e : Event} (hhost : e.isHost = true) (hword : e.word = none) (h : perform e s = .next t) :
    perform e { s with fatal := f } = .next { t with fatal := f } := by
  simp only [perform, hword] at h ⊢
  cases e with
  | cmd w => cases hword
  | reg n v => exact hostWriteReg_setFatal f h
  | load b data => exact hostLoad_setFatal f h
  | poke b a data =>
    cases h
    exact congrArg _ (hostPoke_setFatal s f b a data)
  | slot k v =>
    cases h
    exact congrArg _ (hostWriteSlot_setFatal s f k v)
  | issue g w o => cases hhost

end

/-- Of the registers the host reads, only STATUS shows FATAL. -/
theorem readReg_setFatal (s : State) (f : Bool) {n : Nat} (hn : n ≠ 1) :
    State.readReg { s with fatal := f } n = s.readReg n := by
  unfold State.readReg
  split
  case h_1 => exact absurd rfl hn
  all_goals rfl

/-- Settles O12: a write of CMD by whether its word decodes (`step_of_fatal`, `step_of_resetOpcode`), where 0x0000003F
alone decodes to RESET (`decodeCommand_eq_reset`); the other accesses event by event (`perform_setFatal`). -/
theorem fatalRefusesEveryWordButReset : Obligations.FatalRefusesEveryWordButReset := by
  refine ⟨fun s e w rest hin hw hfatal => ⟨step_of_fatal hin hw hfatal, fun hreset => ?_⟩,
    fun s e w rest hin hw hgood hop hne => step_of_resetOpcode hin hw hgood hop hne,
    fun s e b hhost hword t h => perform_setFatal b hhost hword h, fun s b => ?_⟩
  · exact step_of_decoded hin hw (decodeCommand_eq_reset.mpr hreset)
  · exact ⟨fun n hn => readReg_setFatal s b hn, fun k => by cases k <;> rfl, rfl,
      fun m a => congrArg (·[a]?) (buf_setFatal s b m)⟩

end Sys2Proof.Machine
end

section
/-! PROOFS. Encoding (30_encoding.md): decoding and encoding are inverse in the five formats (R50 to R58). -/

namespace Sys2Proof

/-! ### Format H -/

/-- A word that decodes names a well-formed instruction: the check of HS_INIT bounds the pattern code (R55). -/
theorem wf_of_decodeCommand {w : Word32} {i : Instr} (h : decodeCommand w = .ok i) : i.wf = true := by
  by_cases hinit : ∃ pat role, i = .hsInit pat role
  swap
  · cases i <;> first | rfl | exact absurd ⟨_, _, rfl⟩ hinit
  obtain ⟨pat, role, rfl⟩ := hinit
  have hw := encodeCommand_of_decodeCommand h
  rw [encodeCommand, Option.some.injEq] at hw
  obtain ⟨hop, hpat, -, -, hres⟩ := commandWord_fields 0x01 pat role.toBit false
  rw [hw] at hop hpat hres
  rw [decodeCommand_of_init hres (by rw [opField, hop]; rfl)] at h
  obtain ⟨-, hle, -⟩ := decodeInit_eq_ok.mp h
  simpa [Instr.wf, hpat] using hle

/-- The word of a command without fields decodes to it, when its opcode selects it. -/
theorem decodeCommand_plainWord {op : BitVec 8} {i : Instr}
    (hsel : ∀ w : Word32, w.extractLsb' 14 18 = 0 → w.extractLsb' 0 8 = op → decodeCommand w = decodePlain w i) :
    decodeCommand (commandWord op 0 false false) = .ok i := by
  obtain ⟨hop, hpat, hrole, hadp, hres⟩ := commandWord_fields op 0 false false
  rw [hsel _ hres hop, decodePlain_eq_ok]
  exact ⟨hpat, hrole, hadp, rfl⟩

/-- The word of a transport command decodes to it with its `adp`, when its opcode selects it. -/
theorem decodeCommand_adpWord {op : BitVec 8} {f : Bool → Instr} (adp : Bool)
    (hsel : ∀ w : Word32, w.extractLsb' 14 18 = 0 → w.extractLsb' 0 8 = op → decodeCommand w = decodeAdp w f) :
    decodeCommand (commandWord op 0 false adp) = .ok (f adp) := by
  obtain ⟨hop, hpat, hrole, hadp, hres⟩ := commandWord_fields op 0 false adp
  rw [hsel _ hres hop, decodeAdp_eq_ok, hadp]
  exact ⟨hpat, hrole, rfl⟩

/-- The word of HS_INIT with a legal pattern code decodes to it. -/
theorem decodeCommand_initWord {pat : BitVec 4} (role : Role) (hpat : pat.toNat ≤ 8) :
    decodeCommand (commandWord 0x01 pat role.toBit false) = .ok (.hsInit pat role) := by
  obtain ⟨hop, hpatField, hrole, hadp, hres⟩ := commandWord_fields 0x01 pat role.toBit false
  rw [decodeCommand_of_init hres (by rw [opField, hop]; rfl), decodeInit_eq_ok, hpatField, hrole, Role.ofBit_toBit]
  exact ⟨hadp, hpat, rfl⟩

/-- The word that the encoder gives for a well-formed instruction decodes to it. -/
theorem decodeCommand_of_encodeCommand {i : Instr} {w : Word32} (hwf : i.wf = true) (h : encodeCommand i = some w) :
    decodeCommand w = .ok i := by
  cases i <;> cases h
  case hsInit.refl pat role => exact decodeCommand_initWord role (by simpa [Instr.wf] using hwf)
  case tcEnc.refl adp =>
    exact decodeCommand_adpWord adp fun w hres hop => by rw [decodeCommand, if_neg (not_not_intro hres), hop]; rfl
  case tcDec.refl adp =>
    exact decodeCommand_adpWord adp fun w hres hop => by rw [decodeCommand, if_neg (not_not_intro hres), hop]; rfl
  all_goals
    exact decodeCommand_plainWord fun w hres hop => by rw [decodeCommand, if_neg (not_not_intro hres), hop]; rfl

/-- Settles O1: a decoded word is the encoding of its instruction (`encodeCommand_of_decodeCommand`), and the encoding
decodes to it (`decodeCommand_of_encodeCommand`), whose checks see the fields it was made of. -/
theorem commandWordMeansExactlyItsInstruction : Obligations.CommandWordMeansExactlyItsInstruction := by
  intro w i
  rw [decode_bytesOfWord]
  constructor
  · intro h
    have hw := encodeCommand_of_decodeCommand h
    exact ⟨encodeCommand_isSome.mp (by rw [hw]; rfl), wf_of_decodeCommand h, hw⟩
  · rintro ⟨-, hwf, hw⟩
    exact decodeCommand_of_encodeCommand hwf hw

/-! ### The internal formats -/

/-- A byte of known value. -/
theorem byte_eq_of_toNat {b : Byte} {n : Nat} (h : b.toNat = n) : b = BitVec.ofNat 8 n := by
  rw [← h, BitVec.ofNat_toNat, BitVec.setWidth_eq]

/-- A token code decodes exactly to the token that it encodes (R56). -/
theorem decodeToken_eq_ok {b : Byte} {i : Instr} :
    decodeToken b = .ok i ↔ i.format = .T ∧ encodeInternal i = some b := by
  constructor
  · intro h
    unfold decodeToken at h
    split at h
    case h_9 => split at h <;> cases h
    all_goals
      rename_i hb
      cases h
      exact ⟨rfl, by rw [byte_eq_of_toNat hb]; rfl⟩
  · rintro ⟨hformat, h⟩
    cases i <;> cases hformat <;> cases h <;> rfl

/-- A micro-operation code decodes exactly to the micro-operation that it encodes (R57). -/
theorem decodeMicro_eq_ok {b : Byte} {i : Instr} :
    decodeMicro b = .ok i ↔ i.format = .U ∧ encodeInternal i = some b := by
  constructor
  · intro h
    unfold decodeMicro at h
    split at h
    case h_6 => split at h <;> cases h
    all_goals
      rename_i hb
      cases h
      exact ⟨rfl, by rw [byte_eq_of_toNat hb]; rfl⟩
  · rintro ⟨hformat, h⟩
    cases i <;> cases hformat <;> cases h <;> rfl

/-- A DH-port code decodes exactly to the operation that it encodes (R58). -/
theorem decodeDh_eq_ok {b : Byte} {i : Instr} :
    decodeDh b = .ok i ↔ i.format = .D ∧ encodeInternal i = some b := by
  constructor
  · intro h
    unfold decodeDh at h
    split at h
    case h_3 => cases h
    all_goals
      rename_i hb
      cases h
      exact ⟨rfl, by rw [byte_eq_of_toNat hb]; rfl⟩
  · rintro ⟨hformat, h⟩
    cases i <;> cases hformat <;> cases h <;> rfl

/-- A byte with no bit above bit 4 is the sponge-port byte of its two fields (R53). -/
theorem spongeByte_eta {b : Byte} (h : b.extractLsb' 5 3 = 0) :
    spongeByte (Ctx.ofId (b.extractLsb' 3 2)) (b.extractLsb' 0 3) = b := by
  revert b
  decide

/-- A sponge-port code decodes exactly to the operation that it encodes (R53, R58). -/
theorem decodeSponge_eq_ok {b : Byte} {i : Instr} :
    decodeSponge b = .ok i ↔ i.format = .P ∧ encodeInternal i = some b := by
  constructor
  · intro h
    unfold decodeSponge at h
    split at h
    · cases h
    next hwide =>
    have heta := spongeByte_eta (not_not.mp hwide)
    have hcode {n : Nat} (hn : (b.extractLsb' 0 3).toNat = n) : b.extractLsb' 0 3 = BitVec.ofNat 3 n := by
      rw [← hn, BitVec.ofNat_toNat, BitVec.setWidth_eq]
    dsimp only at h
    split at h
    case h_8 h0 h1 h2 h3 h4 h5 h6 =>
      cases h
      have hn : (b.extractLsb' 0 3).toNat = 7 := by
        have hlt := (b.extractLsb' 0 3).isLt
        simp only [imp_false] at *
        omega
      rw [hcode hn] at heta
      exact ⟨rfl, congrArg some heta⟩
    all_goals
      rename_i hn
      cases h
      rw [hcode hn] at heta
      exact ⟨rfl, congrArg some heta⟩
  · rintro ⟨hformat, h⟩
    cases i <;> cases hformat <;> cases h <;> rename_i c <;> cases c <;> rfl

/-- A code of an internal format decodes exactly to the instruction of that format that it encodes. -/
theorem decode_internal_eq_ok {f : Format} {b : Byte} {i : Instr} (hf : f ≠ .H) :
    decode f [b] = .ok i ↔ i.format = f ∧ encodeInternal i = some b := by
  cases f with
  | H => exact absurd rfl hf
  | T => exact decodeToken_eq_ok
  | U => exact decodeMicro_eq_ok
  | P => exact decodeSponge_eq_ok
  | D => exact decodeDh_eq_ok

/-- Only one byte decodes to an instruction of an internal format. -/
theorem eq_singleton_of_decode {f : Format} {bs : Bytes} {i : Instr} (hf : f ≠ .H) (h : decode f bs = .ok i) :
    ∃ b, bs = [b] := by
  rcases bs with _ | ⟨b, _ | ⟨c, cs⟩⟩
  · cases f <;> cases h
  · exact ⟨b, rfl⟩
  · cases f <;> first | exact absurd rfl hf | cases h

/-- Only four bytes decode to an instruction of format H, and they are those of a word. -/
theorem eq_bytesOfWord_of_decode {bs : Bytes} {i : Instr} (h : decode .H bs = .ok i) : ∃ w, bs = bytesOfWord w := by
  rcases bs with _ | ⟨b0, _ | ⟨b1, _ | ⟨b2, _ | ⟨b3, _ | ⟨b4, bs⟩⟩⟩⟩⟩
  case cons.cons.cons.cons.nil =>
    refine ⟨wordOfBytes b0 b1 b2 b3, ?_⟩
    have hbyte {a : Nat} {b : Byte} (hb : ∀ j < 8, (wordOfBytes b0 b1 b2 b3).getLsbD (a + j) = b.getLsbD j) :
        (wordOfBytes b0 b1 b2 b3).extractLsb' a 8 = b := by
      apply BitVec.eq_of_getLsbD_eq
      intro j hj
      rw [BitVec.getLsbD_extractLsb', hb j hj, decide_eq_true hj, Bool.true_and]
    rw [bytesOfWord, hbyte (b := b0), hbyte (b := b1), hbyte (b := b2), hbyte (b := b3)]
    all_goals
      intro j hj
      rw [wordOfBytes_getLsbD]
      simp +arith (disch := omega) only [if_pos, if_neg, if_false, Nat.add_sub_cancel]
  all_goals cases h

/-- The encoder gives a byte to every instruction of an internal format, and no word. -/
theorem encode_internal {i : Instr} (hf : i.format ≠ .H) : ∃ b, encodeInternal i = some b ∧ encode i = [b] := by
  cases i <;> first | exact absurd rfl hf | exact ⟨_, rfl, rfl⟩

/-- The bytes of an instruction of format H are those of the word the encoder gives. -/
theorem encode_command {i : Instr} {w : Word32} (h : encodeCommand i = some w) : encode i = bytesOfWord w := by
  rw [encode, h]

/-- A well-formed instruction is decoded from its encoding. -/
theorem decode_encode {i : Instr} (hwf : i.wf = true) : decode i.format (encode i) = .ok i := by
  by_cases hf : i.format = .H
  · obtain ⟨w, hw⟩ := Option.isSome_iff_exists.mp (encodeCommand_isSome.mpr hf)
    rw [hf, encode_command hw, decode_bytesOfWord, decodeCommand_of_encodeCommand hwf hw]
  · obtain ⟨b, hb, henc⟩ := encode_internal hf
    rw [henc, decode_internal_eq_ok hf]
    exact ⟨rfl, hb⟩

/-- Bytes that decode are the encoding of the well-formed instruction of the format that they decode to. -/
theorem encode_of_decode {f : Format} {bs : Bytes} {i : Instr} (h : decode f bs = .ok i) :
    i.format = f ∧ i.wf = true ∧ encode i = bs ∧ (f ≠ .H → (encodeInternal i).toList = bs) := by
  by_cases hf : f = .H
  · subst hf
    obtain ⟨w, rfl⟩ := eq_bytesOfWord_of_decode h
    obtain ⟨hformat, hwf, hw⟩ := (commandWordMeansExactlyItsInstruction w i).mp h
    exact ⟨hformat, hwf, encode_command hw, fun hne => absurd rfl hne⟩
  · obtain ⟨b, rfl⟩ := eq_singleton_of_decode hf h
    obtain ⟨hformat, hb⟩ := (decode_internal_eq_ok hf).mp h
    subst hformat
    obtain ⟨c, hc, henc⟩ := encode_internal hf
    obtain rfl : b = c := Option.some.inj (hb.symm.trans hc)
    refine ⟨rfl, ?_, henc, fun _ => by rw [hb]; rfl⟩
    cases i <;> first | rfl | exact absurd rfl hf

/-- The token codes are the bytes below 8 (R56). -/
theorem token_decodes_iff (b : Byte) : (∃ i, decode .T [b] = .ok i) ↔ b.toNat < 8 := by
  constructor
  · rintro ⟨i, h⟩
    obtain ⟨hformat, hb⟩ := decodeToken_eq_ok.mp h
    cases i <;> cases hformat <;> cases hb <;> decide
  · intro h
    show ∃ i, decodeToken b = .ok i
    unfold decodeToken
    split
    case h_9 =>
      simp only [imp_false] at *
      omega
    all_goals exact ⟨_, rfl⟩

/-- The micro-operation codes are the bytes below 5 (R57). -/
theorem micro_decodes_iff (b : Byte) : (∃ i, decode .U [b] = .ok i) ↔ b.toNat < 5 := by
  constructor
  · rintro ⟨i, h⟩
    obtain ⟨hformat, hb⟩ := decodeMicro_eq_ok.mp h
    cases i <;> cases hformat <;> cases hb <;> decide
  · intro h
    show ∃ i, decodeMicro b = .ok i
    unfold decodeMicro
    split
    case h_6 =>
      simp only [imp_false] at *
      omega
    all_goals exact ⟨_, rfl⟩

/-- The sponge-port codes are the bytes below 32 (R53). -/
theorem sponge_decodes_iff (b : Byte) : (∃ i, decode .P [b] = .ok i) ↔ b.toNat < 32 := by
  constructor
  · rintro ⟨i, h⟩
    obtain ⟨hformat, hb⟩ := decodeSponge_eq_ok.mp h
    cases i <;> cases hformat <;> cases hb <;> rename_i c <;> cases c <;> decide
  · intro h
    have hwide : b.extractLsb' 5 3 = 0 := by
      apply BitVec.eq_of_toNat_eq
      rw [BitVec.extractLsb'_toNat, Nat.shiftRight_eq_div_pow, Nat.div_eq_of_lt h]
      rfl
    show ∃ i, decodeSponge b = .ok i
    rw [decodeSponge, if_neg (not_not_intro hwide)]
    dsimp only
    split <;> exact ⟨_, rfl⟩

/-- The DH-port codes are the bytes below 2 (R53). -/
theorem dh_decodes_iff (b : Byte) : (∃ i, decode .D [b] = .ok i) ↔ b.toNat < 2 := by
  constructor
  · rintro ⟨i, h⟩
    obtain ⟨hformat, hb⟩ := decodeDh_eq_ok.mp h
    cases i <;> cases hformat <;> cases hb <;> decide
  · intro h
    show ∃ i, decodeDh b = .ok i
    unfold decodeDh
    split
    case h_3 =>
      simp only [imp_false] at *
      omega
    all_goals exact ⟨_, rfl⟩

/-- Settles O2: both directions format by format (`decode_encode`, `encode_of_decode`), the ranges of codes, and the step on
the issue of a code that decodes to nothing. -/
theorem decodingAnEncodingGivesItBack : Obligations.DecodingAnEncodingGivesItBack := by
  refine ⟨fun i => decode_encode, fun f bs i => encode_of_decode,
    fun b => ⟨token_decodes_iff b, micro_decodes_iff b, sponge_decodes_iff b, dh_decodes_iff b⟩, ?_⟩
  intro s f w o rest hin hbad
  simp only [Machine.step, hin, Machine.perform, Machine.Event.word]
  cases hdec : decode f [w] with
  | ok i => exact absurd hdec (hbad i)
  | error r => rfl

/-- Settles O4: each word is decoded by computation. -/
theorem wordsOfTheSpecDecode : Obligations.WordsOfTheSpecDecode :=
  ⟨rfl, rfl, rfl, rfl, rfl, rfl, rfl, rfl, rfl, rfl, rfl⟩

end Sys2Proof
end

section
/-! PROOFS. The step and the host's accesses (10_state.md R26, R30 to R33; 20_memory.md R40, R45, R48; 60_exceptions.md
R148, R157; 70_reset_and_hazards.md R159; 93 U12). -/

namespace Sys2Proof.Machine

/-! ### The step -/

/-- The step on the next event (R40). -/
theorem step_of_inbox {s : State} {e : Event} {rest : List Event} (h : s.inbox = e :: rest) :
    step s = perform e { s with inbox := rest } := by
  simp only [step, h]

/-- Settles O6: the step looks at the inbox first. -/
theorem idleHoldsAllState : Obligations.IdleHoldsAllState := by
  intro s h
  simp only [step, h]

/-- Only the issue of an internal instruction prepares anything (R51 to R53). -/
theorem prepare_of_not_issue {e : Event} (h : ∀ g w o, e ≠ .issue g w o) (s : State) : e.prepare s = s := by
  cases e with
  | issue g w o => exact absurd rfl (h g w o)
  | _ => rfl

/-- Settles O5: the event's bytes are decoded once, and its operands stand on the operand lines. -/
theorem stepRunsTheDecodedInstruction : Obligations.StepRunsTheDecodedInstruction := by
  intro s e rest f bs i hin hw hdec
  refine ⟨?_, fun u h => prepare_of_not_issue h u, ?_⟩
  · rw [step_of_inbox hin]
    simp only [perform, hw, hdec]
  · rintro u g w o rfl
    rfl

/-- The step on a host access that carries no instruction. -/
theorem step_of_host_access {s : State} {e : Event} {rest : List Event} (hin : s.inbox = e :: rest)
    (hw : e.word = none) : step s = performHost e { s with inbox := rest } := by
  rw [step_of_inbox hin]
  simp only [perform, hw]

/-! ### Key slots -/

/-- While HS.PHASE is not ACTIVE the host loads every key slot but K.RE (R26). -/
theorem hostWriteSlot_of_writable {s : State} {k : Slot} (v : Key) (hp : s.phase ≠ .active) (hk : k ≠ .RE) :
    hostWriteSlot k v s = s.setSlot k (some v) := by
  unfold hostWriteSlot
  split
  case h_1 h => exact absurd h hp
  case h_2 => exact absurd rfl hk
  case h_3 => rfl

/-- While HS.PHASE is ACTIVE, and for K.RE always, the host's write of a key slot is ignored (R26, 93 U12). -/
theorem hostWriteSlot_of_ignored {s : State} {k : Slot} (v : Key) (h : s.phase = .active ∨ k = .RE) :
    hostWriteSlot k v s = s := by
  unfold hostWriteSlot
  split
  case h_1 => rfl
  case h_2 => rfl
  case h_3 hre hactive =>
    rcases h with h | h
    · exact absurd h hactive
    · exact absurd h hre

/-- Settles O7: the two cases of a write of a key slot. -/
theorem hostLoadsKeySlotsOutsideAHandshake : Obligations.HostLoadsKeySlotsOutsideAHandshake := by
  intro s k v rest hin u
  have hstep : step s = .next (hostWriteSlot k v u) := step_of_host_access hin rfl
  exact ⟨fun hp hk => hstep.trans (congrArg _ (hostWriteSlot_of_writable v hp hk)),
    fun h => hstep.trans (congrArg _ (hostWriteSlot_of_ignored v h))⟩

/-! ### Registers and buffers -/

/-- A length register lowered keeps the bytes below it (R30). -/
theorem hostSetLen_of_le {b : Buf} {n : BitVec 16} {s : State} (h : n.toNat ≤ (s.buf b).length) :
    hostSetLen b n s = s.setBuf b ((s.buf b).take n.toNat) := if_pos h

/-- A length register raised lets the buffer cover free bytes (R30, 93 U6). -/
theorem hostSetLen_of_lt {b : Buf} {n : BitVec 16} {s : State} (h : (s.buf b).length < n.toNat) :
    hostSetLen b n s = { s.setBuf b (s.buf b ++ freeBytes s.freeCtr (n.toNat - (s.buf b).length)) with
      freeCtr := s.freeCtr + (n.toNat - (s.buf b).length) } := if_neg (Nat.not_le.mpr h)

/-- A write of the length register of a buffer sets its length to the low 16 bits of the word (R30). -/
theorem hostWriteReg_length {v : Word32} {b : Buf} {n : Nat} (s : State)
    (h : (n = 4 ∧ b = .MSG) ∨ (n = 5 ∧ b = .DAT) ∨ (n = 6 ∧ b = .AD)) :
    hostWriteReg n v s = .next (hostSetLen b (v.extractLsb' 0 16) s) := by
  have hlow : v.setWidth 16 = v.extractLsb' 0 16 := by
    apply BitVec.eq_of_toNat_eq
    simp
  rcases h with ⟨rfl, rfl⟩ | ⟨rfl, rfl⟩ | ⟨rfl, rfl⟩ <;> rw [← hlow] <;> rfl

/-- A read-only register ignores a write (93 U12). -/
theorem hostWriteReg_readOnly {n : Nat} (v : Word32) (s : State) (h : n ∈ [1, 7, 8, 9]) :
    hostWriteReg n v s = .next s := by
  simp only [List.mem_cons, List.not_mem_nil, or_false] at h
  rcases h with rfl | rfl | rfl | rfl <;> rfl

/-- There is no register above 9 (R30). -/
theorem hostWriteReg_above {n : Nat} (v : Word32) (s : State) (h : 9 < n) :
    hostWriteReg n v s = .fault .noSuchRegister := by
  unfold hostWriteReg
  split <;> first | rfl | omega

/-- A poke keeps the length, replaces the bytes at its offset that lie inside, and no other (R36). -/
theorem hostPoke_bytes (b : Buf) (a : Nat) (data : Bytes) (s : State) :
    ∃ bs, hostPoke b a data s = s.setBuf b bs ∧ bs.length = (s.buf b).length
      ∧ ∀ i, i < bs.length → bs[i]? = if a ≤ i ∧ i < a + data.length then data[i - a]? else (s.buf b)[i]? := by
  refine ⟨_, rfl, ?_, fun i hi => ?_⟩
  · simp
    omega
  generalize s.buf b = cur at hi ⊢
  simp only [List.length_append, List.length_take, List.length_drop] at hi
  rcases Nat.lt_or_ge i a with hia | hia
  · rw [if_neg (by omega), List.append_assoc, List.getElem?_append_left (by simp; omega), List.getElem?_take_of_lt hia]
  have htake : (cur.take a).length = a := by simp; omega
  rw [List.append_assoc, List.getElem?_append_right (by omega), htake]
  rcases Nat.lt_or_ge i (a + data.length) with hid | hid
  · rw [if_pos ⟨hia, hid⟩, List.getElem?_append_left (by simp; omega), List.getElem?_take_of_lt (by omega)]
  · rw [if_neg (by omega), List.getElem?_append_right (by simp; omega), List.getElem?_drop]
    congr 1
    simp
    omega

/-- A write of a register above CMD carries no instruction (R30). -/
theorem word_of_reg {n : Nat} (h : n ≠ 0) (v : Word32) : (Event.reg n v).word = none := by
  unfold Event.word
  split <;> simp_all

/-- Settles O8: access by access, each by its law above. -/
theorem hostWritesRegistersAndBuffers : Obligations.HostWritesRegistersAndBuffers := by
  intro s e rest hin u
  have hreg {n : Nat} {v : Word32} (hn : n ≠ 0) (he : e = .reg n v) : step s = hostWriteReg n v u := by
    subst he
    exact step_of_host_access hin (word_of_reg hn v)
  refine ⟨fun v he => hreg (by decide) he, fun v he => hreg (by decide) he, fun v b he => ?_,
    fun n v he hn => ?_, fun n v he hn => ?_, fun b data he => ?_, fun b a data he => ?_⟩
  · have hstep : step s = .next (hostSetLen b (v.extractLsb' 0 16) u) := by
      rcases he with ⟨he, hb⟩ | ⟨he, hb⟩ | ⟨he, hb⟩
      · rw [hreg (by decide) he, hostWriteReg_length u (.inl ⟨rfl, hb⟩)]
      · rw [hreg (by decide) he, hostWriteReg_length u (.inr (.inl ⟨rfl, hb⟩))]
      · rw [hreg (by decide) he, hostWriteReg_length u (.inr (.inr ⟨rfl, hb⟩))]
    have hbuf : u.buf b = s.buf b := by cases b <;> rfl
    intro n len
    refine ⟨fun hle => ?_, fun hlt => ?_⟩
    · rw [hstep, hostSetLen_of_le (by rwa [hbuf]), hbuf]
    · rw [hstep, hostSetLen_of_lt (by rwa [hbuf]), hbuf]
  · rw [hreg (by rintro rfl; simp at hn) he, hostWriteReg_readOnly v u hn]
  · rw [hreg (by omega) he, hostWriteReg_above v u hn]
  · subst he
    have hstep : step s = hostLoad b data u := step_of_host_access hin rfl
    exact ⟨fun hle => hstep.trans (if_pos hle), fun hlt => hstep.trans (if_neg (Nat.not_le.mpr hlt))⟩
  · subst he
    have hbuf : u.buf b = s.buf b := by cases b <;> rfl
    obtain ⟨bs, hpoke, hbytes⟩ := hostPoke_bytes b a data u
    rw [hbuf] at hbytes
    exact ⟨bs, (step_of_host_access hin rfl).trans (congrArg Host.Outcome.next hpoke), hbytes⟩

/-! ### What the host reads -/

/-- Every bit of STATUS, field by field (R31). -/
theorem status_getLsbD (s : State) (i : Nat) : s.status.getLsbD i =
    if i < 4 then s.err.code.getLsbD i
    else if i < 8 then s.cv.code.getLsbD (i - 4)
    else if i = 8 then s.fatal
    else if i < 11 then s.phase.code.getLsbD (i - 9)
    else if i < 13 then s.seq.getLsbD (i - 11)
    else if i = 13 then s.keyed
    else if i = 14 then s.paydone
    else if i = 15 then s.lastw
    else if i = 16 then s.msgcur
    else if i = 17 then s.tcValid
    else if i = 18 then s.tcAborted
    else if i = 19 then s.role.toBit
    else s.pattern.code.getLsbD (i - 20) := by
  unfold State.status
  simp only [BitVec.getLsbD_append, BitVec.getLsbD_ofBool, Nat.sub_sub]
  rcases Nat.lt_or_ge i 24 with h | h
  · interval_cases i <;> simp
  · simp (disch := omega) [if_neg]

/-- A field of a word is a value when their bits agree. -/
theorem extractLsb'_eq_of_bits {w a n : Nat} {x : BitVec w} {v : BitVec n}
    (h : ∀ j < n, x.getLsbD (a + j) = v.getLsbD j) : x.extractLsb' a n = v := by
  apply BitVec.eq_of_getLsbD_eq
  intro j hj
  rw [BitVec.getLsbD_extractLsb', h j hj, decide_eq_true hj, Bool.true_and]

/-- The fields of STATUS of more than one bit (R31). -/
theorem status_fields (s : State) :
    s.status.extractLsb' 0 4 = s.err.code ∧ s.status.extractLsb' 4 4 = s.cv.code
      ∧ s.status.extractLsb' 9 2 = s.phase.code ∧ s.status.extractLsb' 11 2 = s.seq
      ∧ s.status.extractLsb' 20 4 = s.pattern.code ∧ s.status.extractLsb' 24 8 = 0 := by
  refine ⟨?_, ?_, ?_, ?_, ?_, ?_⟩ <;> refine extractLsb'_eq_of_bits fun j hj => ?_ <;> rw [status_getLsbD]
  case refine_6 =>
    simp (disch := omega) only [if_neg]
    rw [BitVec.getLsbD_of_ge _ _ (by omega)]
    exact BitVec.getLsbD_zero.symm
  all_goals simp (disch := omega) only [if_pos, if_neg, Nat.zero_add, Nat.add_sub_cancel_left]

/-- Each bit of KV is the valid bit of its slot (R26, R30). -/
theorem kv_bits (s : State) :
    s.kv.getLsbD 0 = s.kS.isSome ∧ s.kv.getLsbD 1 = s.kE.isSome ∧ s.kv.getLsbD 2 = s.kRS.isSome
      ∧ s.kv.getLsbD 3 = s.kRE.isSome ∧ s.kv.getLsbD 4 = s.kPSK.isSome := by
  unfold State.kv
  simp only [BitVec.getLsbD_append, BitVec.getLsbD_ofBool]
  simp

/-- A register number that stands for no readable register gives no value (R30, 93 U12). -/
theorem readReg_of_none {n : Nat} (s : State) (h : n = 0 ∨ 9 < n) : s.readReg n = none := by
  unfold State.readReg
  split <;> first | rfl | omega

/-- Settles O9: STATUS by its bits (`status_getLsbD`), with the codes of its named values; every other read by its
definition. -/
theorem statusFieldsStandWhereTabled : Obligations.StatusFieldsStandWhereTabled := by
  intro s
  obtain ⟨herr, hcv, hphase, hseq, hpattern, hres⟩ := status_fields s
  obtain ⟨hkS, hkE, hkRS, hkRE, hkPSK⟩ := kv_bits s
  refine ⟨?_, ?_, status_getLsbD s 8, ?_, hseq, status_getLsbD s 13, status_getLsbD s 14, status_getLsbD s 15,
    status_getLsbD s 16, status_getLsbD s 17, status_getLsbD s 18, ?_, ?_, hres, hkS, hkE, hkRS, hkRE, hkPSK,
    rfl, rfl, rfl, rfl, rfl, rfl, rfl, rfl, rfl, fun n => readReg_of_none s, rfl, rfl, rfl, rfl, rfl, rfl,
    fun a => ⟨rfl, rfl, rfl⟩⟩
  · rw [herr]
    generalize s.err = e
    cases e <;> decide
  · rw [hcv]
    generalize s.cv = c
    cases c <;> decide
  · rw [hphase]
    generalize s.phase = p
    cases p <;> decide
  · rw [show s.status.getLsbD 19 = s.role.toBit from status_getLsbD s 19]
    generalize s.role = r
    cases r <;> decide
  · rw [hpattern]
    generalize s.pattern = p
    cases p <;> decide

/-- Settles O10: neither STATUS nor KV nor any other read looks at a context, at the value of an own key, or at a
transient register. -/
theorem hostViewHidesSecrets : Obligations.HostViewHidesSecrets := by
  intro s a b c d x y z dho rk tag ptx t
  have hkv : t.kv = s.kv := by simp only [State.kv, t, Option.isSome_map]
  refine ⟨fun n => ?_, fun k => by cases k <;> rfl, rfl, fun m i => by cases m <;> rfl⟩
  unfold State.readReg
  split
  case h_7 => rw [hkv]
  all_goals rfl

/-! ### FATAL and RESET -/

/-- Settles O20: every instruction but RESET is `runCommand` or `runInternal` of its body, both of which refuse while
FATAL = 1 (R148). -/
theorem fatalIsSticky : Obligations.FatalIsSticky := by
  intro i s hfatal
  refine ⟨fun hreset => ?_, rfl, rfl, rfl⟩
  by_cases hf : i.format = .H
  · exact exec_command_of_fatal hf hreset hfatal
  · exact (exec_internal hf s).trans (runInternal_of_fatal hfatal)

/-- Settles O22: a fixed state, field by field. -/
theorem resetValuesAsTabled : Obligations.ResetValuesAsTabled := by
  unfold Obligations.ResetValuesAsTabled State.contextsWiped State.ownKeysWiped State.transientsClear
  decide

/-- Settles O23: RESET is its word alone (`decodeCommand_eq_reset`); another word with its opcode does not decode. -/
theorem resetHasTheEffectOfHardwareReset : Obligations.ResetHasTheEffectOfHardwareReset := by
  refine ⟨rfl, fun s => rfl, fun s e w rest hin hw hop hne => ?_⟩
  split
  case isTrue hfatal => exact step_of_fatal hin hw hfatal hne
  case isFalse hgood => exact step_of_resetOpcode hin hw (Bool.eq_false_iff.mpr hgood) hop hne

/-- Settles O25: a fixed state; no handshake is active in it. -/
theorem hostDrivenMachineStartsTracked : Obligations.HostDrivenMachineStartsTracked where
  consistent := by constructor <;> decide
  hostOnly := rfl
  transients := by unfold State.transientsClear; decide
  handshake := nofun

end Sys2Proof.Machine
end

section
/-! PROOFS. The internal formats as steps of their own: the sponge port and the DH port (40_symmetric_state.md R70 to R82),
the symmetric-state mixer (R84 to R88, R90). -/

namespace Sys2Proof.Machine

/-! ### An internal operation by the end of its body -/

section
variable {i : Instr} {s t u : State} (hf : i.format ≠ .H) (hgood : s.fatal = false)
include hf hgood

/-- An internal operation whose body ends well gives its result to the issuer. -/
theorem exec_of_internal_ok {b : Bytes} (h : internalBody Config.params i s = .ok b t) (hu : { t with res := b } = u) :
    exec i s = .next u := by
  rw [exec_internal_good hf hgood, h, finishInternal_ok, hu]

/-- An internal operation whose body raises an error writes it to STATUS.ERR. -/
theorem exec_of_internal_err {e : RtErr} (h : internalBody Config.params i s = .err e t)
    (hu : { t with err := e.toErr } = u) : exec i s = .next u := by
  rw [exec_internal_good hf hgood, h, finishInternal_err, hu]

/-- An internal operation whose check fails takes the contract violation. -/
theorem exec_of_internal_viol {c : Cause} (h : internalBody Config.params i s = .viol c t) :
    exec i s = .next (enterViolation c t) := by
  rw [exec_internal_good hf hgood, h, finishInternal_viol]

end

/-! ### The sponge port -/

/-- Settles O49: a port operation reads its context through the threader, which finds it invalid (`port_of_none`) or hands
its value over. -/
theorem portOperationsThreadTheNamedContext : Obligations.PortOperationsThreadTheNamedContext := by
  refine ⟨fun c s hgood hx i hi => ?_, fun c s x hgood hx => ⟨?_, ?_, ?_, ?_, ?_⟩⟩
  · obtain ⟨habsorb, hsqueeze, hencrypt, hdecrypt, hratchet, hclone⟩ :=
      port_of_none Config.params hx s.op.data s.op.count
    simp only [List.mem_cons, List.not_mem_nil, or_false] at hi
    rcases hi with rfl | rfl | rfl | rfl | rfl | rfl
    · exact exec_of_internal_viol (by nofun) hgood (congrArg noResult habsorb)
    · exact exec_of_internal_viol (by nofun) hgood (congrArg (Res.map Vector.toList) hsqueeze)
    · exact exec_of_internal_viol (by nofun) hgood hencrypt
    · exact exec_of_internal_viol (by nofun) hgood hdecrypt
    · exact exec_of_internal_viol (by nofun) hgood (congrArg noResult hratchet)
    · exact exec_of_internal_viol (by nofun) hgood (congrArg noResult hclone)
  · exact exec_of_internal_ok (by nofun) hgood (congrArg noResult (spAbsorb_of_some hx)) rfl
  · exact exec_of_internal_ok (by nofun) hgood (congrArg (Res.map Vector.toList) (spSqueeze_of_some hx)) rfl
  · exact exec_of_internal_ok (by nofun) hgood (spEncrypt_of_some hx) rfl
  · exact exec_of_internal_ok (by nofun) hgood (spDecrypt_of_some hx) rfl
  · exact exec_of_internal_ok (by nofun) hgood (congrArg noResult (spRatchet_of_some hx)) rfl

/-- Settles O50: SP.INIT and SP.LANESEED read no context, SP.CLONE the one it names. -/
theorem portOperationsCreateAContext : Obligations.PortOperationsCreateAContext := by
  intro c s hgood
  exact ⟨exec_of_internal_ok (by nofun) hgood rfl rfl, exec_of_internal_ok (by nofun) hgood rfl rfl,
    fun x hx => exec_of_internal_ok (by nofun) hgood (congrArg noResult (spClone_of_some hx)) rfl⟩

/-! ### The DH port -/

/-- DH.COMBINE with an invalid slot (R81). -/
theorem dhCombine_of_invalid {P : Params} {kp : KpSlot} {pk : PkSlot} {s : State}
    (h : s.kpVal kp = none ∨ s.pkVal pk = none) : dhCombine P kp pk s = .viol .keySlot s := by
  unfold dhCombine
  split
  case h_1 a b ha hb => rcases h with h | h <;> simp_all
  case h_2 => rfl

/-- DH.COMBINE with both slots valid (R81). -/
theorem dhCombine_of_valid {P : Params} {kp : KpSlot} {pk : PkSlot} {s : State} {a b : Key}
    (ha : s.kpVal kp = some a) (hb : s.pkVal pk = some b) :
    dhCombine P kp pk s = (match P.dhCombine a b with
      | some z => .ok () { s with dho := z }
      | none => .err .dhFailure s) := by
  cases hz : P.dhCombine a b <;> simp only [dhCombine, ha, hb, hz]

/-- DH.PUB of an invalid key pair (R82). -/
theorem dhPub_of_invalid {P : Params} {kp : KpSlot} {s : State} (h : s.kpVal kp = none) :
    dhPub P kp s = .viol .keySlot s := by
  simp only [dhPub, h]

/-- DH.PUB of a valid key pair (R82). -/
theorem dhPub_of_valid {P : Params} {kp : KpSlot} {s : State} {a : Key} (h : s.kpVal kp = some a) :
    dhPub P kp s = .ok (P.dhPub a) s := by
  simp only [dhPub, h]

/-- Settles O51: the two operations with invalid slots, then with valid ones, where DH.COMBINE gives a secret or fails. -/
theorem dhPortCombinesAndDerives : Obligations.DhPortCombinesAndDerives := by
  intro s hgood
  refine ⟨fun h => ?_, fun h => ?_, fun a b ha hb => ?_, fun a ha => ?_⟩
  · exact exec_of_internal_viol (by nofun) hgood (congrArg noResult (dhCombine_of_invalid h))
  · exact exec_of_internal_viol (by nofun) hgood (congrArg (Res.map Vector.toList) (dhPub_of_invalid h))
  · have hbody := congrArg noResult (dhCombine_of_valid (P := Config.params) ha hb)
    cases hz : Config.params.dhCombine a b with
    | some z => exact exec_of_internal_ok (by nofun) hgood (by rw [hz] at hbody; exact hbody) rfl
    | none => exact exec_of_internal_err (by nofun) hgood (by rw [hz] at hbody; exact hbody) rfl
  · exact exec_of_internal_ok (by nofun) hgood (congrArg (Res.map Vector.toList) (dhPub_of_valid ha)) rfl

/-! ### The symmetric-state mixer -/

/-- Settles O45: SS_INIT reads no transcript, the two mixes absorb into a valid one. -/
theorem symmetricStateInitAndMix : Obligations.SymmetricStateInitAndMix := by
  intro s hgood
  refine ⟨exec_of_internal_ok (by nofun) hgood rfl rfl, fun x hx => ⟨?_, ?_⟩⟩
  · exact exec_of_internal_ok (by nofun) hgood (congrArg noResult (ssMixhash_of_some hx)) rfl
  · exact exec_of_internal_ok (by nofun) hgood (congrArg noResult (ssMixkey_of_some hx)) rfl

/-- Settles O46: the check of SS.KEYED, then the length of what is decrypted, then the tag. -/
theorem symmetricStateEncryptAndDecrypt : Obligations.SymmetricStateEncryptAndDecrypt := by
  intro s hgood
  refine ⟨fun hk => ⟨?_, ?_⟩, fun hk hlen => ?_, fun x hk hx => ?_, fun x hk hx hlen => ?_⟩
  · exact exec_of_internal_viol (by nofun) hgood (ssEncrypt_of_not_keyed hk)
  · exact exec_of_internal_viol (by nofun) hgood (ssDecrypt_of_not_keyed hk)
  · exact exec_of_internal_err (by nofun) hgood (ssDecrypt_of_short hk hlen) rfl
  · exact exec_of_internal_ok (by nofun) hgood (ssEncrypt_of_keyed hk hx) rfl
  · intro n c q
    have hbody := ssDecrypt_of_keyed (P := Config.params) hk hx hlen
    by_cases hq : q.2.toList = s.op.data.drop n
    · rw [if_pos hq]
      exact exec_of_internal_ok (by nofun) hgood (hbody.trans (if_pos hq)) rfl
    · rw [if_neg hq]
      exact exec_of_internal_err (by nofun) hgood (hbody.trans (if_neg hq)) rfl

/-- SS_DECRYPT of a block that SS_ENCRYPT made from an equal transcript gives the plaintext and an equal transcript: the
ciphertext decrypts to it (SP-INV, R69), so the tag squeezed after it is the one received (R90). -/
theorem ssDecrypt_of_encrypted {P : Params} {d : Bytes} {s : State} {x : Sponge} (hk : s.keyed = true)
    (hx : s.ctxT = some x) :
    ssDecrypt P ((P.spEncrypt x d).2 ++ (P.spSqueeze (P.spEncrypt x d).1 16).2.toList) s
      = .ok d { s with ctxT := some (P.spSqueeze (P.spEncrypt x d).1 16).1, ptx := [], tagx := Tag.zero } := by
  have hlen : ((P.spEncrypt x d).2 ++ (P.spSqueeze (P.spEncrypt x d).1 16).2.toList).length - 16
      = (P.spEncrypt x d).2.length := by simp
  rw [ssDecrypt_of_keyed hk hx (by simp), hlen, List.take_left' rfl, List.drop_left' rfl]
  simp only [decrypt_encrypt, if_true]

/-- Settles O47: `ssDecrypt_of_encrypted`, on the block that SS_ENCRYPT gave. -/
theorem symmetricStatesStayEqual : Obligations.SymmetricStatesStayEqual := by
  intro w r x hgoodW hgoodR hkW hkR hxW hxR
  refine ⟨_, _, exec_of_internal_ok (by nofun) hgoodW (ssEncrypt_of_keyed hkW hxW) rfl,
    exec_of_internal_ok (by nofun) hgoodR (ssDecrypt_of_encrypted (d := w.op.data) hkR hxR) rfl, rfl, rfl, ?_, rfl, ?_⟩
  · exact hkW.trans hkR.symm
  · simp [Config.params.spEncrypt_length]

end Sys2Proof.Machine
end

section
/-! PROOFS. The tokens (41_handshake.md R97 to R105): what each form of E and S and each token that mixes a key does,
said once, and the tokens as steps of their own. -/

namespace Sys2Proof.Machine

/-! ### Token E -/

/-- The writing form of E without K.E (R97). -/
theorem tokenEWrite_of_none {P : Params} {s : State} (h : s.kE = none) : tokenEWrite P s = .viol .keySlot s := by
  rw [tokenEWrite, require_of_not (by simp [h]), Res.bind_viol]

/-- The writing form of E sends the own ephemeral public key at the offset and absorbs it (R97). -/
theorem tokenEWrite_of_some {P : Params} {s : State} {e : Key} {x : Sponge} (he : s.kE = some e)
    (hx : s.ctxT = some x) (hoff : s.op.off.toNat ≤ s.msg.length) (hcap : s.op.off.toNat + 32 ≤ 65535) :
    tokenEWrite P s = .ok () { s with
      msg := s.msg.take s.op.off.toNat ++ (P.dhPub e).toList ++ s.msg.drop (s.op.off.toNat + 32)
      ctxT := some (P.spAbsorb x (P.dhPub e).toList)
      op := { s.op with off := s.op.off + 32 } } := by
  have hlen : (P.dhPub e).toList.length = 32 := by simp
  rw [tokenEWrite, require_of (by simp [he]), Res.bind_ok, dhPub_of_valid (kp := .E) he, Res.bind_ok,
    tokenWrite_of_le (by rwa [hlen]) hoff, Res.bind_ok, ssMixhash_of_some (x := x) (by exact hx), Res.bind_ok, hlen]
  rfl

/-- The reading form of E when K.RE is valid already (R98). -/
theorem tokenERead_of_some {P : Params} {s : State} (h : s.kRE.isSome = true) :
    tokenERead P s = .viol .keySlot s := by
  rw [tokenERead, require_of_not (by simp [h]), Res.bind_viol]

/-- The reading form of E takes the remote ephemeral public key from the offset and absorbs it (R98). -/
theorem tokenERead_of_none {P : Params} {s : State} {x : Sponge} (h : s.kRE = none) (hx : s.ctxT = some x)
    (hlen : s.op.off.toNat + 32 ≤ s.msg.length) :
    tokenERead P s = (let v := keyOfBytes ((s.msg.drop s.op.off.toNat).take 32)
      .ok () { s with
        kRE := some v, ctxT := some (P.spAbsorb x v.toList), op := { s.op with off := s.op.off + 32 } }) := by
  rw [tokenERead, require_of (by simp [h]), Res.bind_ok]
  dsimp only
  rw [memRead_of_le hlen]
  rw [ssMixhash_of_some (x := x) (by exact hx), Res.bind_ok]
  rfl

/-! ### Token S -/

/-- The writing form of S without K.S (R99). -/
theorem tokenSWrite_of_none {P : Params} {s : State} (h : s.kS = none) : tokenSWrite P s = .viol .keySlot s := by
  rw [tokenSWrite, require_of_not (by simp [h]), Res.bind_viol]

/-- The writing form of S without a key (R87, R99). -/
theorem tokenSWrite_of_not_keyed {P : Params} {s : State} {k : Key} (hk : s.kS = some k) (h : s.keyed = false) :
    tokenSWrite P s = .viol .notKeyed s := by
  rw [tokenSWrite, require_of (by simp [hk]), Res.bind_ok, dhPub_of_valid (kp := .S) hk, Res.bind_ok,
    ssEncrypt_of_not_keyed h, Res.bind_viol]

/-- The writing form of S sends the own static public key, encrypted and tagged, at the offset (R99). -/
theorem tokenSWrite_of_some {P : Params} {s : State} {k : Key} {x : Sponge} (hk : s.kS = some k)
    (hkeyed : s.keyed = true) (hx : s.ctxT = some x) (hoff : s.op.off.toNat ≤ s.msg.length)
    (hcap : s.op.off.toNat + 48 ≤ 65535) :
    tokenSWrite P s =
      (let c := P.spEncrypt x (P.dhPub k).toList
       let q := P.spSqueeze c.1 16
       .ok () { s with
        msg := s.msg.take s.op.off.toNat ++ (c.2 ++ q.2.toList) ++ s.msg.drop (s.op.off.toNat + 48)
        ctxT := some q.1, op := { s.op with off := s.op.off + 48 } }) := by
  have hlen : ((P.spEncrypt x (P.dhPub k).toList).2
      ++ (P.spSqueeze (P.spEncrypt x (P.dhPub k).toList).1 16).2.toList).length = 48 := by
    simp [P.spEncrypt_length]
  rw [tokenSWrite, require_of (by simp [hk]), Res.bind_ok, dhPub_of_valid (kp := .S) hk, Res.bind_ok,
    ssEncrypt_of_keyed hkeyed hx, Res.bind_ok, tokenWrite_of_le (by rwa [hlen]) (by exact hoff), Res.bind_ok, hlen]
  rfl

/-- The reading form of S when K.RS is valid already (R100). -/
theorem tokenSRead_of_some {P : Params} {s : State} (h : s.kRS.isSome = true) :
    tokenSRead P s = .viol .keySlot s := by
  rw [tokenSRead, require_of_not (by simp [h]), Res.bind_viol]

/-- The reading form of S is SS_DECRYPT of the 48 bytes at the offset, whose plaintext is the remote key (R100). -/
theorem tokenSRead_of_none {P : Params} {s : State} (h : s.kRS = none)
    (hlen : s.op.off.toNat + 48 ≤ s.msg.length) :
    tokenSRead P s = (ssDecrypt P ((s.msg.drop s.op.off.toNat).take 48) s).bind fun pt s =>
      .ok () (advanceOff 48 { s with kRS := some (keyOfBytes pt) }) := by
  rw [tokenSRead, require_of (by simp [h]), Res.bind_ok]
  dsimp only
  rw [memRead_of_le hlen]
  rfl

/-- The block of 48 bytes that the reading form of S decrypts. -/
theorem length_take_drop_48 {m : Bytes} {a : Nat} (h : a + 48 ≤ m.length) : ((m.drop a).take 48).length = 48 := by
  rw [List.length_take, List.length_drop]
  omega

/-! ### Tokens as steps of their own -/

/-- A byte outside a stretch that was replaced by one of the same length reads as before. -/
theorem getElem?_replaced {cur data : Bytes} {a i n : Nat} (hn : data.length = n) (ha : a ≤ cur.length)
    (h : i < a ∨ a + n ≤ i) : (cur.take a ++ data ++ cur.drop (a + n))[i]? = cur[i]? := by
  subst hn
  rcases h with h | h
  · rw [List.append_assoc, List.getElem?_append_left (by simp; omega), List.getElem?_take_of_lt h]
  · rw [List.getElem?_append_right (by simp; omega), List.getElem?_drop]
    congr 1
    simp
    omega

section
variable {P : Params} {s : State}

/-- Token E as a step of its own, in the writing form. -/
theorem internalBody_tokE_writing (h : s.op.form = .writing) :
    internalBody P .tokE s = noResult (tokenEWrite P s) := by
  simp only [internalBody, tokenE, h]

/-- Token E as a step of its own, in the reading form. -/
theorem internalBody_tokE_reading (h : s.op.form = .reading) :
    internalBody P .tokE s = noResult (tokenERead P s) := by
  simp only [internalBody, tokenE, h]

/-- Token S as a step of its own, in the writing form. -/
theorem internalBody_tokS_writing (h : s.op.form = .writing) :
    internalBody P .tokS s = noResult (tokenSWrite P s) := by
  simp only [internalBody, tokenS, h]

/-- Token S as a step of its own, in the reading form. -/
theorem internalBody_tokS_reading (h : s.op.form = .reading) :
    internalBody P .tokS s = noResult (tokenSRead P s) := by
  simp only [internalBody, tokenS, h]

end

/-- Settles O41: the two forms, each with its check and its effect. -/
theorem tokenESendsOrTakesTheEphemeralKey : Obligations.TokenESendsOrTakesTheEphemeralKey := by
  refine ⟨rfl, fun s hgood => ⟨fun hform he => ?_, fun hform hre => ?_, fun e x hform he hx hoff hcap => ?_,
    fun x hform hre hx hlen => ?_⟩⟩
  · have hbody := congrArg noResult (tokenEWrite_of_none (P := Config.params) he)
    exact exec_of_internal_viol (by nofun) hgood ((internalBody_tokE_writing hform).trans hbody)
  · have hbody := congrArg noResult (tokenERead_of_some (P := Config.params) hre)
    exact exec_of_internal_viol (by nofun) hgood ((internalBody_tokE_reading hform).trans hbody)
  · have hbody := congrArg noResult (tokenEWrite_of_some (P := Config.params) he hx hoff hcap)
    exact ⟨_, exec_of_internal_ok (by nofun) hgood ((internalBody_tokE_writing hform).trans hbody) rfl, rfl,
      fun a ha => getElem?_replaced (Vector.length_toList) hoff ha⟩
  · have hbody := congrArg noResult (tokenERead_of_none (P := Config.params) hre hx hlen)
    exact exec_of_internal_ok (by nofun) hgood ((internalBody_tokE_reading hform).trans hbody) rfl

/-- Settles O42: the two forms, each with its checks, the reading form by whether the tag verifies. -/
theorem tokenSSendsOrTakesTheStaticKey : Obligations.TokenSSendsOrTakesTheStaticKey := by
  refine ⟨rfl, fun s hgood => ⟨fun hform hs => ?_, fun hform hrs => ?_, fun hkeyed => ⟨fun hform hs => ?_,
    fun hform hrs hlen => ?_⟩, fun k x hform hk hkeyed hx hoff hcap => ?_, fun x hform hrs hkeyed hx hlen => ?_⟩⟩
  · have hbody := congrArg noResult (tokenSWrite_of_none (P := Config.params) hs)
    exact exec_of_internal_viol (by nofun) hgood ((internalBody_tokS_writing hform).trans hbody)
  · have hbody := congrArg noResult (tokenSRead_of_some (P := Config.params) hrs)
    exact exec_of_internal_viol (by nofun) hgood ((internalBody_tokS_reading hform).trans hbody)
  · obtain ⟨k, hk⟩ := Option.isSome_iff_exists.mp hs
    have hbody := congrArg noResult (tokenSWrite_of_not_keyed (P := Config.params) hk hkeyed)
    exact exec_of_internal_viol (by nofun) hgood ((internalBody_tokS_writing hform).trans hbody)
  · have hbody := congrArg noResult (tokenSRead_of_none (P := Config.params) hrs hlen)
    rw [ssDecrypt_of_not_keyed hkeyed] at hbody
    exact exec_of_internal_viol (by nofun) hgood ((internalBody_tokS_reading hform).trans hbody)
  · intro c q
    have hlen : (c.2 ++ q.2.toList).length = 48 := by simp [c, q, Config.params.spEncrypt_length]
    have hbody := congrArg noResult (tokenSWrite_of_some (P := Config.params) hk hkeyed hx hoff hcap)
    exact ⟨_, exec_of_internal_ok (by nofun) hgood ((internalBody_tokS_writing hform).trans hbody) rfl, rfl,
      fun a ha => getElem?_replaced hlen hoff ha⟩
  · intro blk c q
    have hblk : blk.length = 48 := length_take_drop_48 hlen
    have hbody := congrArg noResult (tokenSRead_of_none (P := Config.params) hrs hlen)
    rw [ssDecrypt_of_keyed hkeyed hx (by rw [hblk]; decide), hblk] at hbody
    dsimp only at hbody
    by_cases hq : q.2.toList = blk.drop 32
    · rw [if_pos hq] at hbody ⊢
      exact exec_of_internal_ok (by nofun) hgood ((internalBody_tokS_reading hform).trans hbody) rfl
    · rw [if_neg hq] at hbody ⊢
      exact exec_of_internal_err (by nofun) hgood ((internalBody_tokS_reading hform).trans hbody) rfl

/-- A token that mixes a DH output is `mixDh` of the slots its role gives it (R101 to R104). -/
theorem internalBody_dhToken {i : Instr} {kp : KpSlot} {pk : PkSlot} {s : State} (P : Params)
    (h : (i = .tokEe ∧ kp = .E ∧ pk = .RE) ∨ (i = .tokSs ∧ kp = .S ∧ pk = .RS)
      ∨ (i = .tokEs ∧ ((s.role = .initiator ∧ kp = .E ∧ pk = .RS) ∨ (s.role = .responder ∧ kp = .S ∧ pk = .RE)))
      ∨ (i = .tokSe ∧ ((s.role = .initiator ∧ kp = .S ∧ pk = .RE) ∨ (s.role = .responder ∧ kp = .E ∧ pk = .RS)))) :
    i.format ≠ .H ∧ internalBody P i s = noResult (mixDh P kp pk s) := by
  rcases h with ⟨rfl, rfl, rfl⟩ | ⟨rfl, rfl, rfl⟩ | ⟨rfl, ⟨hr, rfl, rfl⟩ | ⟨hr, rfl, rfl⟩⟩
    | ⟨rfl, ⟨hr, rfl, rfl⟩ | ⟨hr, rfl, rfl⟩⟩
  case inl => exact ⟨nofun, rfl⟩
  case inr.inl => exact ⟨nofun, rfl⟩
  all_goals exact ⟨nofun, by simp only [internalBody, tokenEs, tokenSe, hr]⟩

/-- Settles O43: the tokens are `mixDh` (`internalBody_dhToken`), which finds a slot invalid or combines the two. -/
theorem dhTokensMixTheSharedSecret : Obligations.DhTokensMixTheSharedSecret := by
  intro i kp pk s hgood h
  obtain ⟨hf, hbody⟩ := internalBody_dhToken Config.params h
  refine ⟨fun hnone => ?_, fun a b x ha hb hx => ?_⟩
  · exact exec_of_internal_viol hf hgood (hbody.trans (congrArg noResult (mixDh_of_invalid hnone)))
  · rw [mixDh_of_valid ha hb hx] at hbody
    cases hz : Config.params.dhCombine a b with
    | some z => exact exec_of_internal_ok hf hgood (by rw [hbody, hz]; rfl) rfl
    | none => exact exec_of_internal_err hf hgood (by rw [hbody, hz]; rfl) rfl

/-- Token PSK without K.PSK (R105). -/
theorem tokenPsk_of_none {P : Params} {s : State} (h : s.kPSK = none) : tokenPsk P s = .viol .keySlot s := by
  simp only [tokenPsk, h]

/-- Token PSK mixes the pre-shared secret (R105). -/
theorem tokenPsk_of_some {P : Params} {s : State} {k : Key} {x : Sponge} (h : s.kPSK = some k) (hx : s.ctxT = some x) :
    tokenPsk P s = .ok () { s with ctxT := some (P.spAbsorb x k.toList), keyed := true } := by
  simp only [tokenPsk, h, ssMixkey_of_some hx]

/-- Settles O44: END is no operation, PSK mixes its slot. -/
theorem tokenPskMixesTheSecretAndEndDoesNothing : Obligations.TokenPskMixesTheSecretAndEndDoesNothing := by
  intro s hgood
  exact ⟨exec_of_internal_ok (by nofun) hgood rfl rfl,
    fun h => exec_of_internal_viol (by nofun) hgood (congrArg noResult (tokenPsk_of_none h)),
    fun k x h hx => exec_of_internal_ok (by nofun) hgood (congrArg noResult (tokenPsk_of_some h hx)) rfl⟩

end Sys2Proof.Machine
end

section
/-! PROOFS. The transport commands (42_transport.md R124 to R132): what each check of TC_ENC and TC_DEC refuses, what the
commands do past their checks, the round trip, and the independence of the two directions. -/

namespace Sys2Proof.Machine

/-! ### A host command by the end of its body -/

section
variable {i : Instr} {s t u : State} (hf : i.format = .H) (hr : i ≠ .reset) (hgood : s.fatal = false)
include hf hr hgood

/-- A command whose body ends well ends OK, with the transient registers wiped (R29). -/
theorem exec_of_command_ok (h : commandBody Config.params i s = .ok () t) (hu : { t.wipe with err := .ok } = u) :
    exec i s = .next u := by
  rw [exec_command_good hf hr hgood, h, finishCommand_ok, hu]

/-- A command whose body raises an error ends with it in STATUS.ERR, with the transient registers wiped (R29, R147). -/
theorem exec_of_command_err {e : RtErr} (h : commandBody Config.params i s = .err e t)
    (hu : { t.wipe with err := e.toErr } = u) : exec i s = .next u := by
  rw [exec_command_good hf hr hgood, h, finishCommand_err, hu]

/-- A command whose check fails takes the contract violation (R146). -/
theorem exec_of_command_viol {c : Cause} (h : commandBody Config.params i s = .viol c t)
    (hu : enterViolation c t = u) : exec i s = .next u := by
  rw [exec_command_good hf hr hgood, h, finishCommand_viol, hu]

end

/-! ### The checks of TC_ENC and TC_DEC -/

/-- Every state passes `tc_precheck` or fails it with one cause, which depends on TC.VALID and TC.ABORTED alone (R125). -/
theorem tcPrecheck_viol_of_not {s t : State} (hv : t.tcValid = s.tcValid) (ha : t.tcAborted = s.tcAborted)
    (h : ¬ (s.tcValid = true ∧ s.tcAborted = false)) :
    ∃ c, tcPrecheck s = .viol c s ∧ tcPrecheck t = .viol c t := by
  by_cases hvalid : s.tcValid = true
  · have haborted : s.tcAborted = true := by
      rw [← Bool.not_eq_false]
      exact fun hf => h ⟨hvalid, hf⟩
    exact ⟨.terminal, tcPrecheck_of_aborted hvalid haborted,
      tcPrecheck_of_aborted (hv.trans hvalid) (ha.trans haborted)⟩
  · have hinvalid : s.tcValid = false := Bool.eq_false_iff.mpr hvalid
    exact ⟨.noCtx, tcPrecheck_of_invalid hinvalid, tcPrecheck_of_invalid (hv.trans hinvalid)⟩

section
variable {P : Params} {adp : Bool} {s : State}

theorem tcEnc_of_precheck {c : Cause} (h : tcPrecheck s = .viol c s) : tcEnc P adp s = .viol c s := by
  rw [tcEnc, h, Res.bind_viol]

theorem tcDec_of_precheck {c : Cause} (h : tcPrecheck s = .viol c s) : tcDec P adp s = .viol c s := by
  rw [tcDec, h, Res.bind_viol]

variable (hv : s.tcValid = true) (ha : s.tcAborted = false)
include hv ha

/-- A plaintext whose frame would not fit is CV_LEN, before the nonce is looked at (R126). -/
theorem tcEnc_of_long (hl : 65535 < s.dat.length + 16) : tcEnc P adp s = .viol .len s := by
  rw [tcEnc, tcPrecheck_ok hv ha, Res.bind_ok,
    require_of_not (by simp only [Config.tagLen, Config.maxMsgLen]; omega), Res.bind_viol]

/-- A send counter at its maximum is CV_NONCE (R126, R132). -/
theorem tcEnc_of_nonceMax (hl : s.dat.length + 16 ≤ 65535) (hn : ¬ s.snonce.toNat < 2 ^ 64 - 1) :
    tcEnc P adp s = .viol .nonce s := by
  rw [tcEnc, tcPrecheck_ok hv ha, Res.bind_ok, require_of (by simpa only [Config.tagLen, Config.maxMsgLen] using hl),
    Res.bind_ok, require_of_not (by simpa only [Config.nonceMax, BitVec.toNat_allOnes] using hn), Res.bind_viol]

/-- A transport context without its send lane is CV_SEQ (R70). -/
theorem tcEnc_of_noLane (hl : s.dat.length + 16 ≤ 65535) (hn : s.snonce.toNat < 2 ^ 64 - 1) (hx : s.ctxS = none) :
    tcEnc P adp s = .viol .seq s := by
  rw [tcEnc, tcPrecheck_ok hv ha, Res.bind_ok, require_of (by simpa only [Config.tagLen, Config.maxMsgLen] using hl),
    Res.bind_ok, require_of (by simpa only [Config.nonceMax, BitVec.toNat_allOnes] using hn), Res.bind_ok, spClone,
    withCtx_of_none (c := .S) hx, Res.bind_viol]

/-- A frame beyond the capacity is CV_LEN; no buffer in its canonical form holds one (R127). -/
theorem tcDec_of_long (hl : ¬ s.msg.length ≤ 65535) : tcDec P adp s = .viol .len s := by
  rw [tcDec, tcPrecheck_ok hv ha, Res.bind_ok, require_of_not (by simpa only [Config.maxMsgLen] using hl), Res.bind_viol]

variable (hl : s.msg.length ≤ 65535)
include hl

/-- A receive counter at its maximum is CV_NONCE, whatever the frame (R127, R132). -/
theorem tcDec_of_nonceMax (hn : ¬ s.rnonce.toNat < 2 ^ 64 - 1) : tcDec P adp s = .viol .nonce s := by
  rw [tcDec, tcPrecheck_ok hv ha, Res.bind_ok, require_of (by simpa only [Config.maxMsgLen] using hl), Res.bind_ok,
    require_of_not (by simpa only [Config.nonceMax, BitVec.toNat_allOnes] using hn), Res.bind_viol]

variable (hn : s.rnonce.toNat < 2 ^ 64 - 1)
include hn

/-- A frame shorter than a tag is CiphertextTooShort, with nothing changed (R127). -/
theorem tcDec_of_short (hshort : s.msg.length < 16) : tcDec P adp s = .err .ciphertextTooShort s := by
  rw [tcDec, tcPrecheck_ok hv ha, Res.bind_ok, require_of (by simpa only [Config.maxMsgLen] using hl), Res.bind_ok,
    require_of (by simpa only [Config.nonceMax, BitVec.toNat_allOnes] using hn), Res.bind_ok,
    if_pos (by simpa only [Config.tagLen] using hshort)]

/-- A transport context without its receive lane is CV_SEQ (R70). -/
theorem tcDec_of_noLane (htag : 16 ≤ s.msg.length) (hx : s.ctxR = none) : tcDec P adp s = .viol .seq s := by
  rw [tcDec, tcPrecheck_ok hv ha, Res.bind_ok, require_of (by simpa only [Config.maxMsgLen] using hl), Res.bind_ok,
    require_of (by simpa only [Config.nonceMax, BitVec.toNat_allOnes] using hn), Res.bind_ok,
    if_neg (by simp only [Config.tagLen]; omega), spClone, withCtx_of_none (c := .R) hx, Res.bind_viol]

end

/-! ### The commands past their checks -/

/-- Settles O52: `tcEnc_of_checks`, ended. -/
theorem tcEncSealsAMessage : Obligations.TcEncSealsAMessage := by
  intro adp s x hgood hv ha hl hn hx
  exact exec_of_command_ok rfl (by nofun) hgood (tcEnc_of_checks hv ha hl hn hx) rfl

/-- Settles O53: a short frame, or a frame with a tag, which verifies or not. -/
theorem tcDecOpensAMessage : Obligations.TcDecOpensAMessage := by
  intro adp s hgood hv ha hl hn
  refine ⟨fun hshort => ?_, fun x htag hx => ?_⟩
  · exact exec_of_command_err rfl (by nofun) hgood (tcDec_of_short hv ha hl hn hshort) rfl
  · intro n y z c q
    have hbody := tcDec_of_checks (P := Config.params) (adp := adp) hv ha hl hn htag hx
    dsimp only at hbody
    by_cases hq : q.2.toList = s.msg.drop n
    · rw [if_pos hq] at hbody ⊢
      exact exec_of_command_ok rfl (by nofun) hgood hbody rfl
    · rw [if_neg hq] at hbody ⊢
      exact exec_of_command_err rfl (by nofun) hgood hbody rfl

/-- Settles O55: the checks of length and counter. -/
theorem transportLimitsAreViolations : Obligations.TransportLimitsAreViolations := by
  intro adp s hgood hv ha
  refine ⟨fun hlong => ?_, fun hl hmax => ?_, fun hl hmax => ?_⟩
  · exact exec_of_command_viol rfl (by nofun) hgood (tcEnc_of_long hv ha hlong) rfl
  · exact exec_of_command_viol rfl (by nofun) hgood (tcEnc_of_nonceMax hv ha hl (by omega)) rfl
  · exact exec_of_command_viol rfl (by nofun) hgood (tcDec_of_nonceMax hv ha hl (by omega)) rfl

/-- TC_REKEY_S with a send lane (R129). -/
theorem tcRekeyS_of_lane {P : Params} {s : State} {x : Sponge} (hv : s.tcValid = true) (ha : s.tcAborted = false)
    (hx : s.ctxS = some x) : tcRekeyS P s = .ok () { s with ctxS := some (P.spRatchet x) } := by
  rw [tcRekeyS, tcPrecheck_ok hv ha, Res.bind_ok, spRatchet_of_some (c := .S) hx]
  rfl

/-- TC_REKEY_R with a receive lane (R130). -/
theorem tcRekeyR_of_lane {P : Params} {s : State} {y : Sponge} (hv : s.tcValid = true) (ha : s.tcAborted = false)
    (hy : s.ctxR = some y) : tcRekeyR P s = .ok () { s with ctxR := some (P.spRatchet y) } := by
  rw [tcRekeyR, tcPrecheck_ok hv ha, Res.bind_ok, spRatchet_of_some (c := .R) hy]
  rfl

/-- TC_REKEY with both lanes (R131). -/
theorem tcRekey_of_lanes {P : Params} {s : State} {x y : Sponge} (hv : s.tcValid = true) (ha : s.tcAborted = false)
    (hx : s.ctxS = some x) (hy : s.ctxR = some y) :
    tcRekey P s = .ok () { s with ctxS := some (P.spRatchet x), ctxR := some (P.spRatchet y) } := by
  rw [tcRekey, tcPrecheck_ok hv ha, Res.bind_ok, spRatchet_of_some (c := .S) hx, Res.bind_ok,
    spRatchet_of_some (c := .R) (x := y) (by exact hy)]
  rfl

/-- Settles O54: each rekey command ratchets its lanes; TC_REKEY_R after TC_REKEY_S finds the receive lane as it was. -/
theorem rekeyRatchetsTheLanes : Obligations.RekeyRatchetsTheLanes := by
  intro s x y hgood hv ha hx hy xs yr
  have hboth : exec .tcRekey s = .next { s.wipe with err := .ok, ctxS := xs, ctxR := yr } :=
    exec_of_command_ok rfl (by nofun) hgood (tcRekey_of_lanes hv ha hx hy) rfl
  refine ⟨?_, ?_, hboth, ?_⟩
  · exact exec_of_command_ok rfl (by nofun) hgood (tcRekeyS_of_lane hv ha hx) rfl
  · exact exec_of_command_ok rfl (by nofun) hgood (tcRekeyR_of_lane hv ha hy) rfl
  · rw [hboth]
    exact exec_of_command_ok rfl (by nofun) hgood (tcRekeyR_of_lane (y := y) hv ha hy) rfl

/-! ### The round trip -/

/-- Settles O56: the receiver's copy of the lane absorbs what the sender's did, so the ciphertext decrypts to the plaintext
(SP-INV, R69) and the tag squeezed after it is the one received. -/
theorem transportRoundTrip : Obligations.TransportRoundTrip := by
  intro adp w r x hgoodW hgoodR hvW hvR haW haR hxW hxR hnonce hn had hl
  have hinc : (w.snonce + 1).toNat = w.snonce.toNat + 1 := by
    rw [BitVec.toNat_add, Nat.mod_eq_of_lt]
    · rfl
    · show w.snonce.toNat + 1 < 2 ^ 64
      omega
  have hsend := tcEnc_of_checks (P := Config.params) (adp := adp) hvW haW hl hn hxW
  dsimp only at hsend
  generalize hy : Config.params.spAbsorb x (leBytes 8 w.snonce.toNat) = y at hsend
  generalize hz : (if adp = true then Config.params.spAbsorb y w.ad else y) = z at hsend
  generalize hc : Config.params.spEncrypt z w.dat = c at hsend
  generalize hq : Config.params.spSqueeze c.1 16 = q at hsend
  have hclen : c.2.length = w.dat.length := by rw [← hc, Config.params.spEncrypt_length]
  have hlen : (c.2 ++ q.2.toList).length = w.dat.length + 16 := by simp [hclen]
  have hrecv := tcDec_of_checks (P := Config.params) (adp := adp) (s := { r with msg := c.2 ++ q.2.toList }) (x := x)
    hvR haR (by rw [hlen]; exact hl) (by show r.rnonce.toNat < _; rw [← hnonce]; exact hn) (by rw [hlen]; omega) hxR
  have hdec : Config.params.spDecrypt z c.2 = (c.1, w.dat) := by rw [← hc, decrypt_encrypt]
  have hyR : Config.params.spAbsorb x (leBytes 8 r.rnonce.toNat) = y := by rw [← hnonce, hy]
  have hzR : (if adp = true then Config.params.spAbsorb y r.ad else y) = z := by rw [← had, hz]
  simp only [hlen, Nat.add_sub_cancel, hyR, hzR, List.take_left' hclen, List.drop_left' hclen, hdec, hq,
    if_true] at hrecv
  exact ⟨_, _, exec_of_command_ok rfl (by nofun) hgoodW hsend rfl, 
    exec_of_command_ok (s := { r with msg := c.2 ++ q.2.toList }) rfl (by nofun) hgoodR hrecv rfl,
    rfl, rfl, rfl, hlen, congrArg (· + 1) hnonce, hinc, hxW.trans hxR.symm, hxW, haR⟩

/-! ### The two directions -/

section
variable (P : Params) (adp : Bool) (s : State) (v : Option Sponge) (n : BitVec 64) (b : Bytes)

/-- TC_ENC with the receive lane, RNONCE and MSG replaced fails the same check, or seals the same frame (R124, R126). -/
theorem tcEnc_setReceiver :
    (∃ c, tcEnc P adp s = .viol c s
      ∧ tcEnc P adp { s with ctxR := v, rnonce := n, msg := b }
        = .viol c { s with ctxR := v, rnonce := n, msg := b })
    ∨ ∃ frame, tcEnc P adp s = .ok () { s with msg := frame, snonce := s.snonce + 1, ctxX := none }
      ∧ tcEnc P adp { s with ctxR := v, rnonce := n, msg := b }
        = .ok () { s with ctxR := v, rnonce := n, msg := frame, snonce := s.snonce + 1, ctxX := none } := by
  by_cases hcheck : s.tcValid = true ∧ s.tcAborted = false
  swap
  · obtain ⟨c, hs, ht⟩ := tcPrecheck_viol_of_not (s := s) (t := { s with ctxR := v, rnonce := n, msg := b }) rfl rfl hcheck
    exact .inl ⟨c, tcEnc_of_precheck hs, tcEnc_of_precheck ht⟩
  obtain ⟨hv, ha⟩ := hcheck
  by_cases hl : s.dat.length + 16 ≤ 65535
  swap
  · exact .inl ⟨.len, tcEnc_of_long hv ha (by omega), tcEnc_of_long hv ha (Nat.not_le.mp hl)⟩
  by_cases hn : s.snonce.toNat < 2 ^ 64 - 1
  swap
  · exact .inl ⟨.nonce, tcEnc_of_nonceMax hv ha hl hn, tcEnc_of_nonceMax hv ha hl hn⟩
  obtain hx | ⟨x, hx⟩ := Option.eq_none_or_eq_some s.ctxS
  · exact .inl ⟨.seq, tcEnc_of_noLane hv ha hl hn hx, tcEnc_of_noLane hv ha hl hn hx⟩
  · exact .inr ⟨_, tcEnc_of_checks hv ha hl hn hx, tcEnc_of_checks hv ha hl hn hx⟩

/-- TC_DEC with the send lane, SNONCE and DAT replaced fails the same check, takes the same short frame, finds the same
tag wrong, or opens the same frame (R124, R127). -/
theorem tcDec_setSender :
    (∃ c, tcDec P adp s = .viol c s
      ∧ tcDec P adp { s with ctxS := v, snonce := n, dat := b }
        = .viol c { s with ctxS := v, snonce := n, dat := b })
    ∨ (tcDec P adp s = .err .ciphertextTooShort s
      ∧ tcDec P adp { s with ctxS := v, snonce := n, dat := b }
        = .err .ciphertextTooShort { s with ctxS := v, snonce := n, dat := b })
    ∨ (tcDec P adp s = .err .messageCorrupted
          { s with dat := [], tcAborted := true, ptx := [], tagx := Tag.zero, ctxX := none }
      ∧ tcDec P adp { s with ctxS := v, snonce := n, dat := b } = .err .messageCorrupted
          { s with ctxS := v, snonce := n, dat := [], tcAborted := true, ptx := [], tagx := Tag.zero, ctxX := none })
    ∨ ∃ d, tcDec P adp s = .ok ()
          { s with dat := d, rnonce := s.rnonce + 1, ptx := [], tagx := Tag.zero, ctxX := none }
      ∧ tcDec P adp { s with ctxS := v, snonce := n, dat := b } = .ok ()
          { s with
            ctxS := v, snonce := n, dat := d, rnonce := s.rnonce + 1, ptx := [], tagx := Tag.zero, ctxX := none } := by
  by_cases hcheck : s.tcValid = true ∧ s.tcAborted = false
  swap
  · obtain ⟨c, hs, ht⟩ := tcPrecheck_viol_of_not (s := s) (t := { s with ctxS := v, snonce := n, dat := b }) rfl rfl hcheck
    exact .inl ⟨c, tcDec_of_precheck hs, tcDec_of_precheck ht⟩
  obtain ⟨hv, ha⟩ := hcheck
  by_cases hl : s.msg.length ≤ 65535
  swap
  · exact .inl ⟨.len, tcDec_of_long hv ha hl, tcDec_of_long hv ha hl⟩
  by_cases hn : s.rnonce.toNat < 2 ^ 64 - 1
  swap
  · exact .inl ⟨.nonce, tcDec_of_nonceMax hv ha hl hn, tcDec_of_nonceMax hv ha hl hn⟩
  rcases Nat.lt_or_ge s.msg.length 16 with hshort | htag
  · exact .inr (.inl ⟨tcDec_of_short hv ha hl hn hshort, tcDec_of_short hv ha hl hn hshort⟩)
  obtain hx | ⟨x, hx⟩ := Option.eq_none_or_eq_some s.ctxR
  · exact .inl ⟨.seq, tcDec_of_noLane hv ha hl hn htag hx, tcDec_of_noLane hv ha hl hn htag hx⟩
  have hs := tcDec_of_checks (P := P) (adp := adp) hv ha hl hn htag hx
  have ht := tcDec_of_checks (P := P) (adp := adp) (s := { s with ctxS := v, snonce := n, dat := b }) (x := x)
    hv ha hl hn htag hx
  dsimp only at hs ht
  generalize (if adp = true then _ else _ : Sponge) = z at hs ht
  split at hs
  case isTrue hq =>
    rw [if_pos hq] at ht
    exact .inr (.inr (.inr ⟨_, hs, ht⟩))
  case isFalse hq =>
    rw [if_neg hq] at ht
    exact .inr (.inr (.inl ⟨hs, ht⟩))

end

/-- Settles O57: the two commands end alike with the other direction's elements replaced (`tcEnc_setReceiver`,
`tcDec_setSender`), and the end of a command wipes or keeps those elements whatever they are. -/
theorem sendAndReceiveAreIndependent : Obligations.SendAndReceiveAreIndependent := by
  intro adp s t v n b hgood
  refine ⟨fun h => ?_, fun h => ?_⟩
  · rcases tcEnc_setReceiver Config.params adp s v n b with ⟨c, hs, ht⟩ | ⟨frame, hs, ht⟩
    · obtain rfl := Host.Outcome.next.inj (h.symm.trans (exec_of_command_viol rfl (by nofun) hgood hs rfl))
      rw [if_pos (enterViolation_fatal s c)]
      exact exec_of_command_viol rfl (by nofun) hgood ht rfl
    · obtain rfl := Host.Outcome.next.inj (h.symm.trans (exec_of_command_ok rfl (by nofun) hgood hs rfl))
      rw [if_neg (by simp [hgood])]
      exact exec_of_command_ok rfl (by nofun) hgood ht rfl
  · rcases tcDec_setSender Config.params adp s v n b with ⟨c, hs, ht⟩ | ⟨hs, ht⟩ | ⟨hs, ht⟩ | ⟨d, hs, ht⟩
    · obtain rfl := Host.Outcome.next.inj (h.symm.trans (exec_of_command_viol rfl (by nofun) hgood hs rfl))
      rw [if_pos (enterViolation_fatal s c)]
      exact exec_of_command_viol rfl (by nofun) hgood ht rfl
    · obtain rfl := Host.Outcome.next.inj (h.symm.trans (exec_of_command_err rfl (by nofun) hgood hs rfl))
      rw [if_neg (by simp [hgood]), if_pos (by rfl)]
      exact exec_of_command_err rfl (by nofun) hgood ht rfl
    · obtain rfl := Host.Outcome.next.inj (h.symm.trans (exec_of_command_err rfl (by nofun) hgood hs rfl))
      rw [if_neg (by simp [hgood]), if_neg (by nofun)]
      exact exec_of_command_err rfl (by nofun) hgood ht rfl
    · obtain rfl := Host.Outcome.next.inj (h.symm.trans (exec_of_command_ok rfl (by nofun) hgood hs rfl))
      rw [if_neg (by simp [hgood]), if_neg (by nofun)]
      exact exec_of_command_ok rfl (by nofun) hgood ht rfl

end Sys2Proof.Machine
end

section
/-! PROOFS. The password hash (43_password_hash.md R133 to R138): the number of calls, and the digest with each call's
counter in closed form. -/

namespace Sys2Proof.Machine

/-! ### The number of calls (R137) -/

/-- One hash call, whose end well and counter alone matter here. -/
theorem hashToBlock_phCnt (P : Params) (m : Nat) (xs : List Bytes) (s : State) :
    ∃ t, hashToBlock P m xs s = .ok () t ∧ t.phCnt = s.phCnt + 1 := by
  rw [hashToBlock, phH_eq, Res.bind_ok]
  exact ⟨_, rfl, rfl⟩

/-- A link makes two calls. -/
theorem phLink_phCnt (P : Params) (n l : Nat) (s : State) :
    ∃ t, phLink P n l s = .ok () t ∧ t.phCnt = s.phCnt + 2 := by
  rw [phLink]
  simp only [phH_eq, Res.bind_ok]
  obtain ⟨t, ht, hcnt⟩ := hashToBlock_phCnt P _ _ _
  refine ⟨t, ht, hcnt.trans ?_⟩
  rw [BitVec.add_assoc]
  rfl

/-- A counted loop whose every turn ends well and adds `k` to the counter adds `k` for every turn. -/
theorem forUp_phCnt {n k : Nat} {f : Nat → State → Res Unit}
    (hf : ∀ i s, ∃ t, f i s = .ok () t ∧ t.phCnt = s.phCnt + BitVec.ofNat 64 k) (s : State) :
    ∃ t, forUp n f s = .ok () t ∧ t.phCnt = s.phCnt + BitVec.ofNat 64 (k * n) := by
  refine forUp_keeps (I := fun i t => t.phCnt = s.phCnt + BitVec.ofNat 64 (k * i)) ?_ fun i u _ hu => ?_
  · rw [Nat.mul_zero, BitVec.add_zero]
  · obtain ⟨t, ht, hcnt⟩ := hf i u
    exact ⟨t, ht, by rw [hcnt, hu, Nat.mul_succ, BitVec.ofNat_add, BitVec.add_assoc]⟩

/-- A block makes seven calls: the recompute and three links of two. -/
theorem phBlock_phCnt (P : Params) (n m : Nat) (s : State) :
    ∃ t, phBlock P n m s = .ok () t ∧ t.phCnt = s.phCnt + BitVec.ofNat 64 7 := by
  rw [phBlock]
  obtain ⟨t, ht, hcnt⟩ := hashToBlock_phCnt P m
    [block { s with phM := BitVec.ofNat 64 m } (prevIndex n m), block { s with phM := BitVec.ofNat 64 m } m]
    { s with phM := BitVec.ofNat 64 m }
  obtain ⟨u, hu, hcntU⟩ := forUp_phCnt (n := Config.phDelta) (fun l => phLink_phCnt P n l) t
  refine ⟨u, by simp only [ht, Res.bind_ok, hu], ?_⟩
  rw [hcntU, hcnt, BitVec.add_assoc]
  rfl

/-- A round over `n` blocks makes `7 n` calls. -/
theorem phRound_phCnt (P : Params) (n t : Nat) (s : State) :
    ∃ u, phRound P n t s = .ok () u ∧ u.phCnt = s.phCnt + BitVec.ofNat 64 (7 * n) :=
  forUp_phCnt (phBlock_phCnt P n) _

/-- The seeding chain over `n` blocks makes `n` calls. -/
theorem phSeed_phCnt (P : Params) {n : Nat} (hn : 1 ≤ n) (s : State) :
    ∃ t, phSeed P n s = .ok () t ∧ t.phCnt = s.phCnt + BitVec.ofNat 64 n := by
  obtain ⟨t, ht, hcnt⟩ := hashToBlock_phCnt P 0 [s.dat, s.ad] s
  obtain ⟨u, hu, hcntU⟩ := forUp_phCnt (n := n - 1) (k := 1)
    (fun i v => hashToBlock_phCnt P (i + 1) [block v i] v) t
  refine ⟨u, by rw [phSeed, ht, Res.bind_ok, hu], ?_⟩
  rw [hcntU, hcnt, BitVec.add_assoc, show (1 : BitVec 64) = BitVec.ofNat 64 1 from rfl, ← BitVec.ofNat_add, Nat.one_mul,
    Nat.add_sub_cancel' hn]

/-- Settles O60: the calls of the seeding chain and of the rounds, added up. -/
theorem phHashCallCount : Obligations.PhHashCallCount := by
  intro n t s hn hzero
  obtain ⟨v, hv, hcntV⟩ := phSeed_phCnt Config.params hn s
  obtain ⟨u, hu, hcntU⟩ := forUp_phCnt (n := t) (phRound_phCnt Config.params n) v
  refine ⟨u, by rw [hv, Res.bind_ok, hu], ?_⟩
  rw [hcntU, hcntV, hzero, show (0 : BitVec 64) = 0#64 from rfl, BitVec.zero_add, ← BitVec.ofNat_add, Nat.mul_right_comm]

/-! ### The digest (R135, R136) -/

/-- A state with the password-hash registers and CTX_X erased, which PH_HASH zeroizes at its end (R28, R136). -/
def erasePhRegisters (s : State) : State :=
  { s with phb := [], phCnt := 0, phT := 0, phM := 0, phL := 0, phJ := 0, ctxX := none }

/-- `u` is a state in the middle of PH_HASH from `s`: call number `c` is next and the working buffer holds `bs`; outside
the password-hash registers nothing has changed. -/
structure PhAt (s u : State) (c : Nat) (bs : List Key) : Prop where
  frame : erasePhRegisters u = erasePhRegisters s
  cnt : u.phCnt = BitVec.ofNat 64 c
  blocks : u.phb = bs

section
variable {P : Params} {s u : State} {c : Nat} {bs : List Key}

theorem PhAt.ad (h : PhAt s u c bs) : u.ad = s.ad :=
  (congrArg State.ad h.frame : (erasePhRegisters u).ad = (erasePhRegisters s).ad)

theorem PhAt.dat (h : PhAt s u c bs) : u.dat = s.dat :=
  (congrArg State.dat h.frame : (erasePhRegisters u).dat = (erasePhRegisters s).dat)

theorem PhAt.block (h : PhAt s u c bs) (m : Nat) : block u m = refBlockBytes bs m := by
  rw [Machine.block, h.blocks, refBlockBytes]

/-- The indices kept in registers do not matter to the calls made so far. -/
theorem PhAt.setT (h : PhAt s u c bs) (t : BitVec 64) : PhAt s { u with phT := t } c bs := ⟨h.frame, h.cnt, h.blocks⟩
theorem PhAt.setM (h : PhAt s u c bs) (m : BitVec 64) : PhAt s { u with phM := m } c bs := ⟨h.frame, h.cnt, h.blocks⟩
theorem PhAt.setL (h : PhAt s u c bs) (l : BitVec 64) : PhAt s { u with phL := l } c bs := ⟨h.frame, h.cnt, h.blocks⟩
theorem PhAt.setJ (h : PhAt s u c bs) (j : BitVec 64) : PhAt s { u with phJ := j } c bs := ⟨h.frame, h.cnt, h.blocks⟩

/-- A hash call in the middle of PH_HASH; the index registers stay. -/
theorem PhAt.phH (h : PhAt s u c bs) (xs : List Bytes) :
    ∃ v, phH P xs u = .ok (refHash P c xs) v ∧ PhAt s v (c + 1) bs ∧ v.phT = u.phT ∧ v.phM = u.phM := by
  rw [phH_eq, h.cnt, refHash_mod]
  exact ⟨_, rfl, ⟨h.frame, (BitVec.ofNat_add c 1).symm, h.blocks⟩, rfl, rfl⟩

/-- `B[m] <- H(xs)` in the middle of PH_HASH; the index registers stay. -/
theorem PhAt.hashToBlock (h : PhAt s u c bs) (m : Nat) (xs : List Bytes) :
    ∃ v, hashToBlock P m xs u = .ok () v ∧ PhAt s v (c + 1) (bs.set m (refHash P c xs))
      ∧ v.phT = u.phT ∧ v.phM = u.phM :=
  ⟨_, hashToBlock_eq h.cnt, ⟨h.frame, rfl, by rw [← h.blocks]⟩, rfl, rfl⟩

end

/-- A number is absorbed alike from a 64-bit register and unbounded (R135). -/
theorem leBytes_ofNat (k : Nat) : leBytes 8 (BitVec.ofNat 64 k).toNat = leBytes 8 k := by
  rw [BitVec.toNat_ofNat]
  exact leBytes_mod 8 k

/-- A 64-bit register holds a block index. -/
theorem toNat_ofNat_index {n i : Nat} (hn : n < 2 ^ 64) (hi : i < n) : (BitVec.ofNat 64 i).toNat = i := by
  rw [BitVec.toNat_ofNat, Nat.mod_eq_of_lt (Nat.lt_trans hi hn)]

/-- The previous block of R136, with the last before the first (R139(f)). -/
theorem prevIndex_eq {n m : Nat} (hm : m < n) : prevIndex n m = if m = 0 then n - 1 else m - 1 := by
  unfold prevIndex
  split
  case isTrue h =>
    rw [h, Nat.zero_add, Nat.mod_eq_of_lt (by omega)]
  case isFalse h =>
    rw [show m + n - 1 = m - 1 + n by omega, Nat.add_mod_right, Nat.mod_eq_of_lt (by omega)]

section
variable {P : Params} {s u : State} {bs : List Key} {n t m : Nat} (hn : n < 2 ^ 64) (hm : m < n)
include hn hm

/-- Link `l` of block `m` of round `t` (R136). -/
theorem PhAt.phLink {l : Nat} (hT : u.phT = BitVec.ofNat 64 t) (hM : u.phM = BitVec.ofNat 64 m)
    (h : PhAt s u (n + 7 * (t * n + m) + 1 + 2 * l) bs) :
    ∃ v, phLink P n l u = .ok () v
      ∧ PhAt s v (n + 7 * (t * n + m) + 1 + 2 * (l + 1)) (refLink P s.ad n t m bs l)
      ∧ v.phT = BitVec.ofNat 64 t ∧ v.phM = BitVec.ofNat 64 m := by
  obtain ⟨v, hv, hatV, hTV, hMV⟩ :=
    PhAt.phH (P := P) (h.setL (BitVec.ofNat 64 l)) [s.ad, leBytes 8 t, leBytes 8 m, leBytes 8 l]
  generalize hr : refHash P (n + 7 * (t * n + m) + 1 + 2 * l) [s.ad, leBytes 8 t, leBytes 8 m, leBytes 8 l] = r at hv
  have hj : leNat r.toList % n < n := Nat.mod_lt _ (by omega)
  have hatJ := hatV.setJ (BitVec.ofNat 64 (leNat r.toList % n))
  obtain ⟨w, hw, hatW, hTW, hMW⟩ :=
    PhAt.hashToBlock (P := P) hatJ m [refBlockBytes bs m, refBlockBytes bs (leNat r.toList % n)]
  have hMv : v.phM.toNat = m := by rw [hMV.trans hM, toNat_ofNat_index hn hm]
  have hinputs : [u.ad, leBytes 8 u.phT.toNat, leBytes 8 u.phM.toNat, leBytes 8 (BitVec.ofNat 64 l).toNat]
      = [s.ad, leBytes 8 t, leBytes 8 m, leBytes 8 l] := by
    rw [h.ad, hT, hM, leBytes_ofNat, leBytes_ofNat, leBytes_ofNat]
  refine ⟨w, ?_, ?_, hTW.trans (hTV.trans hT), hMW.trans (hMV.trans hM)⟩
  · rw [Machine.phLink]
    dsimp only
    rw [hinputs, hv, Res.bind_ok, hMv, toNat_ofNat_index hn hj, hatJ.block m, hatJ.block, hw]
  · simp only [refLink, hr]
    rw [show n + 7 * (t * n + m) + 2 + 2 * l = n + 7 * (t * n + m) + 1 + 2 * l + 1 by omega]
    exact hatW

/-- Block `m` of round `t` (R136). -/
theorem PhAt.phBlock (hT : u.phT = BitVec.ofNat 64 t) (h : PhAt s u (n + 7 * (t * n + m)) bs) :
    ∃ v, phBlock P n m u = .ok () v ∧ PhAt s v (n + 7 * (t * n + (m + 1))) (refRoundBlock P s.ad n t bs m)
      ∧ v.phT = BitVec.ofNat 64 t := by
  have hatM := h.setM (BitVec.ofNat 64 m)
  obtain ⟨v, hv, hatV, hTV, hMV⟩ :=
    PhAt.hashToBlock (P := P) hatM m [refBlockBytes bs (prevIndex n m), refBlockBytes bs m]
  rw [prevIndex_eq hm] at hatV
  generalize hbs : bs.set m _ = bs' at hatV
  obtain ⟨w, hw, hatW, hTW, -⟩ := forUp_keeps (n := Config.phDelta) (f := Machine.phLink P n) (s := v)
    (I := fun l w => PhAt s w (n + 7 * (t * n + m) + 1 + 2 * l) ((List.range l).foldl (refLink P s.ad n t m) bs')
      ∧ w.phT = BitVec.ofNat 64 t ∧ w.phM = BitVec.ofNat 64 m)
    ⟨hatV, hTV.trans hT, hMV⟩
    (fun l w _ ⟨hat, hTw, hMw⟩ => by
      obtain ⟨z, hz, hatZ, hTz, hMz⟩ := PhAt.phLink (P := P) hn hm hTw hMw hat
      exact ⟨z, hz, by rwa [List.range_succ, List.foldl_append], hTz, hMz⟩)
  refine ⟨w, ?_, ?_, hTW⟩
  · rw [Machine.phBlock]
    rw [hatM.block, hatM.block, hv, Res.bind_ok, hw]
  · rw [show n + 7 * (t * n + (m + 1)) = n + 7 * (t * n + m) + 1 + 2 * Config.phDelta by rw [Config.phDelta]; ring,
      refRoundBlock, hbs]
    exact hatW

omit hm in
/-- Round `t` (R136). -/
theorem PhAt.phRound (h : PhAt s u (n + 7 * (t * n)) bs) :
    ∃ v, phRound P n t u = .ok () v
      ∧ PhAt s v (n + 7 * ((t + 1) * n)) ((List.range n).foldl (refRoundBlock P s.ad n t) bs) := by
  obtain ⟨v, hv, hatV, -⟩ := forUp_keeps (n := n) (f := Machine.phBlock P n) (s := { u with phT := BitVec.ofNat 64 t })
    (I := fun m w => PhAt s w (n + 7 * (t * n + m)) ((List.range m).foldl (refRoundBlock P s.ad n t) bs)
      ∧ w.phT = BitVec.ofNat 64 t)
    ⟨h.setT _, rfl⟩
    (fun m w hlt ⟨hat, hTw⟩ => by
      obtain ⟨z, hz, hatZ, hTz⟩ := PhAt.phBlock (P := P) hn hlt hTw hat
      exact ⟨z, hz, by rwa [List.range_succ, List.foldl_append], hTz⟩)
  exact ⟨v, hv, by rwa [show (t + 1) * n = t * n + n from Nat.succ_mul t n]⟩

end

/-- The seeding chain, from an empty working buffer and a counter of 0 (R136). -/
theorem phSeed_at (P : Params) {n : Nat} (hn : 1 ≤ n) (s : State) :
    ∃ v, phSeed P n { s with phCnt := 0, phb := List.replicate n Key.zero } = .ok () v
      ∧ PhAt s v n (refSeed P s.dat s.ad n) := by
  have hat : PhAt s { s with phCnt := 0, phb := List.replicate n Key.zero } 0 (List.replicate n Key.zero) :=
    ⟨rfl, rfl, rfl⟩
  obtain ⟨v, hv, hatV, -⟩ := PhAt.hashToBlock (P := P) hat 0 [s.dat, s.ad]
  generalize hbs : (List.replicate n Key.zero).set 0 _ = bs at hatV
  obtain ⟨w, hw, hatW⟩ := forUp_keeps (n := n - 1) (s := v)
    (f := fun i w => hashToBlock P (i + 1) [block w i] w)
    (I := fun i w => PhAt s w (i + 1) ((List.range i).foldl
      (fun bs i => bs.set (i + 1) (refHash P (i + 1) [refBlockBytes bs i])) bs))
    hatV
    (fun i w _ hatI => by
      obtain ⟨z, hz, hatZ, -⟩ := PhAt.hashToBlock (P := P) hatI (i + 1) [block w i]
      rw [hatI.block] at hatZ
      exact ⟨z, hz, by rwa [List.range_succ, List.foldl_append]⟩)
  rw [Nat.sub_add_cancel hn] at hatW
  refine ⟨w, ?_, ?_⟩
  · rw [phSeed]
    exact (congrArg (Res.bind · _) hv).trans hw
  · rw [refSeed, hbs]
    exact hatW

/-- The legal parameter range of PH_HASH (R134). -/
abbrev PhLegal (P : Params) (s : State) : Prop :=
  (1 ≤ s.p0.toNat ∧ s.p0.toNat ≤ P.phMaxSpace) ∧ s.p0.toNat + 7 * s.p1.toNat * s.p0.toNat ≤ 2 ^ 64

/-- PH_HASH outside the legal range (R134). -/
theorem phHash_of_illegal {P : Params} {s : State} (h : ¬ PhLegal P s) : phHash P s = .viol .param s := by
  rw [phHash, require_of_not h, Res.bind_viol]

/-- PH_HASH in the legal range writes the digest and erases the password-hash registers and CTX_X (R136). -/
theorem phHash_of_legal {P : Params} {s : State} (h : PhLegal P s) :
    phHash P s = .ok () { erasePhRegisters s with
      digest := refDigest P s.dat s.ad s.p0.toNat s.p1.toNat } := by
  have hn : s.p0.toNat < 2 ^ 64 := Nat.lt_trans s.p0.isLt (by decide)
  obtain ⟨v, hv, hatV⟩ := phSeed_at P h.1.1 s
  obtain ⟨w, hw, hatW⟩ := forUp_keeps (n := s.p1.toNat) (f := phRound P s.p0.toNat) (s := v)
    (I := fun t w => PhAt s w (s.p0.toNat + 7 * (t * s.p0.toNat)) ((List.range t).foldl
      (fun bs r => (List.range s.p0.toNat).foldl (refRoundBlock P s.ad s.p0.toNat r) bs)
      (refSeed P s.dat s.ad s.p0.toNat)))
    (by simpa using hatV)
    (fun t w _ hatT => by
      obtain ⟨z, hz, hatZ⟩ := PhAt.phRound (P := P) hn hatT
      exact ⟨z, hz, by rwa [List.range_succ, List.foldl_append]⟩)
  rw [phHash, require_of h, Res.bind_ok, hv, Res.bind_ok, hw, Res.bind_ok, ← hatW.frame, refDigest, ← hatW.blocks]
  rfl

/-- Settles O58: `phHash_of_legal`, ended; the end of a command wipes what PH_HASH erased already. -/
theorem phHashComputesTheDigest : Obligations.PhHashComputesTheDigest := by
  intro s hgood hpos hmax hcalls
  exact exec_of_command_ok rfl (by nofun) hgood (phHash_of_legal ⟨⟨hpos, hmax⟩, hcalls⟩) rfl

/-- Settles O59: `phHash_of_illegal`; a contract violation leaves DIGEST. -/
theorem phHashRefusesIllegalParameters : Obligations.PhHashRefusesIllegalParameters := by
  intro s hgood hillegal
  refine ⟨exec_of_command_viol rfl (by nofun) hgood (phHash_of_illegal fun h => hillegal ?_) rfl, rfl⟩
  exact ⟨h.1.1, h.1.2, h.2⟩

end Sys2Proof.Machine
end

section
/-! PROOFS. The handshake commands (41_handshake.md R92 to R95, R107 to R123): the expansions of the token lists, the
sequencing, and what each command does in turn. -/

namespace Sys2Proof.Machine

/-! ### The token lists and their expansions (R107 to R116) -/

/-- What a token stands for in a form, on the side of a role (R97 to R105): END for nothing, E and S for what the form
says, a DH token for the slots that the role gives it. -/
def Token.expand (t : Token) (f : Form) (r : Role) : List Expanded :=
  match t, f, r with
  | .tEnd, _, _ => []
  | .e, .writing, _ => [.wE]
  | .e, .reading, _ => [.rE]
  | .s, .writing, _ => [.wS]
  | .s, .reading, _ => [.rS]
  | .ee, _, _ => [.mix .E .RE]
  | .es, _, .initiator => [.mix .E .RS]
  | .es, _, .responder => [.mix .S .RE]
  | .se, _, .initiator => [.mix .S .RE]
  | .se, _, .responder => [.mix .E .RS]
  | .ss, _, _ => [.mix .S .RS]
  | .psk, _, _ => [.psk]

/-- The form in which the side of a role runs message k (R93, R107). -/
def formOf (k : Nat) (r : Role) : Form := if writerOf k = r then .writing else .reading

/-- The expansions of R108 to R116 are the token lists of R107 expanded token by token. -/
theorem expansion_eq_expand {p : Pattern} {k : Nat} (hk : k < p.nmsgs) (r : Role) :
    expansion p k r = (rom p k).flatMap fun t => t.expand (formOf k r) r := by
  have hk3 : k < 3 := Nat.lt_of_lt_of_le hk (by cases p <;> decide)
  revert hk
  interval_cases k <;> cases p <;> cases r <;> decide

/-- The fixed-field lengths of R108 to R116 are those of the token lists. -/
theorem fixedLen_rom {p : Pattern} {k : Nat} (hk : k < p.nmsgs) : fixedLen (rom p k) = (fixedAndKeyed p k).1 := by
  have hk3 : k < 3 := Nat.lt_of_lt_of_le hk (by cases p <;> decide)
  revert hk
  interval_cases k <;> cases p <;> decide

/-- "Keyed after" of R108 to R116 is whether a token up to that message mixes a key. -/
theorem keyedBefore_succ_rom {p : Pattern} {k : Nat} (hk : k < p.nmsgs) :
    keyedBefore p (k + 1) = (fixedAndKeyed p k).2 := by
  have hk3 : k < 3 := Nat.lt_of_lt_of_le hk (by cases p <;> decide)
  revert hk
  interval_cases k <;> cases p <;> decide

/-- Two expansions one after the other. -/
theorem runExpansion_append (P : Params) (xs ys : List Expanded) (s : State) :
    runExpansion P (xs ++ ys) s = (runExpansion P xs s).bind fun _ u => runExpansion P ys u := by
  induction xs generalizing s with
  | nil => rfl
  | cons x xs ih =>
    rw [List.cons_append, runExpansion, runExpansion, Res.bind_assoc]
    simp only [ih]

/-- A piece that does nothing after. -/
theorem Res.bind_ok_unit (r : Res Unit) : (r.bind fun _ s => .ok () s) = r := by cases r <;> rfl

/-- A token runs as what it stands for. -/
theorem runToken_eq_expand (P : Params) (t : Token) (s : State) :
    runToken P t s = runExpansion P (t.expand s.op.form s.role) s := by
  have hone (x : Expanded) : runExpansion P [x] s = runExpanded P x s := Res.bind_ok_unit _
  cases t with
  | tEnd => rfl
  | e => cases hf : s.op.form <;> rw [Token.expand, hone] <;> simp only [runToken, tokenE, hf, runExpanded]
  | s => cases hf : s.op.form <;> rw [Token.expand, hone] <;> simp only [runToken, tokenS, hf, runExpanded]
  | es => cases hr : s.role <;> rw [Token.expand, hone] <;> simp only [runToken, tokenEs, hr, runExpanded]
  | se => cases hr : s.role <;> rw [Token.expand, hone] <;> simp only [runToken, tokenSe, hr, runExpanded]
  | ee => exact (hone (.mix .E .RE)).symm
  | ss => exact (hone (.mix .S .RS)).symm
  | psk => exact (hone .psk).symm

/-- A token changes neither its form nor the role. -/
theorem runToken_form_role {P : Params} {t : Token} {s u : State} {a : Unit} (h : runToken P t s = .ok a u) :
    u.op.form = s.op.form ∧ u.role = s.role := by
  have hframe := runToken_frame P t s
  rw [h, Res.state_ok] at hframe
  exact ⟨(congrArg (fun s => s.op.form) hframe : (eraseTokenWrites u).op.form = (eraseTokenWrites s).op.form),
    (congrArg State.role hframe : (eraseTokenWrites u).role = (eraseTokenWrites s).role)⟩

/-- A token list runs as its tokens expanded. -/
theorem runTokens_eq_expand (P : Params) (ts : List Token) (s : State) :
    runTokens P ts s = runExpansion P (ts.flatMap fun t => t.expand s.op.form s.role) s := by
  induction ts generalizing s with
  | nil => rfl
  | cons t ts ih =>
    rw [runTokens, List.flatMap_cons, runExpansion_append, ← runToken_eq_expand]
    cases h : runToken P t s with
    | ok a u =>
      obtain ⟨hform, hrole⟩ := runToken_form_role h
      rw [Res.bind_ok, Res.bind_ok, ih, hform, hrole]
    | err e u => rfl
    | viol c u => rfl

/-- The token list of a message runs as its expansion, on the side and in the form that R93 gives the role. -/
theorem runTokens_rom {P : Params} {p : Pattern} {k : Nat} {s : State} (hk : k < p.nmsgs)
    (hform : s.op.form = formOf k s.role) :
    runTokens P (rom p k) s = runExpansion P (expansion p k s.role) s := by
  rw [runTokens_eq_expand, hform, expansion_eq_expand hk]

/-- Settles O29: a token runs as what it stands for (`runToken_eq_expand`), and the expansions are the token lists so read
(`expansion_eq_expand`, by the finite table). -/
theorem tokenListsRunAsExpanded : Obligations.TokenListsRunAsExpanded := by
  refine ⟨?_, fun p => by cases p <;> decide⟩
  rintro p k r s hk rfl hform
  exact ⟨runTokens_rom hk hform, fixedLen_rom hk, keyedBefore_succ_rom hk⟩

/-! ### HS_INIT -/

/-- No pattern needs K.RE at HS_INIT (R94). -/
theorem RE_not_mem_need (p : Pattern) (r : Role) : Slot.RE ∉ need p r := by
  cases p <;> cases r <;> decide

/-- HS_INIT with a legal pattern code and a needed slot invalid (R95). -/
theorem hsInit_of_missing {P : Params} {p : Pattern} {role : Role} {s : State}
    (h : slotsValid (need p role) s = false) : hsInit P p.code role s = .viol .keySlot s := by
  rw [hsInit, Pattern.ofCode_code]
  dsimp only
  rw [require_of_not (by simp [h]), Res.bind_viol]

/-- HS_INIT with the slots it needs (R95). -/
theorem hsInit_of_valid {P : Params} {p : Pattern} {role : Role} {s : State}
    (h : slotsValid (need p role) s = true) :
    hsInit P p.code role s = .ok () { hsInitControl p role s with
      ctxT := some (P.spInit (protocolId p)), keyed := false, phase := .active } := by
  rw [hsInit, Pattern.ofCode_code]
  dsimp only
  rw [require_of h, Res.bind_ok, ssInit_eq, Res.bind_ok]

/-- A slot is kept exactly when the pattern needs it (R95). -/
theorem keepSlot_eq (ks : List Slot) (k : Slot) (v : Option Key) : keepSlot ks k v = if k ∈ ks then v else none := by
  rw [keepSlot]
  simp only [List.contains_iff_mem]

/-- Settles O27: the code, then the slots, then the handshake. -/
theorem hsInitCreatesAHandshake : Obligations.HsInitCreatesAHandshake := by
  intro pat role s hgood
  refine ⟨fun hres => ?_, ?_⟩
  · refine exec_of_command_viol rfl (by nofun) hgood (c := .illegal) (t := s) ?_ rfl
    show hsInit Config.params pat role s = _
    rw [hsInit, Pattern.ofCode_of_reserved hres]
  rintro p rfl
  refine ⟨fun hmissing => ?_, fun hvalid => ?_⟩
  · exact exec_of_command_viol rfl (by nofun) hgood (hsInit_of_missing hmissing) rfl
  · refine exec_of_command_ok rfl (by nofun) hgood (hsInit_of_valid hvalid) ?_
    simp only [hsInitControl, keepSlot_eq, RE_not_mem_need, if_false]
    rfl

/-! ### Sequencing (R93) -/

section
variable {P : Params} {s : State} (hp : s.phase = .active)
include hp

/-- HS_WRITE past the last message (R93). -/
theorem hsWrite_of_past (h : ¬ s.seq.toNat < s.pattern.nmsgs) : hsWrite P s = .viol .seq s := by
  rw [hsWrite, hsPhaseCheck_active hp, Res.bind_ok, require_of_not h, Res.bind_viol]

/-- HS_WRITE of a message that the other side writes (R93). -/
theorem hsWrite_of_other (h : writerOf s.seq.toNat ≠ s.role) : hsWrite P s = .viol .seq s := by
  by_cases hk : s.seq.toNat < s.pattern.nmsgs
  · rw [hsWrite, hsPhaseCheck_active hp, Res.bind_ok, require_of hk, Res.bind_ok, require_of_not h, Res.bind_viol]
  · exact hsWrite_of_past hp hk

/-- HS_READ past the last message (R93). -/
theorem hsRead_of_past (h : ¬ s.seq.toNat < s.pattern.nmsgs) : hsRead P s = .viol .seq s := by
  rw [hsRead, hsPhaseCheck_active hp, Res.bind_ok, require_of_not h, Res.bind_viol]

/-- HS_READ of a message that this side writes (R93). -/
theorem hsRead_of_own (h : writerOf s.seq.toNat = s.role) : hsRead P s = .viol .seq s := by
  by_cases hk : s.seq.toNat < s.pattern.nmsgs
  · rw [hsRead, hsPhaseCheck_active hp, Res.bind_ok, require_of hk, Res.bind_ok, require_of_not (not_not_intro h),
      Res.bind_viol]
  · exact hsRead_of_past hp hk

/-- HS_FINAL before the last message (R93, R123). -/
theorem hsFinal_of_early (h : s.seq.toNat ≠ s.pattern.nmsgs) : hsFinal P s = .viol .seq s := by
  rw [hsFinal, hsPhaseCheck_active hp, Res.bind_ok, require_of_not h, Res.bind_viol]

end

/-- Settles O34: the checks of HS.SEQ and of the writer. -/
theorem messageCommandsOutOfTurnAreSequenceViolations : Obligations.MessageCommandsOutOfTurnAreSequenceViolations := by
  intro s hgood hp
  refine ⟨fun hpast => ⟨?_, ?_⟩, fun hother => ?_, fun hown => ?_, fun hearly => ?_⟩
  · exact exec_of_command_viol rfl (by nofun) hgood (hsWrite_of_past hp (Nat.not_lt.mpr hpast)) rfl
  · exact exec_of_command_viol rfl (by nofun) hgood (hsRead_of_past hp (Nat.not_lt.mpr hpast)) rfl
  · exact exec_of_command_viol rfl (by nofun) hgood (hsWrite_of_other hp hother) rfl
  · exact exec_of_command_viol rfl (by nofun) hgood (hsRead_of_own hp hown) rfl
  · exact exec_of_command_viol rfl (by nofun) hgood (hsFinal_of_early hp hearly) rfl

/-! ### HS_WRITE and HS_READ in turn (R117, R118) -/

/-- How HS_WRITE ends after its tokens (R117, R121). -/
def hsWriteFinish (r : Res Unit) : Res Unit :=
  match r with
  | .ok _ s => .ok () (hsWriteEnd s)
  | .err e s => .err e (hsFail true s)
  | .viol c s => .viol c s

/-- How HS_READ ends after its tokens (R118, R121). -/
def hsReadFinish (r : Res Unit) : Res Unit :=
  match r with
  | .ok _ s => .ok () (hsReadEnd s)
  | .err e s => .err e (hsFail false s)
  | .viol c s => .viol c s

/-- How HS_DECPAY ends after SS_DECRYPT of the block (R120, R121). -/
def hsDecpayFinish (r : Res Bytes) : Res Unit :=
  match r with
  | .ok pt s => .ok () { s with dat := pt, paydone := true }
  | .err e s => .err e (hsFail false s)
  | .viol c s => .viol c s

/-- HS_WRITE in turn runs the token list of its message (R117). -/
theorem hsWrite_in_turn {P : Params} {s : State} (hp : s.phase = .active) (hk : s.seq.toNat < s.pattern.nmsgs)
    (hw : writerOf s.seq.toNat = s.role) :
    hsWrite P s = hsWriteFinish (runTokens P (rom s.pattern s.seq.toNat) (hsWriteStart s)) := by
  rw [hsWrite, hsPhaseCheck_active hp, Res.bind_ok, require_of hk, Res.bind_ok, require_of hw, Res.bind_ok]
  cases runTokens P (rom s.pattern s.seq.toNat) (hsWriteStart s) <;> rfl

/-- HS_READ in turn of a frame shorter than the fixed fields (R118). -/
theorem hsRead_of_short {P : Params} {s : State} (hp : s.phase = .active) (hk : s.seq.toNat < s.pattern.nmsgs)
    (hw : writerOf s.seq.toNat ≠ s.role) (hshort : s.msg.length < fixedLen (rom s.pattern s.seq.toNat)) :
    hsRead P s = .err .ciphertextTooShort (hsFail false (hsReadStart s)) := by
  rw [hsRead, hsPhaseCheck_active hp, Res.bind_ok, require_of hk, Res.bind_ok, require_of hw, Res.bind_ok,
    if_pos hshort]

/-- HS_READ in turn of a long enough frame runs the token list of its message (R118). -/
theorem hsRead_in_turn {P : Params} {s : State} (hp : s.phase = .active) (hk : s.seq.toNat < s.pattern.nmsgs)
    (hw : writerOf s.seq.toNat ≠ s.role) (hlen : fixedLen (rom s.pattern s.seq.toNat) ≤ s.msg.length) :
    hsRead P s = hsReadFinish (runTokens P (rom s.pattern s.seq.toNat) (hsReadStart s)) := by
  rw [hsRead, hsPhaseCheck_active hp, Res.bind_ok, require_of hk, Res.bind_ok, require_of hw, Res.bind_ok,
    if_neg (Nat.not_lt.mpr hlen)]
  cases runTokens P (rom s.pattern s.seq.toNat) (hsReadStart s) <;> rfl

/-- Settles O30: `hsWrite_in_turn`, by the three ends of the expansion. -/
theorem hsWriteRunsItsMessage : Obligations.HsWriteRunsItsMessage := by
  intro s hgood hp hk hw
  have hrun : runTokens Config.params (rom s.pattern s.seq.toNat) (hsWriteStart s)
      = runExpansion Config.params (expansion s.pattern s.seq.toNat s.role) (hsWriteStart s) :=
    runTokens_rom hk (if_pos hw).symm
  rw [exec_command_good rfl (by nofun) hgood, ← hsWriteStart, commandBody, hsWrite_in_turn hp hk hw, hrun]
  cases runExpansion Config.params (expansion s.pattern s.seq.toNat s.role) (hsWriteStart s) <;> rfl

/-- Settles O32: `hsRead_of_short`, and `hsRead_in_turn` by the three ends of the expansion. -/
theorem hsReadRunsItsMessage : Obligations.HsReadRunsItsMessage := by
  intro s hgood hp hk hw
  rw [← fixedLen_rom hk]
  refine ⟨fun hshort => ?_, fun hlen => ?_⟩
  · exact exec_of_command_err rfl (by nofun) hgood (hsRead_of_short hp hk hw hshort) rfl
  · have hrun : runTokens Config.params (rom s.pattern s.seq.toNat) (hsReadStart s)
        = runExpansion Config.params (expansion s.pattern s.seq.toNat s.role) (hsReadStart s) :=
      runTokens_rom hk (if_neg hw).symm
    rw [exec_command_good rfl (by nofun) hgood, ← hsReadStart, commandBody, hsRead_in_turn hp hk hw hlen, hrun]
    cases runExpansion Config.params (expansion s.pattern s.seq.toNat s.role) (hsReadStart s) <;> rfl

/-! ### HS_ENCPAY and HS_DECPAY (R119, R120) -/

section
variable {P : Params} {s : State} (hp : s.phase = .active)
include hp

/-- HS_ENCPAY out of turn (R119). -/
theorem hsEncpay_of_out_of_turn (h : ¬ (s.msgcur = true ∧ s.lastw = true ∧ s.paydone = false)) :
    hsEncpay P s = .viol .seq s := by
  rw [hsEncpay, hsPhaseCheck_active hp, Res.bind_ok, require_of_not h, Res.bind_viol]

/-- HS_DECPAY out of turn (R120). -/
theorem hsDecpay_of_out_of_turn (h : ¬ (s.msgcur = true ∧ s.lastw = false ∧ s.paydone = false)) :
    hsDecpay P s = .viol .seq s := by
  rw [hsDecpay, hsPhaseCheck_active hp, Res.bind_ok, require_of_not h, Res.bind_viol]

section
variable (hturn : s.msgcur = true ∧ s.lastw = true ∧ s.paydone = false)
include hturn

/-- HS_ENCPAY before a key was mixed (R119). -/
theorem hsEncpay_of_not_keyed (hk : s.keyed = false) : hsEncpay P s = .viol .notKeyed s := by
  rw [hsEncpay, hsPhaseCheck_active hp, Res.bind_ok, require_of hturn, Res.bind_ok, require_of_not (by simp [hk]),
    Res.bind_viol]

/-- HS_ENCPAY of a payload whose block would not fit (R119). -/
theorem hsEncpay_of_long (hk : s.keyed = true) (hl : 65535 < s.off.toNat + s.dat.length + 16) :
    hsEncpay P s = .viol .len s := by
  rw [hsEncpay, hsPhaseCheck_active hp, Res.bind_ok, require_of hturn, Res.bind_ok, require_of hk, Res.bind_ok,
    require_of_not (by simp only [Config.tagLen, Config.maxMsgLen]; omega), Res.bind_viol]

/-- HS_ENCPAY past its checks: the block is written at HS.OFF, and MSG ends with it (R119). -/
theorem hsEncpay_of_checks {x : Sponge} (hk : s.keyed = true) (hl : s.off.toNat + s.dat.length + 16 ≤ 65535)
    (hx : s.ctxT = some x) :
    hsEncpay P s = .ok () { s with
      paydone := true, ctxT := some (P.spSqueeze (P.spEncrypt x s.dat).1 16).1
      msg := s.msg.take s.off.toNat ++ freeBytes s.freeCtr (s.off.toNat - s.msg.length)
        ++ ((P.spEncrypt x s.dat).2 ++ (P.spSqueeze (P.spEncrypt x s.dat).1 16).2.toList)
      freeCtr := s.freeCtr + (s.off.toNat - s.msg.length) } := by
  obtain ⟨hcur, hlastw, hpay⟩ := hturn
  rcases hsEncpay_cases P s with ⟨c, -, -, hnot⟩ | ⟨y, -, -, -, -, -, -, hy, h⟩
  · exact absurd ⟨hp, hcur, hlastw, hpay, hk, hl, by rw [hx]; rfl⟩ hnot
  · obtain rfl : x = y := Option.some.inj (hx.symm.trans hy)
    exact h

end

section
variable (hturn : s.msgcur = true ∧ s.lastw = false ∧ s.paydone = false)
include hturn

/-- HS_DECPAY before a key was mixed (R120). -/
theorem hsDecpay_of_not_keyed (hk : s.keyed = false) : hsDecpay P s = .viol .notKeyed s := by
  rw [hsDecpay, hsPhaseCheck_active hp, Res.bind_ok, require_of hturn, Res.bind_ok, require_of_not (by simp [hk]),
    Res.bind_viol]

variable (hk : s.keyed = true)
include hk

/-- HS_DECPAY of a block shorter than a tag (R120). -/
theorem hsDecpay_of_short (hl : s.msg.length < s.off.toNat + 16) :
    hsDecpay P s = .err .ciphertextTooShort (hsFail false s) := by
  rw [hsDecpay, hsPhaseCheck_active hp, Res.bind_ok, require_of hturn, Res.bind_ok, require_of hk, Res.bind_ok,
    if_pos (by simpa only [Config.tagLen] using hl)]

/-- HS_DECPAY of a block that holds a tag is SS_DECRYPT of it, with `hs_fail` on an error (R120, R121). -/
theorem hsDecpay_of_block (hl : s.off.toNat + 16 ≤ s.msg.length) :
    hsDecpay P s = hsDecpayFinish (ssDecrypt P (s.msg.drop s.off.toNat) s) := by
  rw [hsDecpay, hsPhaseCheck_active hp, Res.bind_ok, require_of hturn, Res.bind_ok, require_of hk, Res.bind_ok,
    if_neg (by simp only [Config.tagLen]; omega)]
  cases ssDecrypt P (s.msg.drop s.off.toNat) s <;> rfl

end

end

/-- Settles O35: the checks in their order, then `hsEncpay_of_checks`. -/
theorem hsEncpayAppendsThePayloadBlock : Obligations.HsEncpayAppendsThePayloadBlock := by
  intro s hgood hp
  refine ⟨fun hnot => ?_, fun hcur hlastw hpay => ⟨fun hk => ?_, fun hk hl => ?_, fun x hk hl hx => ?_⟩⟩
  · exact exec_of_command_viol rfl (by nofun) hgood (hsEncpay_of_out_of_turn hp hnot) rfl
  · exact exec_of_command_viol rfl (by nofun) hgood (hsEncpay_of_not_keyed hp ⟨hcur, hlastw, hpay⟩ hk) rfl
  · exact exec_of_command_viol rfl (by nofun) hgood (hsEncpay_of_long hp ⟨hcur, hlastw, hpay⟩ hk hl) rfl
  · exact exec_of_command_ok rfl (by nofun) hgood (hsEncpay_of_checks hp ⟨hcur, hlastw, hpay⟩ hk hl hx) rfl

/-- Settles O36: the checks in their order, then SS_DECRYPT of the block, by whether its tag verifies. -/
theorem hsDecpayOpensThePayloadBlock : Obligations.HsDecpayOpensThePayloadBlock := by
  intro s hgood hp
  refine ⟨fun hnot => ?_, fun hcur hlastw hpay => ⟨fun hk => ?_, fun hk hl => ?_, fun x hk hl hx => ?_⟩⟩
  · exact exec_of_command_viol rfl (by nofun) hgood (hsDecpay_of_out_of_turn hp hnot) rfl
  · exact exec_of_command_viol rfl (by nofun) hgood (hsDecpay_of_not_keyed hp ⟨hcur, hlastw, hpay⟩ hk) rfl
  · exact exec_of_command_err rfl (by nofun) hgood (hsDecpay_of_short hp ⟨hcur, hlastw, hpay⟩ hk hl) rfl
  · intro n c q
    have hbody := hsDecpay_of_block (P := Config.params) hp ⟨hcur, hlastw, hpay⟩ hk hl
    have hblk : (s.msg.drop s.off.toNat).length = s.msg.length - s.off.toNat := List.length_drop
    rw [ssDecrypt_of_keyed hk hx (by omega), hblk, List.drop_drop] at hbody
    dsimp only [hsDecpayFinish] at hbody
    by_cases hq : q.2.toList = s.msg.drop (s.off.toNat + n)
    · rw [if_pos hq] at hbody ⊢
      exact exec_of_command_ok rfl (by nofun) hgood hbody rfl
    · rw [if_neg hq] at hbody ⊢
      exact exec_of_command_err rfl (by nofun) hgood hbody rfl

/-- Settles O40: the block that HS_ENCPAY wrote at HS.OFF is what HS_DECPAY opens there (`ssDecrypt_of_encrypted`), and MSG
keeps its bytes below HS.OFF. -/
theorem handshakePayloadRoundTrip : Obligations.HandshakePayloadRoundTrip := by
  intro w r x hgoodW hgoodR hpW hpR hxW hxR hkW hkR hoff hcurW hlastwW hpayW hcurR hlastwR hpayR hin hl
  have hsend := hsEncpay_of_checks (P := Config.params) hpW ⟨hcurW, hlastwW, hpayW⟩ hkW hl hxW
  have hgap : w.off.toNat - w.msg.length = 0 := Nat.sub_eq_zero_of_le hin
  rw [hgap, freeBytes_zero, List.append_nil] at hsend
  have hdecrypt (m : Bytes) :=
    ssDecrypt_of_encrypted (P := Config.params) (d := w.dat) (s := { r with msg := m }) hkR hxR
  generalize hblk : (Config.params.spEncrypt x w.dat).2
    ++ (Config.params.spSqueeze (Config.params.spEncrypt x w.dat).1 16).2.toList = blk at hsend hdecrypt
  have hblkLen : blk.length = w.dat.length + 16 := by rw [← hblk]; simp [Config.params.spEncrypt_length]
  have hhead : (w.msg.take w.off.toNat).length = w.off.toNat := List.length_take_of_le hin
  have hlen : (w.msg.take w.off.toNat ++ blk).length = w.off.toNat + w.dat.length + 16 := by
    rw [List.length_append, hhead, hblkLen]
    omega
  have hrecv := hsDecpay_of_block (P := Config.params) (s := { r with msg := w.msg.take w.off.toNat ++ blk })
    hpR ⟨hcurR, hlastwR, hpayR⟩ hkR (by rw [hlen]; show r.off.toNat + 16 ≤ _; rw [← hoff]; omega)
  have hdrop : (w.msg.take w.off.toNat ++ blk).drop r.off.toNat = blk := List.drop_left' (by rw [hhead, hoff])
  dsimp only at hrecv
  rw [hdrop, hdecrypt] at hrecv
  refine ⟨_, _, exec_of_command_ok rfl (by nofun) hgoodW hsend rfl,
    exec_of_command_ok (s := { r with msg := w.msg.take w.off.toNat ++ blk }) rfl (by nofun) hgoodR hrecv rfl,
    rfl, rfl, rfl, rfl, hlen, fun a ha => ?_⟩
  show (w.msg.take w.off.toNat ++ blk)[a]? = w.msg[a]?
  rw [List.getElem?_append_left (by omega), List.getElem?_take_of_lt ha]

/-! ### HS_FINAL (R122, R123) -/

/-- HS_FINAL after the last message: both lanes seeded from the squeezed root key (R123). -/
theorem hsFinal_of_last {P : Params} {s : State} {x : Sponge} (hp : s.phase = .active)
    (hseq : s.seq.toNat = s.pattern.nmsgs) (hx : s.ctxT = some x) :
    hsFinal P s = .ok () (hsFinalEnd { s with
      rk := (P.spSqueeze x 32).2
      ctxS := some (P.spLaneseed (P.spSqueeze x 32).2 (roleByte s.role))
      ctxR := some (P.spLaneseed (P.spSqueeze x 32).2 (~~~ (roleByte s.role))) }) := by
  rw [hsFinal, hsPhaseCheck_active hp, Res.bind_ok, require_of hseq, Res.bind_ok, spSqueeze_of_some (c := .T) hx,
    Res.bind_ok]
  rfl

/-- Settles O37: `hsFinal_of_last`, with the role byte and its complement written out. -/
theorem hsFinalSeedsTheLanes : Obligations.HsFinalSeedsTheLanes := by
  intro s x hgood hp hseq hx rk rb nrb
  have hrb : roleByte s.role = rb ∧ ~~~ (roleByte s.role) = nrb := by
    simp only [rb, nrb]
    cases s.role <;> decide
  refine exec_of_command_ok rfl (by nofun) hgood (hsFinal_of_last hp hseq hx) ?_
  rw [hrb.2, hrb.1]
  rfl

/-- Settles O38: O37 on both sides; the role bytes of the two sides are each other's complements (R122). -/
theorem finalLanesCross : Obligations.FinalLanesCross := by
  intro i r x hgoodI hgoodR hpI hpR hseqI hseqR hxI hxR hroleI hroleR
  have hi := hsFinalSeedsTheLanes i x hgoodI hpI hseqI hxI
  have hr := hsFinalSeedsTheLanes r x hgoodR hpR hseqR hxR
  rw [hroleI] at hi
  rw [hroleR] at hr
  exact ⟨_, _, hi, hr, rfl, rfl, rfl, rfl, rfl, rfl, rfl, rfl⟩

end Sys2Proof.Machine
end

section
/-! PROOFS. What every piece of a command leaves alone, field by field, and the fields' agreement through a piece: the
layer on which the statements over all instructions and the invariants rest. -/

namespace Sys2Proof.Machine

/-! ### The transport context and SS.KEYED through the internal operations -/

/-- What is left of a state of the transport context's flags and counters, which no internal operation writes (R18, R27). -/
def transportFlags (s : State) : Bool × BitVec 64 × BitVec 64 := (s.tcAborted, s.snonce, s.rnonce)

/-- Tokens write no flag or counter of the transport context. -/
theorem transportFlags_of_token {s t : State} (h : eraseTokenWrites t = eraseTokenWrites s) :
    transportFlags t = transportFlags s :=
  (congrArg transportFlags h : transportFlags (eraseTokenWrites t) = transportFlags (eraseTokenWrites s))

/-- A context write changes no flag or counter of the transport context. -/
theorem transportFlags_setCtx (s : State) (c : Ctx) (v : Option Sponge) :
    transportFlags (s.setCtx c v) = transportFlags s := by
  simp only [transportFlags, State.setCtx_tcAborted, State.setCtx_snonce, State.setCtx_rnonce]

/-- No internal operation writes a flag or counter of the transport context (R18, R27). -/
theorem internalBody_transportFlags (P : Params) (i : Instr) (s : State) :
    transportFlags (internalBody P i s).state = transportFlags s := by
  have hport (c : Ctx) (v : Option Sponge) := transportFlags_setCtx s c v
  have hmixer {t : State} (h : eraseMixerWrites t = eraseMixerWrites s) : transportFlags t = transportFlags s :=
    transportFlags_of_token (eraseTokenWrites_of_mixer h)
  cases i <;> simp only [internalBody, Res.state_noResult, Res.state_map, Res.state_ok]
  case tokEnd => rfl
  case tokE => exact transportFlags_of_token (runToken_frame P .e s)
  case tokS => exact transportFlags_of_token (runToken_frame P .s s)
  case tokEe => exact transportFlags_of_token (runToken_frame P .ee s)
  case tokEs => exact transportFlags_of_token (runToken_frame P .es s)
  case tokSe => exact transportFlags_of_token (runToken_frame P .se s)
  case tokSs => exact transportFlags_of_token (runToken_frame P .ss s)
  case tokPsk => exact transportFlags_of_token (runToken_frame P .psk s)
  case ssInit => rfl
  case ssMixhash => exact hmixer (ssMixhash_frame ..)
  case ssMixkey => exact hmixer (ssMixkey_frame ..)
  case ssEncrypt => exact hmixer (ssEncrypt_frame ..)
  case ssDecrypt => exact hmixer (ssDecrypt_frame ..)
  case spInit c => exact hport c _
  case spAbsorb c => exact spAbsorb_frame (hport c)
  case spSqueeze c => exact spSqueeze_frame (hport c)
  case spEncrypt c => exact spEncrypt_frame (hport c)
  case spDecrypt c => exact spDecrypt_frame (hport c)
  case spRatchet c => exact spRatchet_frame (hport c)
  case spClone c => exact withCtx_frame fun x => hport .X (some x)
  case spLaneseed c => exact hport c _
  case dhCombine => exact transportFlags_of_token (dhCombine_frame ..)
  case dhPub => rw [dhPub_state]

/-- SS.KEYED stays in SS_ENCRYPT. -/
theorem ssEncrypt_keyed (P : Params) (d : Bytes) (s : State) : (ssEncrypt P d s).state.keyed = s.keyed := by
  rcases ssEncrypt_cases P d s with ⟨-, h⟩ | ⟨-, -, h⟩ | ⟨x, blk, -, -, -, h⟩ <;> rw [h] <;> rfl

/-- SS.KEYED stays in SS_DECRYPT. -/
theorem ssDecrypt_keyed (P : Params) (d : Bytes) (s : State) : (ssDecrypt P d s).state.keyed = s.keyed := by
  refine Res.bind_frame (E := State.keyed) (by rw [require_state]) fun _ u _ => ?_
  split
  · rfl
  · refine Res.bind_frame (E := State.keyed) (spDecrypt_frame fun v => rfl) fun _ v _ => ?_
    refine Res.bind_frame (E := State.keyed) (s := v)
      (spSqueeze_frame (E := State.keyed) (s := { v with ptx := _ }) fun _ => rfl) fun _ _ _ => ?_
    dsimp only
    split <;> rfl

/-- SS.KEYED stays in token E. -/
theorem tokenE_keyed (P : Params) (s : State) : (tokenE P s).state.keyed = s.keyed := by
  unfold tokenE
  split
  · exact Res.bind_frame (E := State.keyed) (by rw [require_state]) fun _ _ _ =>
      Res.bind_frame (E := State.keyed) (by rw [dhPub_state]) fun _ _ _ =>
      Res.bind_frame (E := State.keyed)
        (Res.bind_frame (E := State.keyed) (by rw [require_state]) fun _ _ _ => rfl) fun _ _ _ =>
      Res.bind_frame (E := State.keyed) (spAbsorb_frame fun _ => rfl) fun _ _ _ => rfl
  · exact Res.bind_frame (E := State.keyed) (by rw [require_state]) fun _ u _ =>
      Res.bind_frame (E := State.keyed) (s := u) ((spAbsorb_frame (E := State.keyed) fun _ => rfl).trans rfl)
        fun _ _ _ => rfl

/-- SS.KEYED stays in token S. -/
theorem tokenS_keyed (P : Params) (s : State) : (tokenS P s).state.keyed = s.keyed := by
  unfold tokenS
  split
  · exact Res.bind_frame (E := State.keyed) (by rw [require_state]) fun _ _ _ =>
      Res.bind_frame (E := State.keyed) (by rw [dhPub_state]) fun _ _ _ =>
      Res.bind_frame (E := State.keyed) (ssEncrypt_keyed ..) fun _ _ _ =>
      Res.bind_frame (E := State.keyed)
        (Res.bind_frame (E := State.keyed) (by rw [require_state]) fun _ _ _ => rfl) fun _ _ _ => rfl
  · exact Res.bind_frame (E := State.keyed) (by rw [require_state]) fun _ u _ =>
      Res.bind_frame (E := State.keyed) (s := u) ((ssDecrypt_keyed ..).trans rfl) fun _ _ _ => rfl

/-- The instructions of the internal formats that mix a key (R17, R86, R101 to R105). -/
def mixesKey : Instr → Bool
  | .ssMixkey | .tokEe | .tokEs | .tokSe | .tokSs | .tokPsk => true
  | _ => false

/-- SS.KEYED does not go to 1 in an internal operation that mixes no key (R17). -/
theorem internalBody_keyed {P : Params} {i : Instr} {s : State} (hi : mixesKey i = false) (hk : s.keyed = false) :
    (internalBody P i s).state.keyed = false := by
  have hport (c : Ctx) (v : Option Sponge) : (s.setCtx c v).keyed = s.keyed := State.setCtx_keyed s c v
  cases i <;> simp only [mixesKey, reduceCtorEq] at hi <;>
    simp only [internalBody, Res.state_noResult, Res.state_map, Res.state_ok]
  case tokEnd => exact hk
  case tokE => exact (tokenE_keyed P s).trans hk
  case tokS => exact (tokenS_keyed P s).trans hk
  case ssInit => rfl
  case ssMixhash => exact (spAbsorb_frame (E := State.keyed) fun v => State.setCtx_keyed s .T v).trans hk
  case ssEncrypt => exact (ssEncrypt_keyed ..).trans hk
  case ssDecrypt => exact (ssDecrypt_keyed ..).trans hk
  case spInit c => exact (hport c _).trans hk
  case spAbsorb c => exact (spAbsorb_frame (E := State.keyed) (hport c)).trans hk
  case spSqueeze c => exact (spSqueeze_frame (E := State.keyed) (hport c)).trans hk
  case spEncrypt c => exact (spEncrypt_frame (E := State.keyed) (hport c)).trans hk
  case spDecrypt c => exact (spDecrypt_frame (E := State.keyed) (hport c)).trans hk
  case spRatchet c => exact (spRatchet_frame (E := State.keyed) (hport c)).trans hk
  case spClone c => exact (withCtx_frame (E := State.keyed) (s := s) (f := fun x => .ok () (s.setCtx .X (some x)))
    fun x => hport .X (some x)).trans hk
  case spLaneseed c => exact (hport c _).trans hk
  case dhCombine =>
    unfold dhCombine
    split
    · split <;> exact hk
    · exact hk
  case dhPub => rw [dhPub_state]; exact hk
  all_goals exact hk

/-! ### Every end of a host command -/

/-- A violation that finds the state untouched: a cause is named, and from a state whose fields agree it is one that the
table of results gives the command (R151). -/
def Refusable (s : State) (i : Instr) (c : Cause) : Prop :=
  c ≠ .none ∧ (s.Consistent → i.wf = true → mayEnd i .contractViolation c = true)

/-- Every end of the body of a host command other than RESET, by command: the violation of a check, a runtime error, or
the state with the command's writes. -/
inductive CommandEnd (P : Params) (s : State) : Instr → Res Unit → Prop
  | refused {i : Instr} {c : Cause} (hc : Refusable s i c) : CommandEnd P s i (.viol c s)
  | init {pat : BitVec 4} {role : Role} {p : Pattern} {x : Sponge} (hneed : slotsValid (need p role) s = true) :
      CommandEnd P s (.hsInit pat role)
        (.ok () { hsInitControl p role s with ctxT := some x, keyed := false, phase := .active })
  | written {u : State} (hp : s.phase = .active) (hk : s.seq.toNat < s.pattern.nmsgs)
      (hw : writerOf s.seq.toNat = s.role)
      (h : runTokens P (rom s.pattern s.seq.toNat) (hsWriteStart s) = .ok () u) :
      CommandEnd P s .hsWrite (.ok () (hsWriteEnd u))
  | writeFailed {e : RtErr} {u : State} (hp : s.phase = .active) (hk : s.seq.toNat < s.pattern.nmsgs)
      (hw : writerOf s.seq.toNat = s.role)
      (h : runTokens P (rom s.pattern s.seq.toNat) (hsWriteStart s) = .err e u) :
      CommandEnd P s .hsWrite (.err e (hsFail true u))
  | writeViolated {c : Cause} {u : State} (hp : s.phase = .active) (hk : s.seq.toNat < s.pattern.nmsgs)
      (hw : writerOf s.seq.toNat = s.role)
      (h : runTokens P (rom s.pattern s.seq.toNat) (hsWriteStart s) = .viol c u) :
      CommandEnd P s .hsWrite (.viol c u)
  | readShort (hp : s.phase = .active) (hk : s.seq.toNat < s.pattern.nmsgs) (hw : writerOf s.seq.toNat ≠ s.role) :
      CommandEnd P s .hsRead (.err .ciphertextTooShort (hsFail false (hsReadStart s)))
  | read {u : State} (hp : s.phase = .active) (hk : s.seq.toNat < s.pattern.nmsgs)
      (hw : writerOf s.seq.toNat ≠ s.role) (hl : fixedLen (rom s.pattern s.seq.toNat) ≤ s.msg.length)
      (h : runTokens P (rom s.pattern s.seq.toNat) (hsReadStart s) = .ok () u) :
      CommandEnd P s .hsRead (.ok () (hsReadEnd u))
  | readFailed {e : RtErr} {u : State} (hp : s.phase = .active) (hk : s.seq.toNat < s.pattern.nmsgs)
      (hw : writerOf s.seq.toNat ≠ s.role) (hl : fixedLen (rom s.pattern s.seq.toNat) ≤ s.msg.length)
      (h : runTokens P (rom s.pattern s.seq.toNat) (hsReadStart s) = .err e u) :
      CommandEnd P s .hsRead (.err e (hsFail false u))
  | readViolated {c : Cause} {u : State} (hp : s.phase = .active) (hk : s.seq.toNat < s.pattern.nmsgs)
      (hw : writerOf s.seq.toNat ≠ s.role) (hl : fixedLen (rom s.pattern s.seq.toNat) ≤ s.msg.length)
      (h : runTokens P (rom s.pattern s.seq.toNat) (hsReadStart s) = .viol c u) :
      CommandEnd P s .hsRead (.viol c u)
  | encpay {y : Sponge} {blk : Bytes} {k : Nat} (hl : blk.length ≤ 65535) :
      CommandEnd P s .hsEncpay
        (.ok () { s with paydone := true, ctxT := some y, msg := blk, freeCtr := k })
  | decpayShort : CommandEnd P s .hsDecpay (.err .ciphertextTooShort (hsFail false s))
  | decpayCorrupted {y : Sponge} : CommandEnd P s .hsDecpay
      (.err .messageCorrupted (hsFail false { s with ctxT := some y, ptx := [], tagx := Tag.zero }))
  | decpay {y : Sponge} {d : Bytes} (hl : d.length ≤ s.msg.length) : CommandEnd P s .hsDecpay
      (.ok () { s with ctxT := some y, ptx := [], tagx := Tag.zero, dat := d, paydone := true })
  | final {y z : Sponge} : CommandEnd P s .hsFinal (.ok () (hsFinalEnd { s with ctxS := some y, ctxR := some z }))
  | enc {adp : Bool} {m : Bytes} (hn : s.snonce.toNat < 2 ^ 64 - 1) (hl : m.length ≤ 65535) :
      CommandEnd P s (.tcEnc adp) (.ok () { s with msg := m, snonce := s.snonce + 1, ctxX := none })
  | decShort {adp : Bool} : CommandEnd P s (.tcDec adp) (.err .ciphertextTooShort s)
  | decCorrupted {adp : Bool} : CommandEnd P s (.tcDec adp) (.err .messageCorrupted
      { s with dat := [], tcAborted := true, ptx := [], tagx := Tag.zero, ctxX := none })
  | dec {adp : Bool} {d : Bytes} (hn : s.rnonce.toNat < 2 ^ 64 - 1) (hl : d.length ≤ s.msg.length) :
      CommandEnd P s (.tcDec adp) (.ok ()
        { s with dat := d, rnonce := s.rnonce + 1, ptx := [], tagx := Tag.zero, ctxX := none })
  | rekeyS {x : Sponge} : CommandEnd P s .tcRekeyS (.ok () { s with ctxS := some x })
  | rekeyR {x : Sponge} : CommandEnd P s .tcRekeyR (.ok () { s with ctxR := some x })
  | rekey {x y : Sponge} : CommandEnd P s .tcRekey (.ok () { s with ctxS := some x, ctxR := some y })
  | rekeyHalf {c : Cause} {x : Sponge} (hc : Refusable s .tcRekey c) :
      CommandEnd P s .tcRekey (.viol c { s with ctxS := some x })
  | hash {d : Key} : CommandEnd P s .phHash (.ok () { erasePhRegisters s with digest := d })

/-- A cause that the table of results gives the command. -/
theorem refusable_of_mem {s : State} {i : Instr} {c : Cause} {cs : List Cause} (hc : c ∈ cs)
    (h : ∀ c ∈ cs, c ≠ .none ∧ mayEnd i .contractViolation c = true) : Refusable s i c :=
  ⟨(h c hc).1, fun _ _ => (h c hc).2⟩

/-- The causes a transport command can end with; CV_SEQ would need an invalid lane of a valid transport context. -/
theorem refusable_of_lane {s : State} {i : Instr} {c : Cause} {cs : List Cause} (hc : c ∈ cs) (hnone : Cause.none ∉ cs)
    (h : ∀ c ∈ cs, c = .seq ∨ mayEnd i .contractViolation c = true)
    (hseq : c = .seq → s.tcValid = true ∧ (s.ctxS = none ∨ s.ctxR = none)) : Refusable s i c := by
  refine ⟨fun hn => hnone (hn ▸ hc), fun hs _ => (h c hc).resolve_left fun hc => ?_⟩
  obtain ⟨hv, hlane⟩ := hseq hc
  obtain ⟨hS, hR⟩ := hs.valid_lanes hv
  rcases hlane with hl | hl
  · rw [hl] at hS; cases hS
  · rw [hl] at hR; cases hR

section
variable {P : Params} {s : State}

theorem hsInit_ends (pat : BitVec 4) (role : Role) : CommandEnd P s (.hsInit pat role) (hsInit P pat role s) := by
  rcases hsInit_cases P pat role s with ⟨h, hpat⟩ | ⟨p, -, -, h⟩ | ⟨p, -, hneed, h⟩ <;> rw [h]
  · refine .refused ⟨by nofun, fun _ hwf => absurd hwf ?_⟩
    simp only [Instr.wf, decide_eq_true_eq]
    omega
  · exact .refused ⟨by nofun, fun _ _ => rfl⟩
  · exact .init hneed

theorem hsWrite_ends : CommandEnd P s .hsWrite (hsWrite P s) := by
  have hcheck : ∀ c ∈ [Cause.terminal, .seq], c ≠ .none ∧ mayEnd .hsWrite .contractViolation c = true := by decide
  rcases hsWrite_cases P s with ⟨h | h, -⟩ | ⟨hp, hk, hw, -⟩
  · exact h ▸ .refused (refusable_of_mem (by decide) hcheck)
  · exact h ▸ .refused (refusable_of_mem (by decide) hcheck)
  · rw [hsWrite_in_turn hp hk hw]
    cases h : runTokens P (rom s.pattern s.seq.toNat) (hsWriteStart s) with
    | ok _ u => exact .written hp hk hw h
    | err e u => exact .writeFailed hp hk hw h
    | viol c u => exact .writeViolated hp hk hw h

theorem hsRead_ends : CommandEnd P s .hsRead (hsRead P s) := by
  have hcheck : ∀ c ∈ [Cause.terminal, .seq], c ≠ .none ∧ mayEnd .hsRead .contractViolation c = true := by decide
  rcases hsRead_cases P s with ⟨h | h, -⟩ | ⟨hp, hk, hw, ⟨-, h⟩ | ⟨hl, -⟩⟩
  · exact h ▸ .refused (refusable_of_mem (by decide) hcheck)
  · exact h ▸ .refused (refusable_of_mem (by decide) hcheck)
  · exact h ▸ .readShort hp hk hw
  · rw [hsRead_in_turn hp hk hw hl]
    cases h : runTokens P (rom s.pattern s.seq.toNat) (hsReadStart s) with
    | ok _ u => exact .read hp hk hw hl h
    | err e u => exact .readFailed hp hk hw hl h
    | viol c u => exact .readViolated hp hk hw hl h

theorem hsEncpay_ends : CommandEnd P s .hsEncpay (hsEncpay P s) := by
  rcases hsEncpay_cases P s with ⟨c, hc, h, -⟩ | ⟨x, -, -, -, -, -, hl, -, h⟩ <;> rw [h]
  · exact .refused (refusable_of_mem hc (by decide))
  · refine .encpay ?_
    simp only [List.length_append, List.length_take, freeBytes_length, P.spEncrypt_length, Vector.length_toList]
    omega

theorem hsDecpay_ends : CommandEnd P s .hsDecpay (hsDecpay P s) := by
  rcases hsDecpay_cases P s with ⟨c, hc, h, -⟩ | ⟨-, h⟩ | ⟨-, x, y, -, -, h⟩ |
    ⟨x, y, d, -, -, -, -, -, hl, h⟩ <;> rw [h]
  · exact .refused (refusable_of_mem hc (by decide))
  · exact .decpayShort
  · exact .decpayCorrupted
  · exact .decpay (by omega)

theorem hsFinal_ends : CommandEnd P s .hsFinal (hsFinal P s) := by
  rcases hsFinal_cases P s with ⟨⟨c, hc, h⟩, -⟩ | ⟨x, y, z, -, -, -, h⟩ <;> rw [h]
  · exact .refused (refusable_of_mem hc (by decide))
  · exact .final

theorem tcEnc_ends (adp : Bool) : CommandEnd P s (.tcEnc adp) (tcEnc P adp s) := by
  rcases tcEnc_cases P adp s with ⟨hv, ha, hl, hn, x, hx⟩ | ⟨c, hc, h, hseq⟩
  · rw [tcEnc_of_checks hv ha hl hn hx]
    refine .enc hn ?_
    simpa only [List.length_append, P.spEncrypt_length, Vector.length_toList] using hl
  · exact h ▸ .refused (refusable_of_lane hc (by decide) (by cases adp <;> decide)
      fun h => ⟨(hseq h).1, .inl (hseq h).2⟩)

theorem tcDec_ends (adp : Bool) : CommandEnd P s (.tcDec adp) (tcDec P adp s) := by
  rcases tcDec_cases P adp s with ⟨hv, ha, hl, hn, ⟨-, h⟩ | ⟨h16, x, hx⟩⟩ | ⟨c, hc, h, hseq, hlen⟩
  · exact h ▸ .decShort
  · rw [tcDec_of_checks hv ha hl hn h16 hx]
    dsimp only
    generalize (if adp = true then _ else _ : Sponge) = z
    split
    · exact .dec hn (by rw [P.spDecrypt_length, List.length_take]; omega)
    · exact .decCorrupted
  · rw [h]
    by_cases hcl : c = .len
    · refine .refused ⟨by rw [hcl]; nofun, fun hs _ => absurd (hlen hcl) ?_⟩
      exact Nat.not_lt.mpr (memWf_iff.mp hs.memWf .MSG)
    · refine .refused (refusable_of_lane (cs := [.noCtx, .terminal, .nonce, .seq]) ?_ (by decide)
        (by cases adp <;> decide) fun h => ⟨(hseq h).1, .inr (hseq h).2⟩)
      simpa only [List.mem_cons, hcl, false_or] using hc

theorem tcRekeyS_ends : CommandEnd P s .tcRekeyS (tcRekeyS P s) := by
  rcases tcRekeyS_cases P s with ⟨c, hc, h, -, hseq⟩ | ⟨x, -, -, -, h⟩ <;> rw [h]
  · exact .refused (refusable_of_lane hc (by decide) (by decide) fun h => ⟨(hseq h).1, .inl (hseq h).2⟩)
  · exact .rekeyS

theorem tcRekeyR_ends : CommandEnd P s .tcRekeyR (tcRekeyR P s) := by
  rcases tcRekeyR_cases P s with ⟨c, hc, h, -, hseq⟩ | ⟨x, -, -, -, h⟩ <;> rw [h]
  · exact .refused (refusable_of_lane hc (by decide) (by decide) fun h => ⟨(hseq h).1, .inr (hseq h).2⟩)
  · exact .rekeyR

theorem tcRekey_ends : CommandEnd P s .tcRekey (tcRekey P s) := by
  have hlanes : tcRekey P s = (tcRekeyS P s).bind fun _ u => spRatchet P .R u := by
    rw [tcRekey, tcRekeyS, Res.bind_assoc]
  rw [hlanes]
  rcases tcRekeyS_cases P s with ⟨c, hc, h, -, hseq⟩ | ⟨x, hv, -, -, h⟩ <;> rw [h]
  · exact .refused (refusable_of_lane hc (by decide) (by decide) fun h => ⟨(hseq h).1, .inl (hseq h).2⟩)
  · obtain hy | ⟨y, hy⟩ := Option.eq_none_or_eq_some s.ctxR
    · rw [Res.bind_ok, spRatchet, withCtx_of_none (c := .R) (by exact hy)]
      exact .rekeyHalf (refusable_of_lane (cs := [.seq]) (by decide) (by decide) (by decide) fun _ => ⟨hv, .inr hy⟩)
    · rw [Res.bind_ok, spRatchet_of_some (c := .R) (by exact hy)]
      exact .rekey

theorem phHash_ends : CommandEnd P s .phHash (phHash P s) := by
  by_cases h : PhLegal P s
  · rw [phHash_of_legal h]; exact .hash
  · rw [phHash_of_illegal h]; exact .refused ⟨by nofun, fun _ _ => rfl⟩

/-- The body of every host command other than RESET ends in one of the listed ways. -/
theorem commandBody_ends {i : Instr} (hf : i.format = .H) (hr : i ≠ .reset) :
    CommandEnd P s i (commandBody P i s) := by
  cases i with
  | hsInit pat role => exact hsInit_ends pat role
  | hsWrite => exact hsWrite_ends
  | hsRead => exact hsRead_ends
  | hsEncpay => exact hsEncpay_ends
  | hsDecpay => exact hsDecpay_ends
  | hsFinal => exact hsFinal_ends
  | tcEnc adp => exact tcEnc_ends adp
  | tcDec adp => exact tcDec_ends adp
  | tcRekeyS => exact tcRekeyS_ends
  | tcRekeyR => exact tcRekeyR_ends
  | tcRekey => exact tcRekey_ends
  | phHash => exact phHash_ends
  | reset => exact absurd rfl hr
  | _ => cases hf

end

end Sys2Proof.Machine
end

section
/-! PROOFS. The agreement of the fields, kept by every piece of a command, by every command and by every step (O24). -/

namespace Sys2Proof.Machine

/-! ### The agreement while no contract violation is latched -/

/-- The fields agree and no contract violation is latched; `State.Consistent.steady` and `State.Steady.consistent` tie it
to the model's own predicate. -/
structure State.Steady (s : State) : Prop where
  memWf : s.memWf = true
  good : s.fatal = false
  cv : s.cv = .none
  err : s.err ≠ .contractViolation
  keyed_ctxT : s.keyed = true → s.ctxT.isSome = true
  active_ctxT : s.phase = .active → s.ctxT.isSome = true
  valid_lanes : s.tcValid = true → s.ctxS.isSome = true ∧ s.ctxR.isSome = true
  seq_le : s.seq.toNat ≤ s.pattern.nmsgs
  off_legal : s.off = 0 ∨ s.off = 32 ∨ s.off = 48 ∨ s.off = 80

theorem State.Consistent.steady {s : State} (h : s.Consistent) (hgood : s.fatal = false) : s.Steady where
  memWf := h.memWf
  good := hgood
  cv := Decidable.not_not.mp fun hc => absurd (h.fatal_cv.mpr hc) (by simp [hgood])
  err := fun he => absurd (h.fatal_err.mpr he) (by simp [hgood])
  keyed_ctxT := h.keyed_ctxT
  active_ctxT := fun hp => h.active_ctxT hp hgood
  valid_lanes := h.valid_lanes
  seq_le := h.seq_le
  off_legal := h.off_legal

theorem State.Steady.consistent {s : State} (h : s.Steady) : s.Consistent where
  memWf := h.memWf
  fatal_cv := by simp [h.good, h.cv]
  fatal_err := by simp [h.good, h.err]
  fatal_wiped := fun hf => by simp [h.good] at hf
  keyed_ctxT := h.keyed_ctxT
  active_ctxT := fun hp _ => h.active_ctxT hp
  valid_lanes := h.valid_lanes
  seq_le := h.seq_le
  off_legal := h.off_legal

/-- A contract violation with a named cause leaves the fields in agreement (R146). -/
theorem enterViolation_consistent {s : State} {c : Cause} (h : s.Steady) (hc : c ≠ .none) :
    (enterViolation c s).Consistent where
  memWf := enterViolation_memWf c h.memWf
  fatal_cv := by simp [hc]
  fatal_err := by simp
  fatal_wiped := fun _ => ⟨rfl, rfl, rfl, rfl, rfl, rfl⟩
  keyed_ctxT := by nofun
  active_ctxT := by nofun
  valid_lanes := by nofun
  seq_le := h.seq_le
  off_legal := h.off_legal

/-- A context that becomes valid disagrees with nothing. -/
theorem State.Steady.setCtx {s : State} (h : s.Steady) (c : Ctx) (x : Sponge) : (s.setCtx c (some x)).Steady := by
  cases c with
  | T => exact { h with keyed_ctxT := fun _ => rfl, active_ctxT := fun _ => rfl }
  | S =>
    have hlanes (hv : s.tcValid = true) : (some x).isSome = true ∧ s.ctxR.isSome = true := ⟨rfl, (h.valid_lanes hv).2⟩
    exact { h with valid_lanes := hlanes }
  | R =>
    have hlanes (hv : s.tcValid = true) : s.ctxS.isSome = true ∧ (some x).isSome = true := ⟨(h.valid_lanes hv).1, rfl⟩
    exact { h with valid_lanes := hlanes }
  | X => exact { h with }

/-- The transcript drives on. -/
theorem State.Steady.drive {s : State} (h : s.Steady) (x : Sponge) : { s with ctxT := some x }.Steady :=
  h.setCtx .T x

/-! ### Pieces that keep the agreement -/

/-- A piece of a command, run from `s`: it names the cause of a violation, and keeps the fields in agreement however it
ends. -/
def Res.Keeps {α : Type} (s : State) (r : Res α) : Prop :=
  (∀ u, r ≠ .viol .none u) ∧ (s.Steady → r.state.Steady)

section
variable {α β : Type} {s u : State}

theorem keeps_ok {a : α} (h : s.Steady → u.Steady) : (Res.ok a u).Keeps s := ⟨fun _ he => (by cases he), h⟩
theorem keeps_err {e : RtErr} (h : s.Steady → u.Steady) : (Res.err e u : Res α).Keeps s :=
  ⟨fun _ he => (by cases he), h⟩
theorem keeps_viol {c : Cause} (hc : c ≠ .none) (h : s.Steady → u.Steady) : (Res.viol c u : Res α).Keeps s :=
  ⟨fun _ he => by cases he; exact hc rfl, h⟩

theorem Res.Keeps.bind {r : Res α} {f : α → State → Res β} (h : r.Keeps s) (hf : ∀ a u, (f a u).Keeps u) :
    (r.bind f).Keeps s := by
  cases r with
  | ok a v => exact ⟨(hf a v).1, fun hs => (hf a v).2 (h.2 hs)⟩
  | err e v => exact keeps_err h.2
  | viol c v => exact keeps_viol (fun hc => h.1 v (by rw [hc])) h.2

theorem Res.Keeps.map {r : Res α} (h : r.Keeps s) (f : α → β) : (r.map f).Keeps s := by
  cases r with
  | ok a v => exact keeps_ok h.2
  | err e v => exact keeps_err h.2
  | viol c v => exact keeps_viol (fun hc => h.1 v (by rw [hc])) h.2

theorem require_keeps {c : Prop} [Decidable c] {v : Cause} (hv : v ≠ .none) (s : State) : (require c v s).Keeps s := by
  unfold require
  split
  · exact keeps_ok id
  · exact keeps_viol hv id

theorem withCtx_keeps {c : Ctx} {f : Sponge → Res α} (hf : ∀ x, (f x).Keeps s) : (withCtx c s f).Keeps s := by
  unfold withCtx
  split
  · exact keeps_viol (by nofun) id
  · exact hf _

end

section
variable (P : Params) (c : Ctx) (d : Bytes) (n : Nat) (s : State)

theorem spAbsorb_keeps : (spAbsorb P c d s).Keeps s := withCtx_keeps fun _ => keeps_ok fun h => h.setCtx c _
theorem spSqueeze_keeps : (spSqueeze P c n s).Keeps s := withCtx_keeps fun _ => keeps_ok fun h => h.setCtx c _
theorem spEncrypt_keeps : (spEncrypt P c d s).Keeps s := withCtx_keeps fun _ => keeps_ok fun h => h.setCtx c _
theorem spDecrypt_keeps : (spDecrypt P c d s).Keeps s := withCtx_keeps fun _ => keeps_ok fun h => h.setCtx c _
theorem spRatchet_keeps : (spRatchet P c s).Keeps s := withCtx_keeps fun _ => keeps_ok fun h => h.setCtx c _
theorem spClone_keeps : (spClone c s).Keeps s := withCtx_keeps fun _ => keeps_ok fun h => h.setCtx .X _

theorem ssInit_keeps : (ssInit P d s).Keeps s :=
  keeps_ok fun h => { h.drive (P.spInit d) with keyed_ctxT := by nofun }

theorem ssMixkey_keeps : (ssMixkey P d s).Keeps s := by
  obtain hx | ⟨x, hx⟩ := Option.eq_none_or_eq_some s.ctxT
  · rw [ssMixkey, spAbsorb, withCtx_of_none (c := .T) hx]
    exact keeps_viol (by nofun) id
  · rw [ssMixkey_of_some hx]
    exact keeps_ok fun h => { h.drive (P.spAbsorb x d) with keyed_ctxT := fun _ => rfl }

theorem ssEncrypt_keeps : (ssEncrypt P d s).Keeps s :=
  (require_keeps (by nofun) s).bind fun _ _ => (spEncrypt_keeps ..).bind fun _ _ =>
    (spSqueeze_keeps ..).bind fun _ _ => keeps_ok id

theorem ssDecrypt_keeps : (ssDecrypt P d s).Keeps s := by
  refine (require_keeps (by nofun) s).bind fun _ u => ?_
  split
  · exact keeps_err id
  · refine (spDecrypt_keeps ..).bind fun pt v => ?_
    have hsqueeze := spSqueeze_keeps P .T 16 { v with ptx := pt }
    refine Res.Keeps.bind (s := v) ⟨hsqueeze.1, fun hv => hsqueeze.2 { hv with }⟩ fun tag w => ?_
    dsimp only
    split
    · exact keeps_err fun h => { h with }
    · exact keeps_ok fun h => { h with }

theorem dhCombine_keeps (kp : KpSlot) (pk : PkSlot) : (dhCombine P kp pk s).Keeps s := by
  unfold dhCombine
  split
  · split
    · exact keeps_ok fun h => { h with }
    · exact keeps_err id
  · exact keeps_viol (by nofun) id

theorem dhPub_keeps (kp : KpSlot) : (dhPub P kp s).Keeps s := by
  unfold dhPub
  split
  · exact keeps_ok id
  · exact keeps_viol (by nofun) id

theorem mixDh_keeps (kp : KpSlot) (pk : PkSlot) : (mixDh P kp pk s).Keeps s :=
  (dhCombine_keeps ..).bind fun _ _ => (ssMixkey_keeps ..).bind fun _ _ => keeps_ok fun h => { h with }

theorem tokenWrite_keeps : (tokenWrite d s).Keeps s := by
  unfold tokenWrite
  by_cases hl : s.op.off.toNat + d.length ≤ Config.maxMsgLen
  · rw [require_of hl, Res.bind_ok]
    exact keeps_ok fun h => { h with memWf := memWrite_memWf h.memWf hl }
  · rw [require_of_not hl, Res.bind_viol]
    exact keeps_viol (by nofun) id

theorem tokenE_keeps : (tokenE P s).Keeps s := by
  unfold tokenE
  split
  · exact (require_keeps (by nofun) s).bind fun _ _ => (dhPub_keeps ..).bind fun _ _ =>
      (tokenWrite_keeps ..).bind fun _ _ => (spAbsorb_keeps ..).bind fun _ _ => keeps_ok fun h => { h with }
  · refine (require_keeps (by nofun) s).bind fun _ u => ?_
    have habsorb := spAbsorb_keeps P .T (keyOfBytes (memRead .MSG u.op.off.toNat 32 u).1).toList
      { (memRead .MSG u.op.off.toNat 32 u).2 with kRE := some (keyOfBytes (memRead .MSG u.op.off.toNat 32 u).1) }
    exact Res.Keeps.bind ⟨habsorb.1, fun hu => habsorb.2 { hu with }⟩ fun _ _ => keeps_ok fun h => { h with }

theorem tokenS_keeps : (tokenS P s).Keeps s := by
  unfold tokenS
  split
  · exact (require_keeps (by nofun) s).bind fun _ _ => (dhPub_keeps ..).bind fun _ _ =>
      (ssEncrypt_keeps ..).bind fun _ _ => (tokenWrite_keeps ..).bind fun _ _ => keeps_ok fun h => { h with }
  · refine (require_keeps (by nofun) s).bind fun _ u => ?_
    have hdecrypt := ssDecrypt_keeps P (memRead .MSG u.op.off.toNat 48 u).1 (memRead .MSG u.op.off.toNat 48 u).2
    exact Res.Keeps.bind ⟨hdecrypt.1, fun hu => hdecrypt.2 { hu with }⟩ fun _ _ => keeps_ok fun h => { h with }

/-- Every token keeps the fields in agreement (R97 to R105). -/
theorem runToken_keeps (t : Token) : (runToken P t s).Keeps s := by
  cases t with
  | tEnd => exact keeps_ok id
  | e => exact tokenE_keeps P s
  | s => exact tokenS_keeps P s
  | ee => exact mixDh_keeps ..
  | es => show (tokenEs P s).Keeps s; unfold tokenEs; split <;> exact mixDh_keeps ..
  | se => show (tokenSe P s).Keeps s; unfold tokenSe; split <;> exact mixDh_keeps ..
  | ss => exact mixDh_keeps ..
  | psk =>
    show (tokenPsk P s).Keeps s
    unfold tokenPsk
    split
    · exact keeps_viol (by nofun) id
    · exact ssMixkey_keeps ..

/-- Every token list keeps the fields in agreement. -/
theorem runTokens_keeps (ts : List Token) : (runTokens P ts s).Keeps s := by
  induction ts generalizing s with
  | nil => exact keeps_ok id
  | cons t rest ih => exact (runToken_keeps P s t).bind fun _ u => ih u

/-- Every internal operation keeps the fields in agreement. -/
theorem internalBody_keeps (i : Instr) : (internalBody P i s).Keeps s := by
  cases i with
  | tokEnd => exact keeps_ok id
  | tokE => exact Res.Keeps.map (runToken_keeps P s .e) _
  | tokS => exact Res.Keeps.map (runToken_keeps P s .s) _
  | tokEe => exact Res.Keeps.map (runToken_keeps P s .ee) _
  | tokEs => exact Res.Keeps.map (runToken_keeps P s .es) _
  | tokSe => exact Res.Keeps.map (runToken_keeps P s .se) _
  | tokSs => exact Res.Keeps.map (runToken_keeps P s .ss) _
  | tokPsk => exact Res.Keeps.map (runToken_keeps P s .psk) _
  | ssInit => exact Res.Keeps.map (ssInit_keeps P s.op.data s) fun _ => []
  | ssMixhash => exact Res.Keeps.map (spAbsorb_keeps ..) _
  | ssMixkey => exact Res.Keeps.map (ssMixkey_keeps ..) _
  | ssEncrypt => exact ssEncrypt_keeps ..
  | ssDecrypt => exact ssDecrypt_keeps ..
  | spInit c => exact keeps_ok fun h => h.setCtx c _
  | spAbsorb c => exact Res.Keeps.map (spAbsorb_keeps ..) _
  | spSqueeze c => exact Res.Keeps.map (spSqueeze_keeps ..) _
  | spEncrypt c => exact spEncrypt_keeps ..
  | spDecrypt c => exact spDecrypt_keeps ..
  | spRatchet c => exact Res.Keeps.map (spRatchet_keeps ..) _
  | spClone c => exact Res.Keeps.map (spClone_keeps ..) _
  | spLaneseed c => exact keeps_ok fun h => h.setCtx c _
  | dhCombine => exact Res.Keeps.map (dhCombine_keeps ..) _
  | dhPub => exact Res.Keeps.map (dhPub_keeps ..) _
  | _ => exact keeps_ok id

end

/-! ### The running offset -/

/-- A piece that ends well has moved the running offset by `n` (R96). -/
def Res.Advances (s : State) (n : BitVec 16) (r : Res Unit) : Prop := ∀ u, r = .ok () u → u.op.off = s.op.off + n

/-- A piece that leaves the operand lines alone, before one that moves the offset. -/
theorem Res.Advances.bind {α : Type} {s : State} {n : BitVec 16} {r : Res α} {f : α → State → Res Unit}
    (hr : r.state.op = s.op) (hf : ∀ a u, (f a u).Advances u n) : (r.bind f).Advances s n := by
  cases r with
  | ok a v =>
    intro u hu
    rw [hf a v u hu, show v.op = s.op from hr]
  | err e v => exact fun u hu => by cases hu
  | viol c v => exact fun u hu => by cases hu

theorem advanceOff_advances (n : BitVec 16) (s : State) : (Res.ok () (advanceOff n s)).Advances s n := by
  intro u hu
  cases hu
  rfl

/-- The mixer leaves the operand lines alone. -/
theorem op_of_mixer {s t : State} (h : eraseMixerWrites t = eraseMixerWrites s) : t.op = s.op :=
  (congrArg State.op h : (eraseMixerWrites t).op = (eraseMixerWrites s).op)

/-- A mixing token leaves the running offset where it is. -/
theorem mixDh_advances (P : Params) (kp : KpSlot) (pk : PkSlot) (s : State) : (mixDh P kp pk s).Advances s 0 := by
  refine Res.Advances.bind (r := dhCombine P kp pk s) ?_ fun _ u => ?_
  · unfold dhCombine
    split
    · split <;> rfl
    · rfl
  · refine Res.Advances.bind (op_of_mixer (ssMixkey_frame P u.dho.toList u)) fun _ v w hw => ?_
    cases hw
    exact (BitVec.add_zero _).symm

theorem tokenE_advances (P : Params) (s : State) : (tokenE P s).Advances s 32 := by
  unfold tokenE
  split
  · exact Res.Advances.bind (by rw [require_state]) fun _ u =>
      Res.Advances.bind (by rw [dhPub_state]) fun pk v =>
      Res.Advances.bind (Res.bind_frame (E := State.op) (by rw [require_state]) fun _ _ _ => rfl) fun _ w =>
      Res.Advances.bind (op_of_mixer (ssMixhash_frame P pk.toList w)) fun _ x => advanceOff_advances 32 x
  · refine Res.Advances.bind (by rw [require_state]) fun _ u => ?_
    exact Res.Advances.bind (s := u) ((op_of_mixer (ssMixhash_frame P _ _)).trans rfl) fun _ x => advanceOff_advances 32 x

theorem tokenS_advances (P : Params) (s : State) : (tokenS P s).Advances s 48 := by
  unfold tokenS
  split
  · exact Res.Advances.bind (by rw [require_state]) fun _ u =>
      Res.Advances.bind (by rw [dhPub_state]) fun pk v =>
      Res.Advances.bind (op_of_mixer (ssEncrypt_frame P pk.toList v)) fun _ w =>
      Res.Advances.bind (Res.bind_frame (E := State.op) (by rw [require_state]) fun _ _ _ => rfl)
        fun _ x => advanceOff_advances 48 x
  · refine Res.Advances.bind (by rw [require_state]) fun _ u => ?_
    exact Res.Advances.bind (s := u) ((op_of_mixer (ssDecrypt_frame P _ _)).trans rfl) fun _ x => advanceOff_advances 48 _

/-- A token moves the running offset by the length of its field (R97 to R105). -/
theorem runToken_advances (P : Params) (t : Token) (s : State) :
    (runToken P t s).Advances s (BitVec.ofNat 16 (fixedLen [t])) := by
  cases t with
  | tEnd => intro u hu; cases hu; exact (BitVec.add_zero _).symm
  | e => exact tokenE_advances P s
  | s => exact tokenS_advances P s
  | ee => exact mixDh_advances P _ _ s
  | es => show (tokenEs P s).Advances s 0; unfold tokenEs; split <;> exact mixDh_advances P _ _ s
  | se => show (tokenSe P s).Advances s 0; unfold tokenSe; split <;> exact mixDh_advances P _ _ s
  | ss => exact mixDh_advances P _ _ s
  | psk =>
    show (tokenPsk P s).Advances s 0
    unfold tokenPsk
    split
    · exact fun u hu => by cases hu
    · intro u hu
      have hframe := ssMixkey_frame P (Vector.toList ‹Key›) s
      rw [hu] at hframe
      rw [Res.state_ok] at hframe
      rw [op_of_mixer hframe]
      exact (BitVec.add_zero _).symm

/-- Fixed-field lengths add up (R118). -/
theorem fixedLen_cons (t : Token) (ts : List Token) : fixedLen (t :: ts) = fixedLen [t] + fixedLen ts := by
  simp only [fixedLen, List.count_cons, List.count_nil]
  ring

/-- A token list moves the running offset by its fixed-field length (R118). -/
theorem runTokens_advances (P : Params) (ts : List Token) (s : State) :
    (runTokens P ts s).Advances s (BitVec.ofNat 16 (fixedLen ts)) := by
  induction ts generalizing s with
  | nil => intro u hu; cases hu; exact (BitVec.add_zero _).symm
  | cons t rest ih =>
    intro u hu
    obtain ⟨_, v, hv, hrest⟩ := Res.bind_eq_ok.mp hu
    rw [ih v u hrest, runToken_advances P t s v hv, fixedLen_cons t rest, BitVec.ofNat_add, BitVec.add_assoc]

/-! ### Commands, host accesses and steps -/

section
variable {P : Params} {s u : State}

/-- HS.SEQ advances inside its range (R93). -/
theorem seq_add_one {k : BitVec 2} {p : Pattern} (hk : k.toNat < p.nmsgs) : (k + 1).toNat = k.toNat + 1 := by
  have hmax : p.nmsgs ≤ 3 := by cases p <;> decide
  bv_omega

theorem hsWriteStart_steady (h : s.Steady) (hk : s.seq.toNat < s.pattern.nmsgs) : (hsWriteStart s).Steady :=
  { h with
    memWf := setBuf_memWf (b := .MSG) (v := []) h.memWf (Nat.zero_le _)
    seq_le := by
      show (s.seq + 1).toNat ≤ s.pattern.nmsgs
      rw [seq_add_one hk]
      exact hk }

theorem hsReadStart_steady (h : s.Steady) (hk : s.seq.toNat < s.pattern.nmsgs) : (hsReadStart s).Steady :=
  { h with
    seq_le := by
      show (s.seq + 1).toNat ≤ s.pattern.nmsgs
      rw [seq_add_one hk]
      exact hk }

/-- The fixed-field lengths of the ROM are the legal values of HS.OFF after a message (R108 to R116). -/
theorem fixedLen_rom_legal {p : Pattern} {k : Nat} (hk : k < p.nmsgs) :
    fixedLen (rom p k) = 32 ∨ fixedLen (rom p k) = 48 ∨ fixedLen (rom p k) = 80 := by
  have hk3 : k < 3 := Nat.lt_of_lt_of_le hk (by cases p <;> decide)
  revert hk
  interval_cases k <;> cases p <;> decide

/-- Where the offset stands after the message that starts at 0 (R117, R118). -/
theorem off_after_message {p : Pattern} {k : Nat} (h0 : s.op.off = 0)
    (h : runTokens P (rom p k) s = .ok () u) : u.op.off = BitVec.ofNat 16 (fixedLen (rom p k)) := by
  rw [runTokens_advances P _ s u h, h0]
  exact BitVec.zero_add _

theorem off_legal_after_message {p : Pattern} {k : Nat} (hk : k < p.nmsgs) (h0 : s.op.off = 0)
    (h : runTokens P (rom p k) s = .ok () u) : u.op.off = 0 ∨ u.op.off = 32 ∨ u.op.off = 48 ∨ u.op.off = 80 := by
  rw [off_after_message h0 h]
  rcases fixedLen_rom_legal hk with h | h | h <;> rw [h]
  · exact .inr (.inl rfl)
  · exact .inr (.inr (.inl rfl))
  · exact .inr (.inr (.inr rfl))

theorem hsWriteEnd_steady (h : u.Steady)
    (hoff : u.op.off = 0 ∨ u.op.off = 32 ∨ u.op.off = 48 ∨ u.op.off = 80) : (hsWriteEnd u).Steady :=
  { h with
    memWf := setBuf_memWf (b := .MSG) (v := u.msg.take u.op.off.toNat) h.memWf
      (Nat.le_trans (List.length_take_le' ..) (memWf_iff.mp h.memWf .MSG))
    off_legal := hoff }

theorem hsReadEnd_steady (h : u.Steady)
    (hoff : u.op.off = 0 ∨ u.op.off = 32 ∨ u.op.off = 48 ∨ u.op.off = 80) : (hsReadEnd u).Steady :=
  { h with off_legal := hoff }

theorem hsFail_steady (w : Bool) (h : u.Steady) : (hsFail w u).Steady :=
  { h with
    memWf := hsFail_memWf w h.memWf
    keyed_ctxT := by nofun
    active_ctxT := by nofun }

/-- MSG and DAT replaced by shorter or legal contents. -/
theorem State.Steady.setMsg (h : s.Steady) {m : Bytes} (hm : m.length ≤ 65535) : { s with msg := m }.Steady :=
  { h with memWf := setBuf_memWf (b := .MSG) h.memWf hm }

theorem State.Steady.setDat (h : s.Steady) {d : Bytes} (hd : d.length ≤ 65535) : { s with dat := d }.Steady :=
  { h with memWf := setBuf_memWf (b := .DAT) h.memWf hd }

/-- Every host command's body keeps the fields in agreement. -/
theorem CommandEnd.keeps {i : Instr} {r : Res Unit} (h : CommandEnd P s i r) : r.Keeps s := by
  cases h with
  | refused hc => exact keeps_viol hc.1 id
  | init hneed =>
    exact keeps_ok fun h => { h with
      keyed_ctxT := fun _ => rfl, active_ctxT := fun _ => rfl, seq_le := Nat.zero_le _, off_legal := .inl rfl }
  | written hp hk hw h =>
    have hrun := runTokens_keeps P (hsWriteStart s) (rom s.pattern s.seq.toNat)
    rw [h] at hrun
    exact keeps_ok fun hs => hsWriteEnd_steady (hrun.2 (hsWriteStart_steady hs hk)) (off_legal_after_message hk rfl h)
  | writeFailed hp hk hw h =>
    have hrun := runTokens_keeps P (hsWriteStart s) (rom s.pattern s.seq.toNat)
    rw [h] at hrun
    exact keeps_err fun hs => hsFail_steady true (hrun.2 (hsWriteStart_steady hs hk))
  | writeViolated hp hk hw h =>
    have hrun := runTokens_keeps P (hsWriteStart s) (rom s.pattern s.seq.toNat)
    rw [h] at hrun
    exact keeps_viol (fun hc => hrun.1 _ (by rw [hc])) fun hs => hrun.2 (hsWriteStart_steady hs hk)
  | readShort hp hk hw => exact keeps_err fun hs => hsFail_steady false (hsReadStart_steady hs hk)
  | read hp hk hw hl h =>
    have hrun := runTokens_keeps P (hsReadStart s) (rom s.pattern s.seq.toNat)
    rw [h] at hrun
    exact keeps_ok fun hs => hsReadEnd_steady (hrun.2 (hsReadStart_steady hs hk)) (off_legal_after_message hk rfl h)
  | readFailed hp hk hw hl h =>
    have hrun := runTokens_keeps P (hsReadStart s) (rom s.pattern s.seq.toNat)
    rw [h] at hrun
    exact keeps_err fun hs => hsFail_steady false (hrun.2 (hsReadStart_steady hs hk))
  | readViolated hp hk hw hl h =>
    have hrun := runTokens_keeps P (hsReadStart s) (rom s.pattern s.seq.toNat)
    rw [h] at hrun
    exact keeps_viol (fun hc => hrun.1 _ (by rw [hc])) fun hs => hrun.2 (hsReadStart_steady hs hk)
  | encpay hl => exact keeps_ok fun hs => { (hs.drive _).setMsg hl with }
  | decpayShort => exact keeps_err (hsFail_steady false)
  | decpayCorrupted => exact keeps_err fun hs => hsFail_steady false { hs.drive _ with }
  | decpay hl => exact keeps_ok fun hs =>
      { (hs.drive _).setDat (Nat.le_trans hl (memWf_iff.mp hs.memWf .MSG)) with }
  | final => exact keeps_ok fun hs => { hs with
      keyed_ctxT := by nofun, active_ctxT := by nofun, valid_lanes := fun _ => ⟨rfl, rfl⟩ }
  | enc hn hl => exact keeps_ok fun hs => { hs.setMsg hl with }
  | decShort => exact keeps_err id
  | decCorrupted => exact keeps_err fun hs => { hs.setDat (d := []) (Nat.zero_le _) with }
  | dec hn hl => exact keeps_ok fun hs => { hs.setDat (Nat.le_trans hl (memWf_iff.mp hs.memWf .MSG)) with }
  | rekeyS => exact keeps_ok fun hs => hs.setCtx .S _
  | rekeyR => exact keeps_ok fun hs => hs.setCtx .R _
  | rekey => exact keeps_ok fun hs => (hs.setCtx .S _).setCtx .R _
  | rekeyHalf hc => exact keeps_viol hc.1 fun hs => hs.setCtx .S _
  | hash => exact keeps_ok fun hs => { hs with }

/-- A host command's result keeps the fields in agreement once it is finished. -/
theorem finishCommand_consistent {r : Res Unit} (h : r.Keeps s) (hs : s.Steady) : (finishCommand r).Consistent := by
  cases r with
  | ok a u => exact State.Steady.consistent { h.2 hs with err := by nofun }
  | err e u => exact State.Steady.consistent { h.2 hs with err := by cases e <;> nofun }
  | viol c u => exact enterViolation_consistent (h.2 hs) fun hc => h.1 u (by rw [hc])

/-- An internal operation's result keeps the fields in agreement once it is finished. -/
theorem finishInternal_consistent {r : Res Bytes} (h : r.Keeps s) (hs : s.Steady) :
    (finishInternal r).Consistent := by
  cases r with
  | ok a u => exact State.Steady.consistent { h.2 hs with }
  | err e u => exact State.Steady.consistent { h.2 hs with err := by cases e <;> nofun }
  | viol c u => exact enterViolation_consistent (h.2 hs) fun hc => h.1 u (by rw [hc])

/-- A refused word leaves the fields in agreement (R148). -/
theorem refuseFatal_consistent (h : s.Consistent) (hfatal : s.fatal = true) : (refuseFatal s).Consistent :=
  { h with fatal_err := ⟨fun _ => rfl, fun _ => hfatal⟩ }

theorem resetState_consistent (s : State) : (resetState s).Consistent :=
  { hostDrivenMachineStartsTracked.consistent with }

/-- While FATAL = 1 every instruction but RESET is refused (R148). -/
theorem exec_of_fatal {i : Instr} (hfatal : s.fatal = true) (hr : i ≠ .reset) : exec i s = .next (refuseFatal s) :=
  (fatalIsSticky i s hfatal).1 hr

/-- Every instruction keeps the fields in agreement. -/
theorem exec_consistent {i : Instr} {s t : State} (h : s.Consistent) (he : exec i s = .next t) : t.Consistent := by
  by_cases hr : i = .reset
  · subst hr
    cases he
    exact resetState_consistent s
  · rcases Bool.eq_false_or_eq_true s.fatal with hfatal | hgood
    · rw [exec_of_fatal hfatal hr] at he
      cases he
      exact refuseFatal_consistent h hfatal
    · by_cases hf : i.format = .H
      · rw [exec_command_good hf hr hgood] at he
        cases he
        exact finishCommand_consistent (commandBody_ends hf hr).keeps (h.steady hgood)
      · rw [exec_internal_good hf hgood] at he
        cases he
        exact finishInternal_consistent (internalBody_keeps ..) (h.steady hgood)

/-- A word that is illegal is a contract violation, or refused (R64, R148). -/
theorem illegalCommand_consistent (h : s.Consistent) : (illegalCommand s).Consistent := by
  rcases Bool.eq_false_or_eq_true s.fatal with hfatal | hgood
  · rw [illegalCommand_of_fatal hfatal]
    exact refuseFatal_consistent h hfatal
  · rw [illegalCommand_of_good hgood]
    exact enterViolation_consistent (h.steady hgood) (by nofun)

/-- Every end of a host access other than a command word: P0 or P1 is written, the access is ignored, a buffer is
replaced (and free bytes may be numbered), or a key slot is loaded outside an active handshake. -/
inductive HostAccessEnd (s : State) : State → Prop
  | p0 (v : Word32) : HostAccessEnd s { s with p0 := v }
  | p1 (v : Word32) : HostAccessEnd s { s with p1 := v }
  | ignored : HostAccessEnd s s
  | buffer {b : Buf} {v : Bytes} (hv : v.length ≤ 65535) (k : Nat) : HostAccessEnd s { s.setBuf b v with freeCtr := k }
  | slot {k : Slot} {v : Key} (hp : s.phase ≠ .active) : HostAccessEnd s (s.setSlot k (some v))

theorem setBuf_ends {b : Buf} {v : Bytes} (hv : v.length ≤ 65535) : HostAccessEnd s (s.setBuf b v) := by
  have hk : { s.setBuf b v with freeCtr := s.freeCtr } = s.setBuf b v := by cases b <;> rfl
  exact hk ▸ .buffer hv s.freeCtr

theorem hostSetLen_ends (b : Buf) (n : BitVec 16) : HostAccessEnd s (hostSetLen b n s) := by
  have hn := n.isLt
  unfold hostSetLen
  dsimp only
  split
  · exact setBuf_ends (by rw [List.length_take]; omega)
  · exact .buffer (by rw [List.length_append, freeBytes_length]; omega) _

/-- Every host access other than a command word ends in one of the listed ways (R26, R30, R32, R36). -/
theorem performHost_ends {e : Event} (hwf : s.memWf = true) (h : performHost e s = .next u) : HostAccessEnd s u := by
  cases e with
  | cmd w => cases h; exact .ignored
  | issue f w o => cases h; exact .ignored
  | reg n v =>
    simp only [performHost, hostWriteReg] at h
    split at h <;> cases h
    · exact .p0 v
    · exact .p1 v
    · exact hostSetLen_ends ..
    · exact hostSetLen_ends ..
    · exact hostSetLen_ends ..
    all_goals exact .ignored
  | load b data =>
    simp only [performHost, hostLoad] at h
    split at h <;> cases h
    exact setBuf_ends ‹_›
  | poke b a data =>
    cases h
    have hb := memWf_iff.mp hwf b
    exact setBuf_ends (by simp only [List.length_append, List.length_take, List.length_drop]; omega)
  | slot k v =>
    cases h
    by_cases hp : s.phase = .active ∨ k = .RE
    · rw [hostWriteSlot_of_ignored v hp]; exact .ignored
    · rw [hostWriteSlot_of_writable v (fun h => hp (.inl h)) fun h => hp (.inr h)]
      exact .slot fun h => hp (.inl h)

/-- A host access keeps the fields in agreement. -/
theorem HostAccessEnd.consistent (h : HostAccessEnd s u) (hs : s.Consistent) : u.Consistent := by
  cases h with
  | p0 v => exact { hs with }
  | p1 v => exact { hs with }
  | ignored => exact hs
  | @buffer b v hv k =>
    have hwf := setBuf_memWf hs.memWf hv (b := b)
    cases b <;> exact { hs with memWf := hwf }
  | @slot k v hp => cases k <;> exact { hs with }

/-- Every event keeps the fields in agreement. -/
theorem perform_consistent {e : Event} (hs : s.Consistent) (h : perform e s = .next u) : u.Consistent := by
  unfold perform at h
  split at h
  · exact (performHost_ends hs.memWf h).consistent hs
  · split at h
    · refine exec_consistent ?_ h
      cases e <;> exact { hs with }
    · cases e with
      | issue f w o => cases h
      | _ => cases h; exact illegalCommand_consistent hs

end

/-- Settles O24: the next event is performed on a state that agrees, and every way it can end keeps the agreement. -/
theorem everyStepKeepsTheFieldsInAgreement : Obligations.EveryStepKeepsTheFieldsInAgreement := by
  intro s t hs h
  cases hin : s.inbox with
  | nil =>
    rw [idleHoldsAllState s hin] at h
    cases h
    exact hs
  | cons e rest =>
    rw [step_of_inbox hin] at h
    have hrest : State.Consistent { s with inbox := rest } := { hs with }
    exact perform_consistent hrest h

end Sys2Proof.Machine
end

section
/-! PROOFS. What every host command changes and leaves alone, over all commands: each statement is a case split over
`CommandEnd`. -/

namespace Sys2Proof.Machine

section
variable {P : Params} {s t u : State} {i : Instr}

/-! ### What tokens leave alone, read off their frame -/

/-- What a token list leaves alone, it leaves alone: read off `runTokens_frame` by any projection that does not look at
what tokens write, from a state `v` that looks as `s` does. -/
theorem frame_of_run {γ : Type} {E : State → γ} (hE : ∀ s, E (eraseTokenWrites s) = E s) {ts : List Token}
    {r : Res Unit} {v : State} (h : runTokens P ts v = r) (s : State) (hv : E v = E s) : E r.state = E s := by
  rw [← hE r.state, ← h, runTokens_frame, hE, hv]

/-- The host's registers, AD, the pending events and FATAL and CV, which no command body writes (R34, R148). -/
def hostPart (s : State) : Bool × Cause × BitVec 32 × BitVec 32 × Bytes × List Event :=
  (s.fatal, s.cv, s.p0, s.p1, s.ad, s.inbox)

/-- The transport context (R124). -/
def transportPart (s : State) : Option Sponge × Option Sponge × Bool × Bool × BitVec 64 × BitVec 64 :=
  (s.ctxS, s.ctxR, s.tcValid, s.tcAborted, s.snonce, s.rnonce)

/-- No command body writes the host's registers, AD, the pending events, FATAL or CV. -/
theorem CommandEnd.hostPart {r : Res Unit} (h : CommandEnd P s i r) : hostPart r.state = hostPart s := by
  cases h with
  | written hp hk hw h => exact (frame_of_run (E := Machine.hostPart) (fun _ => rfl) h s rfl :)
  | writeFailed hp hk hw h => exact (frame_of_run (E := Machine.hostPart) (fun _ => rfl) h s rfl :)
  | writeViolated hp hk hw h => exact (frame_of_run (E := Machine.hostPart) (fun _ => rfl) h s rfl :)
  | read hp hk hw hl h => exact (frame_of_run (E := Machine.hostPart) (fun _ => rfl) h s rfl :)
  | readFailed hp hk hw hl h => exact (frame_of_run (E := Machine.hostPart) (fun _ => rfl) h s rfl :)
  | readViolated hp hk hw hl h => exact (frame_of_run (E := Machine.hostPart) (fun _ => rfl) h s rfl :)
  | _ => rfl

/-! ### Contract violations (O11) -/

/-- What a contract violation leaves of the state at the failed check, the remote keys and MSG left aside (R146). -/
def violationKeeps (s : State) : (Phase × Role × Pattern × BitVec 16 × Bool × Bool × Bool)
    × (Bool × BitVec 64 × BitVec 64) × (Bytes × BitVec 32 × BitVec 32 × Key) :=
  ((s.phase, s.role, s.pattern, s.off, s.msgcur, s.lastw, s.paydone), (s.tcAborted, s.snonce, s.rnonce),
    (s.ad, s.p0, s.p1, s.digest))

/-- A violation names its cause; it finds the state untouched but for a lane, or HS.SEQ advanced in HS_WRITE or HS_READ. -/
theorem CommandEnd.of_viol {c : Cause} (h : CommandEnd P s i (.viol c u)) :
    c ≠ .none ∧ (enterViolation c u = enterViolation c s
      ∨ ((i = .hsWrite ∨ i = .hsRead) ∧ u.seq = s.seq + 1 ∧ violationKeeps u = violationKeeps s)) := by
  refine ⟨fun hc => h.keeps.1 u (by rw [hc]), ?_⟩
  cases h with
  | refused hc => exact .inl rfl
  | rekeyHalf hc => exact .inl rfl
  | writeViolated hp hk hw h =>
    exact .inr ⟨.inl rfl, frame_of_run (E := State.seq) (fun _ => rfl) h _ rfl,
      frame_of_run (E := violationKeeps) (fun _ => rfl) h s rfl⟩
  | readViolated hp hk hw hl h =>
    exact .inr ⟨.inr rfl, frame_of_run (E := State.seq) (fun _ => rfl) h _ rfl,
      frame_of_run (E := violationKeeps) (fun _ => rfl) h s rfl⟩

/-- Only a violation ends a command with FATAL = 1. -/
theorem CommandEnd.viol_of_fatal {r : Res Unit} (h : CommandEnd P s i r) (hgood : s.fatal = false)
    (hfatal : (finishCommand r).fatal = true) : ∃ c u, r = .viol c u := by
  have hstate : r.state.fatal = s.fatal := congrArg Prod.fst h.hostPart
  cases r with
  | ok a u => exact absurd (hfatal.symm.trans (hstate.trans hgood)) (by decide)
  | err e u => exact absurd (hfatal.symm.trans (hstate.trans hgood)) (by decide)
  | viol c u => exact ⟨c, u, rfl⟩

end

/-- Settles O11: a command that ends with FATAL = 1 ended in a violation, whose entry wipes what R146 lists
(`CommandEnd.of_viol`). -/
theorem contractViolationWipesAndLatches : Obligations.ContractViolationWipesAndLatches := by
  intro i s t hf hr hgood he hfatal
  rw [exec_command_good hf hr hgood] at he
  cases he
  have hend := commandBody_ends (P := Config.params) (s := s) hf hr
  obtain ⟨c, u, hviol⟩ := hend.viol_of_fatal hgood hfatal
  rw [hviol] at hend ⊢
  obtain ⟨hc, hsame | ⟨hi, hseq, hkeeps⟩⟩ := hend.of_viol
  · rw [finishCommand, hsame]
    exact ⟨hc, rfl, ⟨rfl, rfl, rfl, rfl, rfl, rfl⟩, ⟨rfl, rfl, rfl⟩,
      ⟨rfl, rfl, rfl, rfl, rfl, rfl, rfl, rfl, rfl, rfl, rfl, rfl, rfl⟩, rfl,
      rfl, rfl, rfl, rfl, rfl, rfl, rfl, rfl, rfl, rfl, rfl, rfl, rfl, rfl, fun _ => ⟨rfl, rfl, rfl⟩, fun _ _ => rfl⟩
  · simp only [violationKeeps, Prod.mk.injEq] at hkeeps
    obtain ⟨⟨hphase, hrole, hpattern, hoff, hcur, hlastw, hpay⟩, ⟨haborted, hsn, hrn⟩, had, hp0, hp1, hdigest⟩ := hkeeps
    refine ⟨hc, rfl, ⟨rfl, rfl, rfl, rfl, rfl, rfl⟩, ⟨rfl, rfl, rfl⟩,
      ⟨rfl, rfl, rfl, rfl, rfl, rfl, rfl, rfl, rfl, rfl, rfl, rfl, rfl⟩, rfl,
      hphase, hrole, hpattern, hoff, hcur, hlastw, hpay, haborted, hsn, hrn, had, hp0, hp1, hdigest, fun hsame => ?_,
      fun hnw hnr => ?_⟩
    · have hne : s.seq + 1 = s.seq := hseq.symm.trans hsame
      exact absurd hne (by bv_omega)
    · exact absurd hi (not_or.mpr ⟨hnw, hnr⟩)

/-! ### Runtime errors (O15) -/

/-- A piece that raises no runtime error but DHFailure. -/
structure Res.OnlyDhFailure {α : Type} (r : Res α) : Prop where
  of_err : ∀ e u, r = .err e u → e = .dhFailure

section
variable {α β : Type} (P : Params) (s : State)

theorem Res.OnlyDhFailure.bind {r : Res α} {f : α → State → Res β} (h : r.OnlyDhFailure)
    (hf : ∀ a u, r = .ok a u → (f a u).OnlyDhFailure) : (r.bind f).OnlyDhFailure := by
  refine ⟨fun e u he => ?_⟩
  rcases Res.bind_eq_err.mp he with hr | ⟨a, v, hr, hrest⟩
  · exact h.of_err e u hr
  · exact (hf a v hr).of_err e u hrest

theorem onlyDhFailure_ok (a : α) : (Res.ok a s).OnlyDhFailure := ⟨fun e u h => by cases h⟩

theorem onlyDhFailure_viol (c : Cause) : (Res.viol c s : Res α).OnlyDhFailure := ⟨fun e u h => by cases h⟩

theorem require_onlyDhFailure (c : Prop) [Decidable c] (v : Cause) : (require c v s).OnlyDhFailure := by
  unfold require
  split
  · exact onlyDhFailure_ok ..
  · exact onlyDhFailure_viol ..

theorem withCtx_onlyDhFailure (c : Ctx) (g : Sponge → α × State) :
    (withCtx c s fun x => .ok (g x).1 (g x).2).OnlyDhFailure := by
  unfold withCtx
  split
  · exact onlyDhFailure_viol ..
  · exact onlyDhFailure_ok ..

theorem spAbsorb_onlyDhFailure (c : Ctx) (d : Bytes) : (spAbsorb P c d s).OnlyDhFailure :=
  withCtx_onlyDhFailure s c fun x => ((), s.setCtx c (some (P.spAbsorb x d)))

theorem ssMixkey_onlyDhFailure (d : Bytes) : (ssMixkey P d s).OnlyDhFailure :=
  (spAbsorb_onlyDhFailure P s .T d).bind fun _ _ _ => onlyDhFailure_ok ..

theorem ssEncrypt_onlyDhFailure (d : Bytes) : (ssEncrypt P d s).OnlyDhFailure := by
  rcases ssEncrypt_cases P d s with ⟨-, h⟩ | ⟨-, -, h⟩ | ⟨x, blk, -, -, -, h⟩ <;> rw [h]
  · exact onlyDhFailure_viol ..
  · exact onlyDhFailure_viol ..
  · exact onlyDhFailure_ok ..

theorem dhPub_onlyDhFailure (kp : KpSlot) : (dhPub P kp s).OnlyDhFailure := by
  unfold dhPub
  split
  · exact onlyDhFailure_ok ..
  · exact onlyDhFailure_viol ..

theorem dhCombine_onlyDhFailure (kp : KpSlot) (pk : PkSlot) : (dhCombine P kp pk s).OnlyDhFailure := by
  unfold dhCombine
  split
  · split
    · exact onlyDhFailure_ok ..
    · exact ⟨fun e u h => by cases h; rfl⟩
  · exact onlyDhFailure_viol ..

theorem mixDh_onlyDhFailure (kp : KpSlot) (pk : PkSlot) : (mixDh P kp pk s).OnlyDhFailure :=
  (dhCombine_onlyDhFailure P s kp pk).bind fun _ u _ => (ssMixkey_onlyDhFailure P u _).bind fun _ _ _ =>
    onlyDhFailure_ok ..

theorem tokenWrite_onlyDhFailure (b : Bytes) : (tokenWrite b s).OnlyDhFailure :=
  (require_onlyDhFailure s _ _).bind fun _ _ _ => onlyDhFailure_ok ..

theorem tokenEWrite_onlyDhFailure : (tokenEWrite P s).OnlyDhFailure :=
  (require_onlyDhFailure s _ _).bind fun _ u _ => (dhPub_onlyDhFailure P u .E).bind fun pk v _ =>
    (tokenWrite_onlyDhFailure v pk.toList).bind fun _ w _ =>
      (spAbsorb_onlyDhFailure P w .T pk.toList).bind fun _ _ _ => onlyDhFailure_ok ..

theorem tokenSWrite_onlyDhFailure : (tokenSWrite P s).OnlyDhFailure :=
  (require_onlyDhFailure s _ _).bind fun _ u _ => (dhPub_onlyDhFailure P u .S).bind fun pk v _ =>
    (ssEncrypt_onlyDhFailure P v pk.toList).bind fun blk w _ =>
      (tokenWrite_onlyDhFailure w blk).bind fun _ _ _ => onlyDhFailure_ok ..

/-- A token in the writing form raises no runtime error but DHFailure (R97, R99, R101 to R105). -/
theorem runToken_onlyDhFailure {t : Token} {s : State} (hform : s.op.form = .writing) :
    (runToken P t s).OnlyDhFailure := by
  cases t with
  | tEnd => exact onlyDhFailure_ok ..
  | e =>
    rw [runToken, tokenE, hform]
    exact tokenEWrite_onlyDhFailure P s
  | s =>
    rw [runToken, tokenS, hform]
    exact tokenSWrite_onlyDhFailure P s
  | ee => exact mixDh_onlyDhFailure ..
  | es => show (tokenEs P s).OnlyDhFailure; unfold tokenEs; split <;> exact mixDh_onlyDhFailure ..
  | se => show (tokenSe P s).OnlyDhFailure; unfold tokenSe; split <;> exact mixDh_onlyDhFailure ..
  | ss => exact mixDh_onlyDhFailure ..
  | psk =>
    show (tokenPsk P s).OnlyDhFailure
    unfold tokenPsk
    split
    · exact onlyDhFailure_viol ..
    · exact ssMixkey_onlyDhFailure ..

/-- A token list in the writing form raises no runtime error but DHFailure. -/
theorem runTokens_onlyDhFailure (ts : List Token) {s : State} (hform : s.op.form = .writing) :
    (runTokens P ts s).OnlyDhFailure := by
  induction ts generalizing s with
  | nil => exact onlyDhFailure_ok ..
  | cons t rest ih =>
    refine (runToken_onlyDhFailure P hform).bind fun _ u hu => ih ?_
    exact (runToken_form_role hu).1.trans hform

end

/-- The commands of a handshake message, with the errors they can raise (R117, R118, R120), and TC_DEC (R127): what a
command that raised a runtime error is, and what it leaves. -/
theorem CommandEnd.of_err {P : Params} {s u : State} {i : Instr} {e : RtErr} (h : CommandEnd P s i (.err e u)) :
    ((i = .hsRead ∨ (i = .hsWrite ∧ e = .dhFailure) ∨ (i = .hsDecpay ∧ e ≠ .dhFailure))
        ∧ u.phase = .failed ∧ u.ctxT = none ∧ u.dat = [] ∧ u.ownKeysWiped ∧ transportPart u = transportPart s)
      ∨ (∃ adp, i = .tcDec adp) ∧ ((e = .messageCorrupted ∧ u.tcAborted = true ∧ u.dat = [] ∧ u.phase = s.phase)
        ∨ (e = .ciphertextTooShort ∧ u = s)) := by
  cases h with
  | writeFailed hp hk hw h =>
    exact .inl ⟨.inr (.inl ⟨rfl, (runTokens_onlyDhFailure P _ rfl).of_err _ _ h⟩), rfl, rfl, rfl, ⟨rfl, rfl, rfl⟩,
      (frame_of_run (E := transportPart) (fun _ => rfl) h s rfl :)⟩
  | readShort hp hk hw => exact .inl ⟨.inl rfl, rfl, rfl, rfl, ⟨rfl, rfl, rfl⟩, rfl⟩
  | readFailed hp hk hw hl h =>
    exact .inl ⟨.inl rfl, rfl, rfl, rfl, ⟨rfl, rfl, rfl⟩,
      (frame_of_run (E := transportPart) (fun _ => rfl) h s rfl :)⟩
  | decpayShort => exact .inl ⟨.inr (.inr ⟨rfl, by decide⟩), rfl, rfl, rfl, ⟨rfl, rfl, rfl⟩, rfl⟩
  | decpayCorrupted => exact .inl ⟨.inr (.inr ⟨rfl, by decide⟩), rfl, rfl, rfl, ⟨rfl, rfl, rfl⟩, rfl⟩
  | decShort => exact .inr ⟨⟨_, rfl⟩, .inr ⟨rfl, rfl⟩⟩
  | decCorrupted => exact .inr ⟨⟨_, rfl⟩, .inl ⟨rfl, rfl, rfl, rfl⟩⟩

/-- STATUS.ERR holds a runtime error's code only when the command raised it (R144). -/
theorem err_of_runtimeError {r : Res Unit} (h : (finishCommand r).err = .ciphertextTooShort
    ∨ (finishCommand r).err = .messageCorrupted ∨ (finishCommand r).err = .dhFailure) : ∃ e u, r = .err e u := by
  cases r with
  | ok a u => rcases h with h | h | h <;> cases h
  | err e u => exact ⟨e, u, rfl⟩
  | viol c u => rcases h with h | h | h <;> cases h

/-- A runtime error and its code in STATUS.ERR (R144). -/
theorem RtErr.toErr_inj {e f : RtErr} (h : e.toErr = f.toErr) : e = f := by cases e <;> cases f <;> cases h <;> rfl

/-- No runtime error's code is OK (R144). -/
theorem RtErr.toErr_ne_ok (e : RtErr) : e.toErr ≠ .ok := by cases e <;> nofun

/-- Settles O15: the errors a command raises, and what each leaves (`CommandEnd.of_err`). -/
theorem runtimeErrorsEndAStateMachine : Obligations.RuntimeErrorsEndAStateMachine := by
  intro i s t hf hgood he herr
  by_cases hr : i = .reset
  · subst hr
    cases he
    rcases herr with h | h | h <;> cases h
  rw [exec_command_good hf hr hgood] at he
  cases he
  have hend := commandBody_ends (P := Config.params) (s := s) hf hr
  obtain ⟨e, u, hres⟩ := err_of_runtimeError herr
  rw [hres] at hend ⊢
  have hhost := hend.hostPart
  simp only [hostPart, Prod.mk.injEq, Res.state_err] at hhost
  obtain ⟨hfatal, hcv, -⟩ := hhost
  refine ⟨hfatal.trans hgood, hcv, ⟨rfl, rfl, rfl, rfl, rfl, rfl, rfl, rfl, rfl, rfl, rfl, rfl, rfl⟩, ?_⟩
  rcases hend.of_err with ⟨hi, hphase, hctxT, hdat, hkeys, htransport⟩ | 
      ⟨⟨adp, rfl⟩, ⟨rfl, habort, hdat, hphase⟩ | ⟨rfl, rfl⟩⟩
  · simp only [transportPart, Prod.mk.injEq] at htransport
    refine .inl ⟨hi.imp_right (Or.imp ?_ ?_), hphase, hctxT, hdat, hkeys, htransport⟩
    · rintro ⟨rfl, rfl⟩
      exact ⟨rfl, rfl⟩
    · exact fun ⟨hi, hne⟩ => ⟨hi, fun h => hne (RtErr.toErr_inj (f := .dhFailure) h)⟩
  · exact .inr ⟨by cases adp <;> simp, .inl ⟨rfl, habort, hdat, hphase⟩⟩
  · exact .inr ⟨by cases adp <;> simp, .inr rfl⟩

/-! ### The write sets (O17) -/

section
variable (P : Params) (s : State)

/-- A state with what a mixing token writes erased: the symmetric state and DHO (R101 to R105). -/
def eraseMixWrites (s : State) : State := { eraseMixerWrites s with dho := Key.zero }

theorem eraseMixWrites_of_mixer {s t : State} (h : eraseMixerWrites t = eraseMixerWrites s) :
    eraseMixWrites t = eraseMixWrites s := by
  rw [eraseMixWrites, h, eraseMixWrites]

theorem mixDh_mixFrame (kp : KpSlot) (pk : PkSlot) : eraseMixWrites (mixDh P kp pk s).state = eraseMixWrites s := by
  refine Res.bind_frame ?_ fun _ u _ => Res.bind_frame (eraseMixWrites_of_mixer (ssMixkey_frame ..)) fun _ _ _ => rfl
  unfold dhCombine
  split
  · split <;> rfl
  · rfl

/-- What every token but E and S leaves alone (R101 to R105). -/
theorem runToken_mixFrame {t : Token} (he : t ≠ .e) (hs : t ≠ .s) :
    eraseMixWrites (runToken P t s).state = eraseMixWrites s := by
  cases t with
  | tEnd => rfl
  | e => exact absurd rfl he
  | s => exact absurd rfl hs
  | ee => exact mixDh_mixFrame ..
  | es => show eraseMixWrites (tokenEs P s).state = _; unfold tokenEs; split <;> exact mixDh_mixFrame ..
  | se => show eraseMixWrites (tokenSe P s).state = _; unfold tokenSe; split <;> exact mixDh_mixFrame ..
  | ss => exact mixDh_mixFrame ..
  | psk =>
    show eraseMixWrites (tokenPsk P s).state = _
    unfold tokenPsk
    split
    · rfl
    · exact eraseMixWrites_of_mixer (ssMixkey_frame ..)

/-- The remote keys. -/
def remoteKeys (s : State) : Option Key × Option Key := (s.kRS, s.kRE)

theorem remoteKeys_of_mixer {s t : State} (h : eraseMixerWrites t = eraseMixerWrites s) : remoteKeys t = remoteKeys s :=
  (congrArg remoteKeys h : remoteKeys (eraseMixerWrites t) = remoteKeys (eraseMixerWrites s))

theorem msg_of_mixer {s t : State} (h : eraseMixerWrites t = eraseMixerWrites s) : t.msg = s.msg :=
  (congrArg State.msg h : (eraseMixerWrites t).msg = (eraseMixerWrites s).msg)

theorem tokenWrite_remoteKeys (b : Bytes) : remoteKeys (tokenWrite b s).state = remoteKeys s :=
  Res.bind_frame (by rw [require_state]) fun _ _ _ => rfl

theorem tokenEWrite_remoteKeys : remoteKeys (tokenEWrite P s).state = remoteKeys s :=
  Res.bind_frame (by rw [require_state]) fun _ _ _ => Res.bind_frame (by rw [dhPub_state]) fun _ v _ =>
    Res.bind_frame (tokenWrite_remoteKeys v _) fun _ _ _ =>
      Res.bind_frame (remoteKeys_of_mixer (ssMixhash_frame ..)) fun _ _ _ => rfl

theorem tokenSWrite_remoteKeys : remoteKeys (tokenSWrite P s).state = remoteKeys s :=
  Res.bind_frame (by rw [require_state]) fun _ _ _ => Res.bind_frame (by rw [dhPub_state]) fun _ _ _ =>
    Res.bind_frame (remoteKeys_of_mixer (ssEncrypt_frame ..)) fun _ w _ =>
      Res.bind_frame (tokenWrite_remoteKeys w _) fun _ _ _ => rfl

theorem tokenERead_msg : (tokenERead P s).state.msg = s.msg :=
  Res.bind_frame (E := State.msg) (by rw [require_state]) fun _ u _ =>
    Res.bind_frame (E := State.msg) (s := u) ((msg_of_mixer (ssMixhash_frame ..)).trans rfl) fun _ _ _ => rfl

theorem tokenSRead_msg : (tokenSRead P s).state.msg = s.msg :=
  Res.bind_frame (E := State.msg) (by rw [require_state]) fun _ u _ =>
    Res.bind_frame (E := State.msg) (s := u) ((msg_of_mixer (ssDecrypt_frame ..)).trans rfl) fun _ _ _ => rfl

/-- In the writing form no token writes a remote key (R97, R99). -/
theorem runToken_remoteKeys (t : Token) {s : State} (hform : s.op.form = .writing) :
    remoteKeys (runToken P t s).state = remoteKeys s := by
  by_cases he : t = .e
  · rw [he, runToken, tokenE, hform]
    exact tokenEWrite_remoteKeys P s
  by_cases hs : t = .s
  · rw [hs, runToken, tokenS, hform]
    exact tokenSWrite_remoteKeys P s
  exact (congrArg remoteKeys (runToken_mixFrame P s he hs) :
    remoteKeys (eraseMixWrites (runToken P t s).state) = remoteKeys (eraseMixWrites s))

/-- In the reading form no token writes MSG (R98, R100). -/
theorem runToken_msg (t : Token) {s : State} (hform : s.op.form = .reading) :
    (runToken P t s).state.msg = s.msg := by
  by_cases he : t = .e
  · rw [he, runToken, tokenE, hform]
    exact tokenERead_msg P s
  by_cases hs : t = .s
  · rw [hs, runToken, tokenS, hform]
    exact tokenSRead_msg P s
  exact (congrArg State.msg (runToken_mixFrame P s he hs) :
    (eraseMixWrites (runToken P t s).state).msg = (eraseMixWrites s).msg)

/-- In the writing form no token list writes a remote key. -/
theorem runTokens_remoteKeys (ts : List Token) {s : State} (hform : s.op.form = .writing) :
    remoteKeys (runTokens P ts s).state = remoteKeys s := by
  induction ts generalizing s with
  | nil => rfl
  | cons t rest ih =>
    exact Res.bind_frame (runToken_remoteKeys P t hform) fun _ _ hu => ih ((runToken_form_role hu).1.trans hform)

/-- In the reading form no token list writes MSG. -/
theorem runTokens_msg (ts : List Token) {s : State} (hform : s.op.form = .reading) :
    (runTokens P ts s).state.msg = s.msg := by
  induction ts generalizing s with
  | nil => rfl
  | cons t rest ih =>
    exact Res.bind_frame (E := State.msg) (runToken_msg P t hform) fun _ _ hu =>
      ih ((runToken_form_role hu).1.trans hform)

end

/-- The own keys and the handshake control but HS.SEQ. -/
def ownPart (s : State) := (s.kS, s.kE, s.kPSK, s.phase, s.role, s.pattern, s.off, s.msgcur, s.lastw, s.paydone)

/-- What the tokens of a message leave alone: the host's registers, AD, the pending events, DIGEST, the transport context,
DAT, the own keys and the handshake control (R34). -/
def messageKeeps (s : State) := (hostPart s, s.digest, transportPart s, s.dat, ownPart s)

/-- The tokens of HS_WRITE leave alone what R34 says, and the remote keys. -/
theorem write_run_keeps {P : Params} {s : State} {ts : List Token} {r : Res Unit}
    (h : runTokens P ts (hsWriteStart s) = r) :
    messageKeeps r.state = messageKeeps s ∧ remoteKeys r.state = remoteKeys s :=
  ⟨frame_of_run (E := messageKeeps) (fun _ => rfl) h s rfl, h ▸ runTokens_remoteKeys P ts rfl⟩

/-- The tokens of HS_READ leave alone what R34 says, and MSG. -/
theorem read_run_keeps {P : Params} {s : State} {ts : List Token} {r : Res Unit}
    (h : runTokens P ts (hsReadStart s) = r) : messageKeeps r.state = messageKeeps s ∧ r.state.msg = s.msg :=
  ⟨frame_of_run (E := messageKeeps) (fun _ => rfl) h s rfl, h ▸ runTokens_msg P ts rfl⟩

/-- Settles O17: the command's writes stand in its `CommandEnd`; what the tokens of a message leave alone is
`write_run_keeps` and `read_run_keeps`. -/
theorem commandsWriteOnlyTheirWriteSet : Obligations.CommandsWriteOnlyTheirWriteSet := by
  intro i s t hf hr hgood he hfatal
  rw [exec_command_good hf hr hgood] at he
  cases he
  have hend := commandBody_ends (P := Config.params) (s := s) hf hr
  generalize commandBody Config.params i s = r at hend hfatal
  cases hend with
  | refused hc => cases hfatal
  | writeViolated hp hk hw h => cases hfatal
  | readViolated hp hk hw hl h => cases hfatal
  | rekeyHalf hc => cases hfatal
  | written hp hk hw h =>
    obtain ⟨hmessage, hremote⟩ := write_run_keeps h
    simp only [messageKeeps, hostPart, transportPart, remoteKeys, Res.state_ok, Prod.mk.injEq] at hmessage hremote
    simp [finishCommand, hsWriteEnd, sameHostOperands, sameTransport, sameBytes, State.readByte, State.buf, hmessage,
      hremote]
  | writeFailed hp hk hw h =>
    obtain ⟨hmessage, hremote⟩ := write_run_keeps h
    simp only [messageKeeps, hostPart, transportPart, remoteKeys, Res.state_err, Prod.mk.injEq] at hmessage hremote
    simp [finishCommand, hsFail, sameHostOperands, sameTransport, hmessage, hremote, RtErr.toErr_ne_ok]
  | read hp hk hw hl h =>
    obtain ⟨hmessage, hmsg⟩ := read_run_keeps h
    simp only [messageKeeps, hostPart, transportPart, Res.state_ok, Prod.mk.injEq] at hmessage hmsg
    simp [finishCommand, hsReadEnd, sameHostOperands, sameTransport, sameBytes, State.readByte, State.buf, hmessage, hmsg]
  | readFailed hp hk hw hl h =>
    obtain ⟨hmessage, hmsg⟩ := read_run_keeps h
    simp only [messageKeeps, hostPart, transportPart, Res.state_err, Prod.mk.injEq] at hmessage hmsg
    simp [finishCommand, hsFail, sameHostOperands, sameTransport, sameBytes, State.readByte, State.buf, hmessage, hmsg,
      RtErr.toErr_ne_ok]
  | _ =>
    simp [finishCommand, sameHostOperands, sameTransport, sameHandshakeControl, sameSymmetric, sameSlots, sameBytes,
      State.readByte, State.buf, hsInitControl, hsReadStart, hsFail, hsFinalEnd, erasePhRegisters, RtErr.toErr]

/-! ### Flags, nonces and SS.KEYED over every instruction (O18, O19, O21) -/

section
variable {s t : State} {i : Instr}

/-- Every end of every instruction: refused while FATAL = 1, RESET, the end of a host command, the end of an internal
operation. -/
theorem exec_cases (he : exec i s = .next t) :
    (i ≠ .reset ∧ t = refuseFatal s) ∨ (i = .reset ∧ t = resetState s)
      ∨ (i ≠ .reset ∧ ∃ r, CommandEnd Config.params s i r ∧ t = finishCommand r)
      ∨ (i.format ≠ .H ∧ t = finishInternal (internalBody Config.params i s)) := by
  by_cases hr : i = .reset
  · subst hr
    cases he
    exact .inr (.inl ⟨rfl, rfl⟩)
  rcases Bool.eq_false_or_eq_true s.fatal with hfatal | hgood
  · rw [exec_of_fatal hfatal hr] at he
    cases he
    exact .inl ⟨hr, rfl⟩
  by_cases hf : i.format = .H
  · rw [exec_command_good hf hr hgood] at he
    cases he
    exact .inr (.inr (.inl ⟨hr, _, commandBody_ends hf hr, rfl⟩))
  · rw [exec_internal_good hf hgood] at he
    cases he
    exact .inr (.inr (.inr ⟨hf, rfl⟩))

/-- The end of an internal operation writes no flag or counter of the transport context. -/
theorem transportFlags_finishInternal (r : Res Bytes) : transportFlags (finishInternal r) = transportFlags r.state := by
  cases r <;> rfl

/-- The end of a command writes no flag or counter of the transport context. -/
theorem transportFlags_finishCommand (r : Res Unit) : transportFlags (finishCommand r) = transportFlags r.state := by
  cases r <;> rfl

/-- A command that writes no flag or counter of the transport context and is neither TC_ENC, TC_DEC nor HS_FINAL ending
OK, or which of these three it is. -/
theorem CommandEnd.flags {P : Params} {r : Res Unit} (h : CommandEnd P s i r) :
    (transportFlags r.state = transportFlags s
        ∧ ((∃ adp, i = .tcEnc adp ∨ i = .tcDec adp) ∨ i = .hsFinal → (finishCommand r).err ≠ .ok))
      ∨ (∃ adp, i = .tcEnc adp ∧ (finishCommand r).err = .ok ∧ s.snonce.toNat < 2 ^ 64 - 1
          ∧ transportFlags r.state = (s.tcAborted, s.snonce + 1, s.rnonce))
      ∨ (∃ adp, i = .tcDec adp ∧ (finishCommand r).err = .ok ∧ s.rnonce.toNat < 2 ^ 64 - 1
          ∧ transportFlags r.state = (s.tcAborted, s.snonce, s.rnonce + 1))
      ∨ (∃ adp, i = .tcDec adp ∧ (finishCommand r).err = .messageCorrupted
          ∧ transportFlags r.state = (true, s.snonce, s.rnonce))
      ∨ (i = .hsFinal ∧ transportFlags r.state = (false, 0, 0)) := by
  cases h with
  | written hp hk hw h =>
    exact .inl ⟨(frame_of_run (E := transportFlags) (fun _ => rfl) h s rfl :), fun h => by simp at h⟩
  | writeFailed hp hk hw h =>
    exact .inl ⟨(frame_of_run (E := transportFlags) (fun _ => rfl) h s rfl :), fun h => by simp at h⟩
  | writeViolated hp hk hw h =>
    exact .inl ⟨(frame_of_run (E := transportFlags) (fun _ => rfl) h s rfl :), fun h => by simp at h⟩
  | read hp hk hw hl h =>
    exact .inl ⟨(frame_of_run (E := transportFlags) (fun _ => rfl) h s rfl :), fun h => by simp at h⟩
  | readFailed hp hk hw hl h =>
    exact .inl ⟨(frame_of_run (E := transportFlags) (fun _ => rfl) h s rfl :), fun h => by simp at h⟩
  | readViolated hp hk hw hl h =>
    exact .inl ⟨(frame_of_run (E := transportFlags) (fun _ => rfl) h s rfl :), fun h => by simp at h⟩
  | enc hn hl => exact .inr (.inl ⟨_, rfl, rfl, hn, rfl⟩)
  | dec hn hl => exact .inr (.inr (.inl ⟨_, rfl, rfl, hn, rfl⟩))
  | decCorrupted => exact .inr (.inr (.inr (.inl ⟨_, rfl, rfl, rfl⟩)))
  | final => exact .inr (.inr (.inr (.inr ⟨rfl, rfl⟩)))
  | refused hc => exact .inl ⟨rfl, fun _ => by nofun⟩
  | decShort => exact .inl ⟨rfl, fun _ => by nofun⟩
  | _ => exact .inl ⟨rfl, fun h => by simp at h⟩

/-- Every instruction either leaves the flags and counters of the transport context, and is no TC_ENC, TC_DEC or HS_FINAL
that ends OK and no RESET; or it is one of these, or TC_DEC on a tag mismatch (R18, R27). -/
theorem exec_flags (he : exec i s = .next t) :
    (transportFlags t = transportFlags s
        ∧ ((∃ adp, i = .tcEnc adp ∨ i = .tcDec adp) ∨ i = .hsFinal → t.err ≠ .ok) ∧ i ≠ .reset)
      ∨ (∃ adp, i = .tcEnc adp ∧ t.err = .ok ∧ s.snonce.toNat < 2 ^ 64 - 1
          ∧ transportFlags t = (s.tcAborted, s.snonce + 1, s.rnonce))
      ∨ (∃ adp, i = .tcDec adp ∧ t.err = .ok ∧ s.rnonce.toNat < 2 ^ 64 - 1
          ∧ transportFlags t = (s.tcAborted, s.snonce, s.rnonce + 1))
      ∨ (∃ adp, i = .tcDec adp ∧ t.err = .messageCorrupted ∧ transportFlags t = (true, s.snonce, s.rnonce))
      ∨ ((i = .hsFinal ∨ i = .reset) ∧ transportFlags t = (false, 0, 0)) := by
  rcases exec_cases he with ⟨hr, rfl⟩ | ⟨rfl, rfl⟩ | ⟨hr, r, hend, rfl⟩ | ⟨hf, rfl⟩
  · exact .inl ⟨rfl, fun _ => by nofun, hr⟩
  · exact .inr (.inr (.inr (.inr ⟨.inr rfl, rfl⟩)))
  · rw [transportFlags_finishCommand]
    exact hend.flags.imp (fun ⟨h, herr⟩ => ⟨h, herr, hr⟩)
      (Or.imp_right (Or.imp_right (Or.imp_right fun ⟨hi, h⟩ => ⟨.inl hi, h⟩)))
  · refine .inl ⟨(transportFlags_finishInternal _).trans (internalBody_transportFlags ..), fun h => ?_, ?_⟩
    · rcases h with ⟨adp, rfl | rfl⟩ | rfl <;> exact absurd rfl hf
    · rintro rfl
      exact hf rfl

end

/-- Settles O18: `exec_flags` names the instructions that write TC.ABORTED. -/
theorem abortedIsOneWay : Obligations.AbortedIsOneWay := by
  refine ⟨fun i s t he => ?_, fun s => ?_, rfl⟩
  · rcases exec_flags he with ⟨h, -⟩ | ⟨adp, rfl, -, -, h⟩ | ⟨adp, rfl, -, -, h⟩ | ⟨adp, rfl, herr, h⟩ |
        ⟨hi, h⟩ <;>
      simp only [transportFlags, Prod.mk.injEq] at h <;> obtain ⟨habort, -, -⟩ := h
    · exact ⟨fun h => .inl (habort.trans h), fun h1 h2 => absurd (h1.symm.trans (habort.symm.trans h2)) (by decide)⟩
    · exact ⟨fun h => .inl (habort.trans h), fun h1 h2 => absurd (h1.symm.trans (habort.symm.trans h2)) (by decide)⟩
    · exact ⟨fun h => .inl (habort.trans h), fun h1 h2 => absurd (h1.symm.trans (habort.symm.trans h2)) (by decide)⟩
    · exact ⟨fun _ => .inl habort, fun _ _ => ⟨by cases adp <;> simp, herr⟩⟩
    · exact ⟨fun _ => .inr hi, fun _ h => absurd (habort.symm.trans h) (by decide)⟩
  · exact status_getLsbD s 18

/-- Settles O21: `exec_flags` names the instructions that write a counter; one that counts starts below 2^64 - 1. -/
theorem noncesCountSuccessesAndNeverWrap : Obligations.NoncesCountSuccessesAndNeverWrap := by
  intro i s t he
  rcases exec_flags he with ⟨h, herr, hr⟩ | ⟨adp, rfl, herr, hn, h⟩ | ⟨adp, rfl, herr, hn, h⟩ |
      ⟨adp, rfl, herr, h⟩ | ⟨hi, h⟩ <;>
    simp only [transportFlags, Prod.mk.injEq] at h <;> obtain ⟨-, hsn, hrn⟩ := h
  · exact ⟨.inl hsn, .inl hrn,
      fun hi hok => absurd hok (herr (.inl (hi.elim (fun h => ⟨_, .inl h⟩) fun h => ⟨_, .inl h⟩))),
      fun hi hok => absurd hok (herr (.inl (hi.elim (fun h => ⟨_, .inr h⟩) fun h => ⟨_, .inr h⟩))),
      fun hi hok => absurd hok (herr (.inr hi)), fun hi => absurd hi hr⟩
  · have hcount : t.snonce.toNat = s.snonce.toNat + 1 := by rw [hsn]; bv_omega
    have hi : Instr.tcEnc adp = .tcEnc false ∨ Instr.tcEnc adp = .tcEnc true := by cases adp <;> simp
    exact ⟨.inr (.inl ⟨hi, herr, hcount⟩), .inl hrn, fun _ _ => hcount, by simp, by simp, by simp⟩
  · have hcount : t.rnonce.toNat = s.rnonce.toNat + 1 := by rw [hrn]; bv_omega
    have hi : Instr.tcDec adp = .tcDec false ∨ Instr.tcDec adp = .tcDec true := by cases adp <;> simp
    exact ⟨.inl hsn, .inr (.inl ⟨hi, herr, hcount⟩), by simp, fun _ _ => hcount, by simp, by simp⟩
  · exact ⟨.inl hsn, .inl hrn, by simp, by simp [herr], by simp, by simp⟩
  · refine ⟨.inr (.inr ⟨hi, hsn⟩), .inr (.inr ⟨hi, hrn⟩), fun h => ?_, fun h => ?_,
      fun _ _ => ⟨hsn, hrn⟩, fun _ => ⟨hsn, hrn⟩⟩
    · rcases hi with rfl | rfl <;> simp at h
    · rcases hi with rfl | rfl <;> simp at h

/-- The key-mixing internal operations, listed. -/
theorem mem_of_mixesKey {i : Instr} (h : mixesKey i = true) :
    i ∈ [Instr.ssMixkey, .tokEe, .tokEs, .tokSe, .tokSs, .tokPsk] := by
  unfold mixesKey at h
  split at h <;> simp at h ⊢

/-- The end of an internal operation does not set SS.KEYED. -/
theorem keyed_finishInternal {r : Res Bytes} (h : r.state.keyed = false) : (finishInternal r).keyed = false := by
  cases r with
  | ok b u => exact h
  | err e u => exact h
  | viol c u => rfl

/-- Settles O19: of the internal operations those that mix a key (`internalBody_keyed`), of the commands those that run
tokens. -/
theorem keyedIsSetOnlyByMixingAKey : Obligations.KeyedIsSetOnlyByMixingAKey := by
  intro i s t he hbefore hafter
  rcases exec_cases he with ⟨hr, rfl⟩ | ⟨rfl, rfl⟩ | ⟨hr, r, hend, rfl⟩ | ⟨hf, rfl⟩
  · exact absurd (hbefore.symm.trans hafter) (by decide)
  · cases hafter
  · cases hend with
    | written hp hk hw h => simp
    | writeFailed hp hk hw h => simp
    | writeViolated hp hk hw h => simp
    | readShort hp hk hw => simp
    | read hp hk hw hl h => simp
    | readFailed hp hk hw hl h => simp
    | readViolated hp hk hw hl h => simp
    | refused hc => cases hafter
    | _ => first | cases hafter | exact absurd (hbefore.symm.trans hafter) (by decide)
  · cases hmix : mixesKey i with
    | true => exact List.mem_append_left [.hsWrite, .hsRead] (mem_of_mixesKey hmix)
    | false =>
      have hbody := internalBody_keyed (P := Config.params) hmix hbefore
      exact absurd (hafter.symm.trans (keyed_finishInternal hbody)) (by decide)

end Sys2Proof.Machine
end

section
/-! PROOFS. How far a handshake message has come: which slots are valid and whether a key was mixed, entry by entry of the
expansions of R108 to R116. In a host-driven machine every entry finds what it needs. -/

namespace Sys2Proof.Machine

/-! ### What is known of the slots -/

/-- Which key slots are valid, and SS.KEYED. -/
structure Known where
  s : Bool
  e : Bool
  rs : Bool
  re : Bool
  psk : Bool
  keyed : Bool
deriving DecidableEq

/-- What a state knows. -/
def State.known (s : State) : Known :=
  ⟨s.kS.isSome, s.kE.isSome, s.kRS.isSome, s.kRE.isSome, s.kPSK.isSome, s.keyed⟩

/-- A key-pair slot is valid. -/
def Known.kp (k : Known) : KpSlot → Bool
  | .S => k.s
  | .E => k.e

/-- A public-key slot is valid. -/
def Known.pk (k : Known) : PkSlot → Bool
  | .RS => k.rs
  | .RE => k.re

theorem kpVal_isSome (s : State) (kp : KpSlot) : (s.kpVal kp).isSome = s.known.kp kp := by cases kp <;> rfl
theorem pkVal_isSome (s : State) (pk : PkSlot) : (s.pkVal pk).isSome = s.known.pk pk := by cases pk <;> rfl

/-- What an entry of an expansion makes known, when what it checks is met (R97 to R105). -/
def Expanded.after (k : Known) : Expanded → Option Known
  | .wE => if k.e then some k else none
  | .rE => if k.re then none else some { k with re := true }
  | .wS => if k.s && k.keyed then some k else none
  | .rS => if !k.rs && k.keyed then some { k with rs := true } else none
  | .mix kp pk => if k.kp kp && k.pk pk then some { k with keyed := true } else none
  | .psk => if k.psk then some { k with keyed := true } else none

/-- The field that an entry writes or reads (R97 to R100). -/
def Expanded.len : Expanded → Nat
  | .wE | .rE => 32
  | .wS | .rS => 48
  | .mix _ _ | .psk => 0

/-- The entry stands in expansions of this form (R107). -/
def Expanded.runsIn (f : Form) : Expanded → Bool
  | .wE | .wS => f = .writing
  | .rE | .rS => f = .reading
  | .mix _ _ | .psk => true

/-- What a list of entries makes known. -/
def afterAll : List Expanded → Known → Option Known
  | [], k => some k
  | x :: xs, k => (x.after k).bind (afterAll xs)

/-- The fields of a list of entries. -/
def lenAll (xs : List Expanded) : Nat := (xs.map Expanded.len).sum

/-- What an active handshake at HS.SEQ = k knows; `State.Holds.known` ties it to the invariant (R94, R107). -/
def knownAt (p : Pattern) (r : Role) (k : Nat) : Known :=
  ⟨decide (Slot.S ∈ need p r), decide (Slot.E ∈ need p r),
    (need p r).contains .RS || receivedBefore p r k .s, receivedBefore p r k .e, decide (Slot.PSK ∈ need p r),
    keyedBefore p k⟩

/-- Every message finds what its entries check, and leaves what the next one finds: the table of R108 to R116. -/
theorem afterAll_expansion {p : Pattern} {k : Nat} (hk : k < p.nmsgs) (r : Role) :
    afterAll (expansion p k r) (knownAt p r k) = some (knownAt p r (k + 1)) := by
  have hk3 : k < 3 := Nat.lt_of_lt_of_le hk (by cases p <;> decide)
  revert hk
  interval_cases k <;> cases p <;> cases r <;> decide

/-- The fields of an expansion are the message's fixed fields. -/
theorem lenAll_expansion {p : Pattern} {k : Nat} (hk : k < p.nmsgs) (r : Role) :
    lenAll (expansion p k r) = (fixedAndKeyed p k).1 := by
  have hk3 : k < 3 := Nat.lt_of_lt_of_le hk (by cases p <;> decide)
  revert hk
  interval_cases k <;> cases p <;> cases r <;> decide

/-- The entries of an expansion are of the form in which the role runs the message. -/
theorem runsIn_expansion {p : Pattern} {k : Nat} (hk : k < p.nmsgs) (r : Role) :
    ∀ x ∈ expansion p k r, x.runsIn (formOf k r) = true := by
  have hk3 : k < 3 := Nat.lt_of_lt_of_le hk (by cases p <;> decide)
  revert hk
  interval_cases k <;> cases p <;> cases r <;> decide

/-! ### One entry -/

/-- From `s` to `u` the entries of `n` bytes in form `f` ended well: what is known is `k`, the offset moved by `n`, and
MSG grew at its end, if at all. -/
structure Advanced (f : Form) (s u : State) (k : Known) (n : Nat) : Prop where
  known : u.known = k
  ctxT : u.ctxT.isSome = true
  off : u.op.off.toNat = s.op.off.toNat + n
  grows : s.msg <+: u.msg
  tail : f = .writing → u.msg.length = u.op.off.toNat

/-- What the entries of a list of `n` bytes in form `f` need of the state besides the slots. -/
structure Ready (f : Form) (s : State) (n : Nat) : Prop where
  ctxT : s.ctxT.isSome = true
  room : s.op.off.toNat + n ≤ 65535
  tail : f = .writing → s.msg.length = s.op.off.toNat
  span : f = .reading → s.op.off.toNat + n ≤ s.msg.length

/-- A message ends well, or in DHFailure, or when reading in MessageCorrupted; never in a violation. -/
def Progresses (f : Form) (s : State) (k : Known) (n : Nat) (r : Res Unit) : Prop :=
  (∃ u, r = .ok () u ∧ Advanced f s u k n)
    ∨ ∃ e u, r = .err e u ∧ (e = .dhFailure ∨ (f = .reading ∧ e = .messageCorrupted))

section
variable {P : Params} {f : Form} {s : State} {k : Known} {n : Nat}

/-- What a message that ended well has come to. -/
theorem Progresses.advanced_of_ok {r : Res Unit} {u : State} (h : Progresses f s k n r) (hr : r = .ok () u) :
    Advanced f s u k n := by
  rcases h with ⟨v, hv, hadv⟩ | ⟨e, v, hv, -⟩ <;> rw [hv] at hr <;> cases hr
  exact hadv

/-- The offset moves without a wrap inside the capacity (R139). -/
theorem toNat_add_ofNat {a : BitVec 16} {n : Nat} (h : a.toNat + n ≤ 65535) :
    (a + BitVec.ofNat 16 n).toNat = a.toNat + n := by
  rw [BitVec.toNat_add, BitVec.toNat_ofNat]
  omega

/-- Bytes that replace nothing stand at the end. -/
theorem replaced_at_end {m : Bytes} {a n : Nat} (h : m.length = a) (b : Bytes) :
    m.take a ++ b ++ m.drop (a + n) = m ++ b := by
  subst h
  rw [List.take_length, List.drop_of_length_le (by omega), List.append_nil]

theorem wE_progresses (hf : f = .writing) (hk : Expanded.wE.after s.known = some k) (hr : Ready f s 32) :
    Progresses f s k 32 (tokenEWrite P s) := by
  simp only [Expanded.after, Option.ite_none_right_eq_some, Option.some.injEq] at hk
  obtain ⟨he, rfl⟩ := hk
  obtain ⟨e, he⟩ := Option.isSome_iff_exists.mp (he : s.kE.isSome = true)
  obtain ⟨x, hx⟩ := Option.isSome_iff_exists.mp hr.ctxT
  have hend := hr.tail hf
  have hoff : (s.op.off + 32).toNat = s.op.off.toNat + 32 := toNat_add_ofNat (n := 32) hr.room
  refine .inl ⟨_, tokenEWrite_of_some he hx hend.ge hr.room, ?_⟩
  rw [replaced_at_end hend]
  exact ⟨rfl, rfl, hoff, List.prefix_append .., fun _ => (show _ = s.op.off.toNat + 32 by simp [hend]).trans hoff.symm⟩

theorem rE_progresses (hf : f = .reading) (hk : Expanded.rE.after s.known = some k) (hr : Ready f s 32) :
    Progresses f s k 32 (tokenERead P s) := by
  simp only [Expanded.after, Option.ite_none_left_eq_some, Option.some.injEq] at hk
  obtain ⟨hre, rfl⟩ := hk
  have hre : s.kRE = none := by simpa [State.known] using hre
  obtain ⟨x, hx⟩ := Option.isSome_iff_exists.mp hr.ctxT
  have hoff : (s.op.off + 32).toNat = s.op.off.toNat + 32 := toNat_add_ofNat (n := 32) hr.room
  exact .inl ⟨_, tokenERead_of_none hre hx (hr.span hf),
    ⟨rfl, rfl, hoff, List.prefix_rfl, fun h => by rw [hf] at h; cases h⟩⟩

theorem wS_progresses (hf : f = .writing) (hk : Expanded.wS.after s.known = some k) (hr : Ready f s 48) :
    Progresses f s k 48 (tokenSWrite P s) := by
  simp only [Expanded.after, Option.ite_none_right_eq_some, Option.some.injEq, Bool.and_eq_true] at hk
  obtain ⟨⟨hs, hkeyed⟩, rfl⟩ := hk
  obtain ⟨a, hs⟩ := Option.isSome_iff_exists.mp (hs : s.kS.isSome = true)
  obtain ⟨x, hx⟩ := Option.isSome_iff_exists.mp hr.ctxT
  have hend := hr.tail hf
  have hoff : (s.op.off + 48).toNat = s.op.off.toNat + 48 := toNat_add_ofNat (n := 48) hr.room
  refine .inl ⟨_, tokenSWrite_of_some hs hkeyed hx hend.ge hr.room, ?_⟩
  rw [replaced_at_end hend]
  exact ⟨rfl, rfl, hoff, List.prefix_append .., fun _ =>
    (show _ = s.op.off.toNat + 48 by simp [hend, P.spEncrypt_length]).trans hoff.symm⟩

theorem rS_progresses (hf : f = .reading) (hk : Expanded.rS.after s.known = some k) (hr : Ready f s 48) :
    Progresses f s k 48 (tokenSRead P s) := by
  simp only [Expanded.after, Option.ite_none_right_eq_some, Option.some.injEq, Bool.and_eq_true,
    Bool.not_eq_true'] at hk
  obtain ⟨⟨hrs, hkeyed⟩, rfl⟩ := hk
  have hrs : s.kRS = none := by simpa [State.known] using hrs
  obtain ⟨x, hx⟩ := Option.isSome_iff_exists.mp hr.ctxT
  have hoff : (s.op.off + 48).toNat = s.op.off.toNat + 48 := toNat_add_ofNat (n := 48) hr.room
  have hblk := length_take_drop_48 (hr.span hf)
  rw [tokenSRead_of_none hrs (hr.span hf), ssDecrypt_of_keyed hkeyed hx (by omega)]
  dsimp only
  split
  · exact .inl ⟨_, rfl, ⟨rfl, rfl, hoff, List.prefix_rfl, fun h => by rw [hf] at h; cases h⟩⟩
  · exact .inr ⟨_, _, rfl, .inr ⟨hf, rfl⟩⟩

theorem mix_progresses {kp : KpSlot} {pk : PkSlot} (hk : (Expanded.mix kp pk).after s.known = some k)
    (hr : Ready f s 0) : Progresses f s k 0 (mixDh P kp pk s) := by
  simp only [Expanded.after, Option.ite_none_right_eq_some, Option.some.injEq, Bool.and_eq_true] at hk
  obtain ⟨⟨hkp, hpk⟩, rfl⟩ := hk
  obtain ⟨a, ha⟩ := Option.isSome_iff_exists.mp ((kpVal_isSome s kp).trans hkp)
  obtain ⟨b, hb⟩ := Option.isSome_iff_exists.mp ((pkVal_isSome s pk).trans hpk)
  obtain ⟨x, hx⟩ := Option.isSome_iff_exists.mp hr.ctxT
  rw [mixDh_of_valid ha hb hx]
  split
  · exact .inl ⟨_, rfl, ⟨rfl, rfl, rfl, List.prefix_rfl, hr.tail⟩⟩
  · exact .inr ⟨_, _, rfl, .inl rfl⟩

theorem psk_progresses (hk : Expanded.psk.after s.known = some k) (hr : Ready f s 0) :
    Progresses f s k 0 (tokenPsk P s) := by
  simp only [Expanded.after, Option.ite_none_right_eq_some, Option.some.injEq] at hk
  obtain ⟨hpsk, rfl⟩ := hk
  obtain ⟨z, hz⟩ := Option.isSome_iff_exists.mp (hpsk : s.kPSK.isSome = true)
  obtain ⟨x, hx⟩ := Option.isSome_iff_exists.mp hr.ctxT
  rw [tokenPsk_of_some hz hx]
  exact .inl ⟨_, rfl, ⟨rfl, rfl, rfl, List.prefix_rfl, hr.tail⟩⟩

/-- An entry whose checks are met does what it makes known, or raises an error (R97 to R105). -/
theorem runExpanded_progresses {x : Expanded} (hf : x.runsIn f = true) (hk : x.after s.known = some k)
    (hr : Ready f s x.len) : Progresses f s k x.len (runExpanded P x s) := by
  cases x with
  | wE => exact wE_progresses (of_decide_eq_true hf) hk hr
  | rE => exact rE_progresses (of_decide_eq_true hf) hk hr
  | wS => exact wS_progresses (of_decide_eq_true hf) hk hr
  | rS => exact rS_progresses (of_decide_eq_true hf) hk hr
  | mix kp pk => exact mix_progresses hk hr
  | psk => exact psk_progresses hk hr

/-! ### A list of entries -/

/-- What a longer list needs, its first entry needs. -/
theorem Ready.mono {m : Nat} (h : Ready f s n) (hm : m ≤ n) : Ready f s m :=
  ⟨h.ctxT, by have := h.room; omega, h.tail, fun hf => by have := h.span hf; omega⟩

/-- What is needed of the rest of a list, once a first entry ended well. -/
theorem Ready.rest {u : State} {m : Nat} (h : Ready f s (m + n)) (hu : Advanced f s u k m) : Ready f u n := by
  have hoff := hu.off
  have hgrows := hu.grows.length_le
  refine ⟨hu.ctxT, by have := h.room; omega, hu.tail, fun hf => ?_⟩
  have := h.span hf
  omega

theorem Advanced.trans {u v : State} {l : Known} {m : Nat} (h : Advanced f s u k m) (h' : Advanced f u v l n) :
    Advanced f s v l (m + n) :=
  ⟨h'.known, h'.ctxT, by have := h.off; have := h'.off; omega, h.grows.trans h'.grows, h'.tail⟩

/-- A list whose entries' checks are met in order does what it makes known, or raises an error. -/
theorem runExpansion_progresses {xs : List Expanded} (hf : ∀ x ∈ xs, x.runsIn f = true)
    (hk : afterAll xs s.known = some k) (hr : Ready f s (lenAll xs)) :
    Progresses f s k (lenAll xs) (runExpansion P xs s) := by
  induction xs generalizing s with
  | nil =>
    cases hk
    exact .inl ⟨s, rfl, ⟨rfl, hr.ctxT, rfl, List.prefix_rfl, hr.tail⟩⟩
  | cons x xs ih =>
    obtain ⟨l, hl, hrest⟩ := Option.bind_eq_some_iff.mp hk
    have hlen : lenAll (x :: xs) = x.len + lenAll xs := rfl
    rw [hlen] at hr ⊢
    rw [runExpansion]
    rcases runExpanded_progresses (P := P) (hf x (List.mem_cons_self ..)) hl (hr.mono (Nat.le_add_right ..))
      with ⟨u, hu, hadv⟩ | ⟨e, u, hu, he⟩
    · rw [hu, Res.bind_ok]
      have hrun := ih (fun y hy => hf y (List.mem_cons_of_mem x hy)) (hadv.known ▸ hrest) (hr.rest hadv)
      rcases hrun with ⟨v, hv, hadv'⟩ | herr
      · exact .inl ⟨v, hv, hadv.trans hadv'⟩
      · exact .inr herr
    · rw [hu, Res.bind_err]
      exact .inr ⟨e, u, rfl, he⟩

end

/-! ### The invariant and what is known -/

section
variable {s : State}

/-- `slotsValid` slot by slot (R94). -/
theorem slotsValid_iff {ks : List Slot} : slotsValid ks s = true ↔ ∀ k ∈ ks, (s.slotVal k).isSome = true :=
  List.all_eq_true

/-- An own slot of an active handshake is valid exactly when the pattern needs it (R94, R95). -/
theorem State.Holds.own (h : s.Holds) {k : Slot} (hk : k ∈ [Slot.S, .E, .PSK]) :
    (s.slotVal k).isSome = decide (k ∈ need s.pattern s.role) := by
  by_cases hn : k ∈ need s.pattern s.role
  · rw [slotsValid_iff.mp h.slots k hn, decide_eq_true hn]
  · rw [h.unneeded k hk hn, decide_eq_false hn]
    rfl

/-- What an active handshake knows (R94, R107). -/
theorem State.Holds.known (h : s.Holds) : s.known = knownAt s.pattern s.role s.seq.toNat := by
  rw [knownAt, ← h.own (k := .S) (by simp), ← h.own (k := .E) (by simp), ← h.own (k := .PSK) (by simp), ← h.remoteE,
    ← h.remoteS, ← h.keyed]
  rfl

/-- An active handshake that knows what its progress gives it, with its message data, holds what it should. -/
theorem holds_of_known (h : s.known = knownAt s.pattern s.role s.seq.toNat)
    (hcur : s.msgcur = decide (0 < s.seq.toNat))
    (hlastw : 0 < s.seq.toNat → s.lastw = decide (writerOf (s.seq.toNat - 1) = s.role))
    (hoff : 0 < s.seq.toNat → s.off.toNat = fixedLen (rom s.pattern (s.seq.toNat - 1))) : s.Holds := by
  simp only [State.known, knownAt, Known.mk.injEq] at h
  obtain ⟨hS, hE, hRS, hRE, hPSK, hkeyed⟩ := h
  refine ⟨slotsValid_iff.mpr fun k hk => ?_, fun k hk hn => ?_, hRE, hRS, hkeyed, hcur, hlastw, hoff⟩
  · cases k with
    | S => exact hS.trans (decide_eq_true hk)
    | E => exact hE.trans (decide_eq_true hk)
    | RS => exact hRS.trans (by rw [List.contains_iff_mem.mpr hk, Bool.true_or])
    | RE => exact absurd hk (RE_not_mem_need _ _)
    | PSK => exact hPSK.trans (decide_eq_true hk)
  · have hnone : (s.slotVal k).isSome = false := by
      simp only [List.mem_cons, List.not_mem_nil, or_false] at hk
      rcases hk with rfl | rfl | rfl
      · exact hS.trans (decide_eq_false hn)
      · exact hE.trans (decide_eq_false hn)
      · exact hPSK.trans (decide_eq_false hn)
    simpa using hnone

/-! ### A message in turn -/

/-- The fixed fields fit into MSG (R139). -/
theorem fixedAndKeyed_le {p : Pattern} {k : Nat} : (fixedAndKeyed p k).1 ≤ 80 := by
  unfold fixedAndKeyed
  split <;> decide

section
variable {P : Params} (hctx : s.ctxT.isSome = true) (hknown : s.known = knownAt s.pattern s.role s.seq.toNat)
  (hk : s.seq.toNat < s.pattern.nmsgs)
include hctx hknown hk

/-- The tokens of HS_WRITE in turn, from a state that knows what its progress gives it (R117). -/
theorem write_progresses (hw : writerOf s.seq.toNat = s.role) :
    Progresses .writing (hsWriteStart s) (knownAt s.pattern s.role (s.seq.toNat + 1))
      (fixedAndKeyed s.pattern s.seq.toNat).1 (runTokens P (rom s.pattern s.seq.toNat) (hsWriteStart s)) := by
  have hform : formOf s.seq.toNat s.role = .writing := if_pos hw
  have hafter := afterAll_expansion hk s.role
  have hroom : (fixedAndKeyed s.pattern s.seq.toNat).1 ≤ 80 := fixedAndKeyed_le
  rw [← hknown] at hafter
  rw [runTokens_rom (s := hsWriteStart s) hk hform.symm, ← lenAll_expansion hk s.role]
  refine runExpansion_progresses (hform ▸ runsIn_expansion hk s.role) hafter ⟨hctx, ?_, fun _ => rfl, by nofun⟩
  rw [lenAll_expansion hk]
  exact Nat.le_trans (Nat.add_le_add_left hroom 0) (by decide)

/-- The tokens of HS_READ in turn, from a state that knows what its progress gives it (R118). -/
theorem read_progresses (hw : writerOf s.seq.toNat ≠ s.role)
    (hl : (fixedAndKeyed s.pattern s.seq.toNat).1 ≤ s.msg.length) :
    Progresses .reading (hsReadStart s) (knownAt s.pattern s.role (s.seq.toNat + 1))
      (fixedAndKeyed s.pattern s.seq.toNat).1 (runTokens P (rom s.pattern s.seq.toNat) (hsReadStart s)) := by
  have hform : formOf s.seq.toNat s.role = .reading := if_neg hw
  have hafter := afterAll_expansion hk s.role
  have hroom : (fixedAndKeyed s.pattern s.seq.toNat).1 ≤ 80 := fixedAndKeyed_le
  rw [← hknown] at hafter
  rw [runTokens_rom (s := hsReadStart s) hk hform.symm, ← lenAll_expansion hk s.role]
  refine runExpansion_progresses (hform ▸ runsIn_expansion hk s.role) hafter ⟨hctx, ?_, by nofun, fun _ => ?_⟩
  · rw [lenAll_expansion hk]
    exact Nat.le_trans (Nat.add_le_add_left hroom 0) (by decide)
  · rw [lenAll_expansion hk]
    exact (Nat.zero_add _).trans_le hl

end

end

end Sys2Proof.Machine
end

section
/-! PROOFS. HS_WRITE and HS_READ in turn in a host-driven machine (O31, O33), the results of the commands (O16), and the
step of the host-driven invariant (O26). -/

namespace Sys2Proof.Machine

/-! ### Which token writes which remote key -/

section
variable (P : Params) (s : State)

theorem tokenE_kRS : (tokenE P s).state.kRS = s.kRS := by
  unfold tokenE
  split
  · exact congrArg Prod.fst (tokenEWrite_remoteKeys P s)
  · exact Res.bind_frame (E := State.kRS) (by rw [require_state]) fun _ u _ =>
      Res.bind_frame (E := State.kRS) (s := u)
        ((congrArg Prod.fst (remoteKeys_of_mixer (ssMixhash_frame ..))).trans rfl) fun _ _ _ => rfl

theorem tokenS_kRE : (tokenS P s).state.kRE = s.kRE := by
  unfold tokenS
  split
  · exact congrArg Prod.snd (tokenSWrite_remoteKeys P s)
  · exact Res.bind_frame (E := State.kRE) (by rw [require_state]) fun _ u _ =>
      Res.bind_frame (E := State.kRE) (s := u)
        ((congrArg Prod.snd (remoteKeys_of_mixer (ssDecrypt_frame ..))).trans rfl) fun _ _ _ => rfl

theorem runToken_kRE {t : Token} (ht : t ≠ .e) : (runToken P t s).state.kRE = s.kRE := by
  by_cases hs : t = .s
  · rw [hs]
    exact tokenS_kRE P s
  · exact (congrArg State.kRE (runToken_mixFrame P s ht hs) :
      (eraseMixWrites (runToken P t s).state).kRE = (eraseMixWrites s).kRE)

theorem runToken_kRS {t : Token} (ht : t ≠ .s) : (runToken P t s).state.kRS = s.kRS := by
  by_cases he : t = .e
  · rw [he]
    exact tokenE_kRS P s
  · exact (congrArg State.kRS (runToken_mixFrame P s he ht) :
      (eraseMixWrites (runToken P t s).state).kRS = (eraseMixWrites s).kRS)

/-- Only token E writes K.RE (R98). -/
theorem runTokens_kRE {ts : List Token} (ht : .e ∉ ts) : (runTokens P ts s).state.kRE = s.kRE := by
  induction ts generalizing s with
  | nil => rfl
  | cons t rest ih =>
    have hne := List.ne_of_not_mem_cons ht
    have hrest := List.not_mem_of_not_mem_cons ht
    exact Res.bind_frame (E := State.kRE) (runToken_kRE P s hne.symm) fun _ u _ => ih u hrest

/-- Only token S writes K.RS (R100). -/
theorem runTokens_kRS {ts : List Token} (ht : .s ∉ ts) : (runTokens P ts s).state.kRS = s.kRS := by
  induction ts generalizing s with
  | nil => rfl
  | cons t rest ih =>
    have hne := List.ne_of_not_mem_cons ht
    have hrest := List.not_mem_of_not_mem_cons ht
    exact Res.bind_frame (E := State.kRS) (runToken_kRS P s hne.symm) fun _ u _ => ih u hrest

end

/-- A token E stands first in its message, and once (R107). -/
theorem rom_eq_cons_of_e_mem {p : Pattern} {k : Nat} (h : .e ∈ rom p k) :
    rom p k = .e :: (rom p k).tail ∧ .e ∉ (rom p k).tail := by
  unfold rom at h ⊢
  split at h <;> first | exact ⟨rfl, by decide⟩ | exact absurd h (by decide)

/-- The reading form takes K.RE from the first 32 bytes, however the message ends (R98). -/
theorem runTokens_takes_kRE {P : Params} {s : State} {p : Pattern} {k : Nat} (he : .e ∈ rom p k)
    (hform : s.op.form = .reading) (h0 : s.op.off = 0) (hnone : s.kRE = none) (hctx : s.ctxT.isSome = true)
    (hl : 32 ≤ s.msg.length) :
    (runTokens P (rom p k) s).state.kRE = some (keyOfBytes (s.msg.take 32)) := by
  obtain ⟨hcons, hrest⟩ := rom_eq_cons_of_e_mem he
  obtain ⟨x, hx⟩ := Option.isSome_iff_exists.mp hctx
  have hread := tokenERead_of_none (P := P) hnone hx (by rw [h0]; simpa using hl)
  rw [h0] at hread
  rw [hcons, runTokens, runToken, tokenE, hform]
  dsimp only
  rw [hread, Res.bind_ok, runTokens_kRE P _ hrest]
  rfl

/-- The writing form of a message that starts with E puts the public key first (R97). -/
theorem expansion_head_of_e {p : Pattern} {k : Nat} (h : (rom p k).head? = some .e) :
    (expansion p k (writerOf k)).head? = some .wE := by
  unfold rom at h
  split at h <;> first | rfl | cases h

section
variable {P : Params} {f : Form} {s u : State} {k : Known} {x : Expanded} {xs : List Expanded}

/-- What the first entry of a list put into MSG stays there. -/
theorem head_prefix (hf : ∀ y ∈ x :: xs, y.runsIn f = true) (hk : afterAll (x :: xs) s.known = some k)
    (hr : Ready f s (lenAll (x :: xs))) (h : runExpansion P (x :: xs) s = .ok () u) :
    ∃ v, runExpanded P x s = .ok () v ∧ v.msg <+: u.msg := by
  obtain ⟨_, v, hv, hrest⟩ := Res.bind_eq_ok.mp h
  obtain ⟨l, hl, hafter⟩ := Option.bind_eq_some_iff.mp hk
  have hlen : lenAll (x :: xs) = x.len + lenAll xs := rfl
  rw [hlen] at hr
  refine ⟨v, hv, ?_⟩
  have hadv := (runExpanded_progresses (P := P) (hf x (List.mem_cons_self ..)) hl
    (hr.mono (Nat.le_add_right ..))).advanced_of_ok hv
  exact ((runExpansion_progresses (P := P) (fun y hy => hf y (List.mem_cons_of_mem x hy)) (hadv.known ▸ hafter)
    (hr.rest hadv)).advanced_of_ok hrest).grows

end

/-! ### HS_WRITE in turn (O31) -/

section
variable {s u : State} (hp : s.phase = .active) (hk : s.seq.toNat < s.pattern.nmsgs)

section
variable (hw : writerOf s.seq.toNat = s.role)
include hp hk hw

theorem hsWrite_of_ok {P : Params} (h : runTokens P (rom s.pattern s.seq.toNat) (hsWriteStart s) = .ok () u) :
    hsWrite P s = .ok () (hsWriteEnd u) := by
  rw [hsWrite_in_turn hp hk hw, h]
  rfl

theorem hsWrite_of_err {P : Params} {e : RtErr}
    (h : runTokens P (rom s.pattern s.seq.toNat) (hsWriteStart s) = .err e u) :
    hsWrite P s = .err e (hsFail true u) := by
  rw [hsWrite_in_turn hp hk hw, h]
  rfl

end

section
variable (hw : writerOf s.seq.toNat ≠ s.role) (hl : fixedLen (rom s.pattern s.seq.toNat) ≤ s.msg.length)
include hp hk hw hl

theorem hsRead_of_ok {P : Params} (h : runTokens P (rom s.pattern s.seq.toNat) (hsReadStart s) = .ok () u) :
    hsRead P s = .ok () (hsReadEnd u) := by
  rw [hsRead_in_turn hp hk hw hl, h]
  rfl

theorem hsRead_of_err {P : Params} {e : RtErr}
    (h : runTokens P (rom s.pattern s.seq.toNat) (hsReadStart s) = .err e u) :
    hsRead P s = .err e (hsFail false u) := by
  rw [hsRead_in_turn hp hk hw hl, h]
  rfl

end

end

/-- The public key that a message starting with E begins with (R97). -/
theorem write_starts_with_key {P : Params} {s u : State} {e : Key} (hctx : s.ctxT.isSome = true)
    (hknown : s.known = knownAt s.pattern s.role s.seq.toNat) (hk : s.seq.toNat < s.pattern.nmsgs)
    (hw : writerOf s.seq.toNat = s.role) (he : s.kE = some e) (hhead : (rom s.pattern s.seq.toNat).head? = some .e)
    (h : runTokens P (rom s.pattern s.seq.toNat) (hsWriteStart s) = .ok () u) :
    u.msg.take 32 = (P.dhPub e).toList := by
  have hform : formOf s.seq.toNat s.role = .writing := if_pos hw
  have hafter := afterAll_expansion hk s.role
  rw [← hknown] at hafter
  have hruns := runsIn_expansion hk s.role
  have hlen := lenAll_expansion hk s.role
  have hle := fixedAndKeyed_le (p := s.pattern) (k := s.seq.toNat)
  obtain ⟨xs, hxs⟩ := List.head?_eq_some_iff.mp (hw ▸ expansion_head_of_e hhead)
  rw [runTokens_rom (s := hsWriteStart s) hk hform.symm] at h
  rw [show (hsWriteStart s).role = s.role from rfl] at h
  rw [hform] at hruns
  rw [hxs] at h hafter hruns hlen
  obtain ⟨x, hx⟩ := Option.isSome_iff_exists.mp hctx
  obtain ⟨v, hv, hpre⟩ := head_prefix (s := hsWriteStart s) hruns hafter
    ⟨hctx, by rw [hlen]; exact Nat.le_trans (Nat.add_le_add_left hle 0) (by decide), fun _ => rfl, by nofun⟩ h
  rw [runExpanded, tokenEWrite_of_some (s := hsWriteStart s) he hx (Nat.zero_le _)
    (by decide : (0 : BitVec 16).toNat + 32 ≤ 65535)] at hv
  cases hv
  have hpk : (P.dhPub e).toList <+: u.msg := by simpa [hsWriteStart] using hpre
  rw [List.prefix_iff_eq_take, Vector.length_toList] at hpk
  exact hpk.symm

/-- Settles O31: `write_progresses` leaves a message of the fixed length or DHFailure; the rest is what the tokens leave
alone. -/
theorem hsWriteInTurnGivesTheMessage : Obligations.HsWriteInTurnGivesTheMessage := by
  intro s hinv hgood hp hk hw
  have hctx := hinv.consistent.active_ctxT hp hgood
  have hknown := (hinv.handshake hp hgood).known
  have hseq := seq_add_one hk
  rcases write_progresses (P := Config.params) hctx hknown hk hw with ⟨u, hu, hadv⟩ | ⟨e, u, hu, he⟩
  · obtain ⟨hmessage, hremote⟩ := write_run_keeps hu
    have hseqU : u.seq = s.seq + 1 := frame_of_run (E := State.seq) (fun _ => rfl) hu _ rfl
    simp only [messageKeeps, hostPart, transportPart, ownPart, remoteKeys, Res.state_ok, Prod.mk.injEq] at hmessage hremote
    obtain ⟨⟨hfatal, hcv, hp0, hp1, had, hin⟩, hdigest, htransport, hdat, hkS, hkE, hkPSK, hphase, hrole, hpattern, hoff,
      hcur, hlastw, hpay⟩ := hmessage
    have hoffU : u.op.off.toNat = (fixedAndKeyed s.pattern s.seq.toNat).1 := hadv.off.trans (Nat.zero_add _)
    have hmsgU : u.msg.take u.op.off.toNat = u.msg := List.take_of_length_le (hadv.tail rfl).le
    refine ⟨_, exec_of_command_ok rfl (by nofun) hgood (hsWrite_of_ok hp hk hw hu) rfl, hfatal.trans hgood, ?_, hrole,
      hpattern, hremote.1, hremote.2, htransport, ⟨hp0, hp1, had⟩, hdigest,
      ⟨rfl, rfl, rfl, rfl, rfl, rfl, rfl, rfl, rfl, rfl, rfl, rfl, rfl⟩,
      .inl ⟨rfl, hphase.trans hp, rfl, rfl, rfl, hoffU, ?_, ?_, fun e he hhead => ?_, hkS, hkE, hkPSK, fun a => ?_⟩⟩
    · exact (congrArg BitVec.toNat hseqU).trans hseq
    · show (u.msg.take u.op.off.toNat).length = _
      rw [hmsgU, hadv.tail rfl, hoffU]
    · exact (congrArg Known.keyed hadv.known).trans (keyedBefore_succ_rom hk)
    · show (u.msg.take u.op.off.toNat).take 32 = _
      rw [hmsgU]
      exact write_starts_with_key hctx hknown hk hw he hhead hu
    · show u.dat[a]? = s.dat[a]?
      rw [hdat]
  · obtain rfl : e = .dhFailure := he.resolve_right fun h => by cases h.1
    obtain ⟨hmessage, hremote⟩ := write_run_keeps hu
    have hseqU : u.seq = s.seq + 1 := frame_of_run (E := State.seq) (fun _ => rfl) hu _ rfl
    simp only [messageKeeps, hostPart, transportPart, ownPart, remoteKeys, Res.state_err, Prod.mk.injEq] at hmessage hremote
    obtain ⟨⟨hfatal, hcv, hp0, hp1, had, hin⟩, hdigest, htransport, hdat, hkS, hkE, hkPSK, hphase, hrole, hpattern, hoff,
      hcur, hlastw, hpay⟩ := hmessage
    refine ⟨_, exec_of_command_err rfl (by nofun) hgood (hsWrite_of_err hp hk hw hu) rfl, hfatal.trans hgood, ?_, hrole,
      hpattern, hremote.1, hremote.2, htransport, ⟨hp0, hp1, had⟩, hdigest,
      ⟨rfl, rfl, rfl, rfl, rfl, rfl, rfl, rfl, rfl, rfl, rfl, rfl, rfl⟩,
      .inr ⟨rfl, rfl, rfl, rfl, rfl, rfl, ⟨rfl, rfl, rfl⟩, hoff, hcur, hlastw, hpay⟩⟩
    exact (congrArg BitVec.toNat hseqU).trans hseq

/-! ### HS_READ in turn (O33) -/

/-- What a side has received after one more message (R107). -/
theorem receivedBefore_succ (p : Pattern) (r : Role) (k : Nat) (t : Token) :
    receivedBefore p r (k + 1) t = (receivedBefore p r k t || (decide (writerOf k ≠ r) && (rom p k).contains t)) := by
  simp [receivedBefore, List.range_succ]

/-- No side receives E twice (R107 to R116). -/
theorem not_receivedBefore_e {p : Pattern} {r : Role} {k : Nat} (hk : k < p.nmsgs) (hw : writerOf k ≠ r)
    (h : .e ∈ rom p k) : receivedBefore p r k .e = false := by
  have hk3 : k < 3 := Nat.lt_of_lt_of_le hk (by cases p <;> decide)
  revert hk hw h
  interval_cases k <;> cases p <;> cases r <;> decide

/-- A message with E has at least its 32 bytes (R118). -/
theorem le_fixedLen_of_e_mem {ts : List Token} (h : .e ∈ ts) : 32 ≤ fixedLen ts := by
  have hcount : 0 < ts.count .e := List.count_pos_iff.mpr h
  simp only [fixedLen, Config.keyLen]
  omega

/-- The remote keys after the tokens of HS_READ in a host-driven machine, however they end (R98, R100). -/
theorem read_run_keys {P : Params} {s : State} {r : Res Unit} (hctx : s.ctxT.isSome = true) (hholds : s.Holds)
    (hk : s.seq.toNat < s.pattern.nmsgs) (hw : writerOf s.seq.toNat ≠ s.role)
    (hl : fixedLen (rom s.pattern s.seq.toNat) ≤ s.msg.length)
    (h : runTokens P (rom s.pattern s.seq.toNat) (hsReadStart s) = r) :
    (Token.e ∉ rom s.pattern s.seq.toNat → r.state.kRE = s.kRE)
      ∧ (Token.e ∈ rom s.pattern s.seq.toNat → r.state.kRE = some (keyOfBytes (s.msg.take 32)))
      ∧ (Token.s ∉ rom s.pattern s.seq.toNat → r.state.kRS = s.kRS) := by
  subst h
  refine ⟨runTokens_kRE P _, fun he => ?_, runTokens_kRS P _⟩
  have hnone : s.kRE = none := by
    have hre := hholds.remoteE.trans (not_receivedBefore_e hk hw he)
    simpa using hre
  exact runTokens_takes_kRE (s := hsReadStart s) he rfl rfl hnone hctx (Nat.le_trans (le_fixedLen_of_e_mem he) hl)

/-- Settles O33: `read_progresses` leaves the remote keys of the message or an error; what else the tokens write is
`read_run_keys`, and what they leave alone `read_run_keeps`. -/
theorem hsReadInTurnTakesTheMessage : Obligations.HsReadInTurnTakesTheMessage := by
  intro s hinv hgood hp hk hw hlen
  have hctx := hinv.consistent.active_ctxT hp hgood
  have hholds := hinv.handshake hp hgood
  have hseq := seq_add_one hk
  have hl : fixedLen (rom s.pattern s.seq.toNat) ≤ s.msg.length := (fixedLen_rom hk).trans_le hlen
  rcases read_progresses (P := Config.params) hctx hholds.known hk hw hlen with ⟨u, hu, hadv⟩ | ⟨e, u, hu, he⟩
  · obtain ⟨hmessage, hmsg⟩ := read_run_keeps hu
    have hseqU : u.seq = s.seq + 1 := frame_of_run (E := State.seq) (fun _ => rfl) hu _ rfl
    obtain ⟨hkeepRE, htakeRE, hkeepRS⟩ := read_run_keys hctx hholds hk hw hl hu
    simp only [messageKeeps, hostPart, transportPart, ownPart, Res.state_ok, Prod.mk.injEq] at hmessage hmsg
    obtain ⟨⟨hfatal, hcv, hp0, hp1, had, hin⟩, hdigest, htransport, hdat, hkS, hkE, hkPSK, hphase, hrole, hpattern, hoff,
      hcur, hlastw, hpay⟩ := hmessage
    refine ⟨_, exec_of_command_ok rfl (by nofun) hgood (hsRead_of_ok hp hk hw hl hu) rfl, hfatal.trans hgood, ?_, hrole,
      hpattern, fun a => ?_, htransport, ⟨hp0, hp1, had⟩, hdigest,
      ⟨rfl, rfl, rfl, rfl, rfl, rfl, rfl, rfl, rfl, rfl, rfl, rfl, rfl⟩, hkeepRE, htakeRE, hkeepRS,
      .inl ⟨rfl, hphase.trans hp, rfl, rfl, rfl, hadv.off.trans (Nat.zero_add _), ?_, fun hs => ?_, hkS, hkE, hkPSK,
        fun a => ?_⟩⟩
    · exact (congrArg BitVec.toNat hseqU).trans hseq
    · show u.msg[a]? = s.msg[a]?
      rw [hmsg]
    · exact (congrArg Known.keyed hadv.known).trans (keyedBefore_succ_rom hk)
    · have hrs : u.kRS.isSome = _ := congrArg Known.rs hadv.known
      refine hrs.trans ?_
      simp [knownAt, receivedBefore_succ, hw, hs]
    · show u.dat[a]? = s.dat[a]?
      rw [hdat]
  · obtain ⟨hmessage, hmsg⟩ := read_run_keeps hu
    have hseqU : u.seq = s.seq + 1 := frame_of_run (E := State.seq) (fun _ => rfl) hu _ rfl
    obtain ⟨hkeepRE, htakeRE, hkeepRS⟩ := read_run_keys hctx hholds hk hw hl hu
    simp only [messageKeeps, hostPart, transportPart, ownPart, Res.state_err, Prod.mk.injEq] at hmessage hmsg
    obtain ⟨⟨hfatal, hcv, hp0, hp1, had, hin⟩, hdigest, htransport, hdat, hkS, hkE, hkPSK, hphase, hrole, hpattern, hoff,
      hcur, hlastw, hpay⟩ := hmessage
    refine ⟨_, exec_of_command_err rfl (by nofun) hgood (hsRead_of_err hp hk hw hl hu) rfl, hfatal.trans hgood, ?_, hrole,
      hpattern, fun a => ?_, htransport, ⟨hp0, hp1, had⟩, hdigest,
      ⟨rfl, rfl, rfl, rfl, rfl, rfl, rfl, rfl, rfl, rfl, rfl, rfl, rfl⟩, hkeepRE, htakeRE, hkeepRS,
      .inr ⟨?_, rfl, rfl, rfl, rfl, ⟨rfl, rfl, rfl⟩⟩⟩
    · exact (congrArg BitVec.toNat hseqU).trans hseq
    · show u.msg[a]? = s.msg[a]?
      rw [hmsg]
    · rcases he with rfl | ⟨-, rfl⟩
      · exact .inr rfl
      · exact .inl rfl

/-! ### Results of the commands (O16) -/

/-- In a host-driven machine a message never ends in a violation. -/
theorem message_no_viol {P : Params} {s : State} (hinv : s.Inv) (hgood : s.fatal = false) (hp : s.phase = .active)
    (hk : s.seq.toNat < s.pattern.nmsgs) {start : State}
    (hstart : (start = hsWriteStart s ∧ writerOf s.seq.toNat = s.role)
      ∨ (start = hsReadStart s ∧ writerOf s.seq.toNat ≠ s.role
        ∧ fixedLen (rom s.pattern s.seq.toNat) ≤ s.msg.length)) (c : Cause) (u : State) :
    runTokens P (rom s.pattern s.seq.toNat) start ≠ .viol c u := by
  intro h
  have hctx := hinv.consistent.active_ctxT hp hgood
  have hknown := (hinv.handshake hp hgood).known
  rcases hstart with ⟨rfl, hw⟩ | ⟨rfl, hw, hl⟩
  · rcases write_progresses (P := P) hctx hknown hk hw with ⟨u, hu, -⟩ | ⟨e, u, hu, -⟩ <;> rw [hu] at h <;> cases h
  · rcases read_progresses (P := P) hctx hknown hk hw ((fixedLen_rom hk).ge.trans hl) with ⟨u, hu, -⟩ | ⟨e, u, hu, -⟩ <;>
      rw [hu] at h <;> cases h

/-- Every command can end OK (R151). -/
theorem mayEnd_ok (i : Instr) : mayEnd i .ok .none = true := by cases i <;> rfl

/-- A runtime error that ends a command is one that the table gives it (R151). -/
theorem mayEnd_of_err {P : Params} {s u : State} {i : Instr} {e : RtErr} (h : CommandEnd P s i (.err e u)) :
    mayEnd i e.toErr .none = true := by
  cases h with
  | writeFailed hp hk hw h =>
    obtain rfl := (runTokens_onlyDhFailure P _ rfl).of_err _ _ h
    rfl
  | readFailed hp hk hw hl h => cases e <;> rfl
  | _ => rfl

/-- A violation that ends a command of a host-driven machine is one that the table gives it (R151): a message's tokens
violate nothing. -/
theorem mayEnd_of_viol {P : Params} {s u : State} {i : Instr} {c : Cause} (hinv : s.Inv) (hgood : s.fatal = false)
    (hwf : i.wf = true) (h : CommandEnd P s i (.viol c u)) : mayEnd i .contractViolation c = true := by
  cases h with
  | refused hc => exact hc.2 hinv.consistent hwf
  | rekeyHalf hc => exact hc.2 hinv.consistent hwf
  | writeViolated hp hk hw h => exact absurd h (message_no_viol hinv hgood hp hk (.inl ⟨rfl, hw⟩) _ _)
  | readViolated hp hk hw hl h => exact absurd h (message_no_viol hinv hgood hp hk (.inr ⟨rfl, hw, hl⟩) _ _)

/-- Settles O16: a command ends OK, with an error or in a violation, and CV stays 0 unless in a violation. -/
theorem commandsEndOnlyAsTabled : Obligations.CommandsEndOnlyAsTabled := by
  intro i s t hinv hgood hf hwf he
  by_cases hr : i = .reset
  · subst hr
    cases he
    rfl
  rw [exec_command_good hf hr hgood] at he
  cases he
  have hend := commandBody_ends (P := Config.params) (s := s) hf hr
  have hcv : (commandBody Config.params i s).state.cv = .none :=
    (congrArg (fun h => h.2.1) hend.hostPart).trans (hinv.consistent.steady hgood).cv
  generalize commandBody Config.params i s = r at hend hcv ⊢
  cases r with
  | ok a u =>
    show mayEnd i .ok u.cv = true
    rw [show u.cv = .none from hcv]
    exact mayEnd_ok i
  | err e u =>
    show mayEnd i e.toErr u.cv = true
    rw [show u.cv = .none from hcv]
    exact mayEnd_of_err hend
  | viol c u => exact mayEnd_of_viol hinv hgood hwf hend

/-! ### The host-driven invariant (O26) -/

/-- The handshake a machine holds depends on its handshake control, its slots and SS.KEYED alone. -/
theorem State.Holds.congr {s t : State} (h : s.Holds) (hknown : t.known = s.known)
    (hcontrol : (t.role, t.pattern, t.seq, t.off, t.msgcur, t.lastw) = (s.role, s.pattern, s.seq, s.off, s.msgcur, s.lastw)) :
    t.Holds := by
  simp only [Prod.mk.injEq] at hcontrol
  obtain ⟨hrole, hpattern, hseq, hoff, hcur, hlastw⟩ := hcontrol
  refine holds_of_known ?_ ?_ ?_ ?_ <;> rw [hseq]
  · rw [hknown, hrole, hpattern, h.known]
  · rw [hcur, h.msgcur]
  · rw [hlastw, hrole]
    exact h.lastw
  · rw [hoff, hpattern]
    exact h.off

/-- A slot kept by HS_INIT is valid exactly when the pattern needs it (R95). -/
theorem keepSlot_isSome {s : State} {ks : List Slot} (h : slotsValid ks s = true) (k : Slot) :
    (keepSlot ks k (s.slotVal k)).isSome = decide (k ∈ ks) := by
  rw [keepSlot_eq]
  split
  · rw [slotsValid_iff.mp h k ‹_›, decide_eq_true ‹_›]
  · rw [decide_eq_false ‹_›]
    rfl

/-- After HS_INIT an active handshake holds what the pattern needs (R94, R95). -/
theorem init_holds {s : State} {p : Pattern} {role : Role} {x : Sponge} (hneed : slotsValid (need p role) s = true) :
    State.Holds { hsInitControl p role s with ctxT := some x, keyed := false, phase := .active } := by
  have hkeep := keepSlot_isSome hneed
  have hRE := (hkeep .RE).trans (decide_eq_false (RE_not_mem_need p role))
  have hRS := (hkeep .RS).trans (List.contains_eq_mem Slot.RS (need p role)).symm
  refine holds_of_known ?_ rfl (fun h => absurd h (Nat.lt_irrefl 0)) fun h => absurd h (Nat.lt_irrefl 0)
  show State.known _ = knownAt p role 0
  simp only [knownAt, receivedBefore, keyedBefore, List.range_zero, List.any_nil, Bool.or_false]
  rw [← hRS, ← hkeep .S, ← hkeep .E, ← hkeep .PSK, Known.mk.injEq]
  exact ⟨rfl, rfl, rfl, hRE, rfl, rfl⟩

/-- After message k an active handshake holds what the message gave it (R107, R117, R118). -/
theorem message_holds {s t : State} (hk : s.seq.toNat < s.pattern.nmsgs)
    (hknown : t.known = knownAt s.pattern s.role (s.seq.toNat + 1))
    (hcontrol : (t.role, t.pattern, t.seq) = (s.role, s.pattern, s.seq + 1)) (hcur : t.msgcur = true)
    (hlastw : t.lastw = decide (writerOf s.seq.toNat = s.role))
    (hoff : t.off.toNat = (fixedAndKeyed s.pattern s.seq.toNat).1) : t.Holds := by
  simp only [Prod.mk.injEq] at hcontrol
  obtain ⟨hrole, hpattern, hseq⟩ := hcontrol
  have hnext : t.seq.toNat = s.seq.toNat + 1 := by rw [hseq, seq_add_one hk]
  refine holds_of_known ?_ ?_ ?_ ?_ <;> rw [hnext]
  · rw [hknown, hrole, hpattern]
  · rw [hcur, decide_eq_true (Nat.succ_pos _)]
  · exact fun _ => by rw [hlastw, hrole, Nat.add_sub_cancel]
  · exact fun _ => by rw [hoff, hpattern, Nat.add_sub_cancel, fixedLen_rom hk]

section
variable {P : Params} {s u : State} (hinv : s.Inv) (hgood : s.fatal = false) (hp : s.phase = .active)
  (hk : s.seq.toNat < s.pattern.nmsgs)
include hinv hgood hp hk

theorem written_holds (hw : writerOf s.seq.toNat = s.role)
    (h : runTokens P (rom s.pattern s.seq.toNat) (hsWriteStart s) = .ok () u) : (hsWriteEnd u).Holds := by
  have hcontrol := frame_of_run (E := fun s => (s.role, s.pattern, s.seq)) (fun _ => rfl) h _ rfl
  have hadv := (write_progresses (P := P) (hinv.consistent.active_ctxT hp hgood) (hinv.handshake hp hgood).known hk
    hw).advanced_of_ok h
  exact message_holds hk hadv.known hcontrol rfl (decide_eq_true hw).symm (hadv.off.trans (Nat.zero_add _))

theorem read_holds (hw : writerOf s.seq.toNat ≠ s.role) (hl : fixedLen (rom s.pattern s.seq.toNat) ≤ s.msg.length)
    (h : runTokens P (rom s.pattern s.seq.toNat) (hsReadStart s) = .ok () u) : (hsReadEnd u).Holds := by
  have hcontrol := frame_of_run (E := fun s => (s.role, s.pattern, s.seq)) (fun _ => rfl) h _ rfl
  have hadv := (read_progresses (P := P) (hinv.consistent.active_ctxT hp hgood) (hinv.handshake hp hgood).known hk hw
    ((fixedLen_rom hk).ge.trans hl)).advanced_of_ok h
  exact message_holds hk hadv.known hcontrol rfl (decide_eq_false hw).symm (hadv.off.trans (Nat.zero_add _))

end

section
variable {s t : State} {i : Instr}

/-- Where a command leaves a handshake active, the handshake holds what its progress gives it. -/
theorem CommandEnd.holds {P : Params} {r : Res Unit} (h : CommandEnd P s i r) (hinv : s.Inv) (hgood : s.fatal = false)
    (hactive : (finishCommand r).phase = .active) (hnext : (finishCommand r).fatal = false) :
    (finishCommand r).Holds := by
  have hsame (hp : s.phase = .active) := hinv.handshake hp hgood
  cases h with
  | @init pat role p x hneed => exact (init_holds (x := x) hneed).congr rfl rfl
  | written hp hk hw h => exact (written_holds hinv hgood hp hk hw h).congr rfl rfl
  | read hp hk hw hl h => exact (read_holds hinv hgood hp hk hw hl h).congr rfl rfl
  | encpay hl => exact (hsame hactive).congr rfl rfl
  | decpay hl => exact (hsame hactive).congr rfl rfl
  | enc hn hl => exact (hsame hactive).congr rfl rfl
  | decShort => exact (hsame hactive).congr rfl rfl
  | decCorrupted => exact (hsame hactive).congr rfl rfl
  | dec hn hl => exact (hsame hactive).congr rfl rfl
  | rekeyS => exact (hsame hactive).congr rfl rfl
  | rekeyR => exact (hsame hactive).congr rfl rfl
  | rekey => exact (hsame hactive).congr rfl rfl
  | hash => exact (hsame hactive).congr rfl rfl
  | refused hc => cases hnext
  | writeViolated hp hk hw h => cases hnext
  | readViolated hp hk hw hl h => cases hnext
  | rekeyHalf hc => cases hnext
  | _ => cases hactive

theorem transientsClear_finishCommand (r : Res Unit) : (finishCommand r).transientsClear := by
  cases r <;> exact ⟨rfl, rfl, rfl, rfl, rfl, rfl, rfl, rfl, rfl, rfl, rfl, rfl, rfl⟩

theorem inbox_finishCommand (r : Res Unit) : (finishCommand r).inbox = r.state.inbox := by cases r <;> rfl

theorem refuseFatal_inv (hinv : s.Inv) (hfatal : s.fatal = true) : (refuseFatal s).Inv where
  consistent := refuseFatal_consistent hinv.consistent hfatal
  hostOnly := hinv.hostOnly
  transients := hinv.transients
  handshake := fun _ h => absurd (hfatal.symm.trans h) (by decide)

/-- Every command keeps the host-driven invariant. -/
theorem exec_inv (hinv : s.Inv) (hf : i.format = .H) (he : exec i s = .next t) : t.Inv := by
  have hconsistent := exec_consistent hinv.consistent he
  by_cases hr : i = .reset
  · subst hr
    cases he
    exact ⟨hconsistent, hinv.hostOnly, hostDrivenMachineStartsTracked.transients, fun h => by cases h⟩
  rcases Bool.eq_false_or_eq_true s.fatal with hfatal | hgood
  · rw [exec_of_fatal hfatal hr] at he
    cases he
    exact refuseFatal_inv hinv hfatal
  · rw [exec_command_good hf hr hgood] at he
    cases he
    have hend := commandBody_ends (P := Config.params) (s := s) hf hr
    have hinbox : (finishCommand (commandBody Config.params i s)).inbox = s.inbox :=
      (inbox_finishCommand _).trans (congrArg (fun h => h.2.2.2.2.2) hend.hostPart)
    refine ⟨hconsistent, ?_, transientsClear_finishCommand _, hend.holds hinv hgood⟩
    rw [State.hostOnly, hinbox]
    exact hinv.hostOnly

/-- An illegal word keeps the host-driven invariant (R64, R148). -/
theorem illegalCommand_inv (hinv : s.Inv) : (illegalCommand s).Inv := by
  rcases Bool.eq_false_or_eq_true s.fatal with hfatal | hgood
  · rw [illegalCommand_of_fatal hfatal]
    exact refuseFatal_inv hinv hfatal
  · have hconsistent := illegalCommand_consistent hinv.consistent
    rw [illegalCommand_of_good hgood] at hconsistent ⊢
    exact ⟨hconsistent, hinv.hostOnly, ⟨rfl, rfl, rfl, rfl, rfl, rfl, rfl, rfl, rfl, rfl, rfl, rfl, rfl⟩,
      fun _ h => by cases h⟩

/-- A host access keeps the host-driven invariant: the key slots are shut while a handshake is active (R26). -/
theorem HostAccessEnd.inv (h : HostAccessEnd s t) (hinv : s.Inv) : t.Inv := by
  have hconsistent := h.consistent hinv.consistent
  obtain ⟨-, hhost, htransients, hhandshake⟩ := hinv
  cases h with
  | p0 v => exact ⟨hconsistent, hhost, htransients, fun hp hg => (hhandshake hp hg).congr rfl rfl⟩
  | p1 v => exact ⟨hconsistent, hhost, htransients, fun hp hg => (hhandshake hp hg).congr rfl rfl⟩
  | ignored => exact ⟨hconsistent, hhost, htransients, hhandshake⟩
  | @buffer b v hv k =>
    cases b <;> exact ⟨hconsistent, hhost, htransients, fun hp hg => (hhandshake hp hg).congr rfl rfl⟩
  | @slot k v hp => cases k <;> exact ⟨hconsistent, hhost, htransients, fun h => absurd h hp⟩

/-- The command word of a host event, if it carries one. -/
theorem word_of_isHost {e : Event} (h : e.isHost = true) : e.word = none ∨ ∃ w, e.word = some (.H, bytesOfWord w) := by
  cases e with
  | cmd w => exact .inr ⟨w, rfl⟩
  | reg n v =>
    cases n with
    | zero => exact .inr ⟨v, rfl⟩
    | succ n => exact .inl rfl
  | load b data => exact .inl rfl
  | poke b a data => exact .inl rfl
  | slot k v => exact .inl rfl
  | issue f w o => cases h

end

/-- Settles O26: the next event is the host's; it is a command word, legal (`exec_inv`) or not, or another access. -/
theorem hostDrivenMachineStaysTracked : Obligations.HostDrivenMachineStaysTracked := by
  intro s t hinv h
  cases hin : s.inbox with
  | nil =>
    rw [idleHoldsAllState s hin] at h
    cases h
    exact hinv
  | cons e rest =>
    obtain ⟨hconsistent, hhost, htransients, hhandshake⟩ := hinv
    rw [State.hostOnly, hin, List.all_cons, Bool.and_eq_true] at hhost
    have hrest : State.Inv { s with inbox := rest } :=
      ⟨{ hconsistent with }, hhost.2, htransients, fun hp hg => (hhandshake hp hg).congr rfl rfl⟩
    rcases word_of_isHost hhost.1 with hw | ⟨w, hw⟩
    · rw [step_of_host_access hin hw] at h
      exact (performHost_ends hrest.consistent.memWf h).inv hrest
    · by_cases hdec : ∃ i, decodeCommand w = .ok i
      · obtain ⟨i, hi⟩ := hdec
        have hformat : i.format = .H := by
          rw [← encodeCommand_isSome, encodeCommand_of_decodeCommand hi, Option.isSome_some]
        rw [step_of_decoded hin hw hi] at h
        exact exec_inv hrest hformat h
      · rw [step_of_undecodable hin hw hdec] at h
        cases h
        exact illegalCommand_inv hrest

end Sys2Proof.Machine
end

section
/-! PROOFS. Two XCBs over one message (O39): entry by entry, what the writer puts into MSG the reader takes out of it, and
what each absorbs is equal. -/

namespace Sys2Proof.Machine

/-! ### The reader's entries -/

/-- The other side's name of a public key. -/
def PkSlot.own : PkSlot → KpSlot
  | .RS => .S
  | .RE => .E

/-- The other side's name of an own key pair. -/
def KpSlot.remote : KpSlot → PkSlot
  | .S => .RS
  | .E => .RE

/-- What the other side does at an entry of an expansion. -/
def Expanded.peer : Expanded → Expanded
  | .wE => .rE
  | .rE => .wE
  | .wS => .rS
  | .rS => .wS
  | .mix kp pk => .mix pk.own kp.remote
  | .psk => .psk

/-- The two sides of a message run peer entries (R108 to R116). -/
theorem expansion_peer {p : Pattern} {k : Nat} (hk : k < p.nmsgs) {r q : Role} (hne : r ≠ q) :
    expansion p k q = (expansion p k r).map Expanded.peer := by
  have hk3 : k < 3 := Nat.lt_of_lt_of_le hk (by cases p <;> decide)
  revert hk hne
  interval_cases k <;> cases p <;> cases r <;> cases q <;> decide

theorem Expanded.peer_len (x : Expanded) : x.peer.len = x.len := by cases x <;> rfl

/-- The peer of an entry that writes reads. -/
theorem Expanded.peer_runsIn {x : Expanded} (h : x.runsIn .writing = true) : x.peer.runsIn .reading = true := by
  cases x <;> first | rfl | cases h

/-! ### Two sides in the middle of a message -/

/-- Two sides in the middle of a message: equal transcripts and offsets, each with only public keys of the other. -/
structure Mirror (w r : State) : Prop where
  ctxT : w.ctxT = r.ctxT
  keyed : w.keyed = r.keyed
  psk : w.kPSK = r.kPSK
  ephemeral_w : holdsPublicOf r.kRE w.kE
  static_w : holdsPublicOf r.kRS w.kS
  ephemeral_r : holdsPublicOf w.kRE r.kE
  static_r : holdsPublicOf w.kRS r.kS
  off : w.op.off = r.op.off

section
variable {w r v : State} {k l : Known}

theorem Mirror.symm (h : Mirror w r) : Mirror r w :=
  ⟨h.ctxT.symm, h.keyed.symm, h.psk.symm, h.ephemeral_r, h.static_r, h.ephemeral_w, h.static_w, h.off.symm⟩

/-- What the writer holds of the reader is the reader's public key. -/
theorem Mirror.public_r (h : Mirror w r) (pk : PkSlot) : holdsPublicOf (w.pkVal pk) (r.kpVal pk.own) := by
  cases pk with
  | RS => exact h.static_r
  | RE => exact h.ephemeral_r

/-- What the reader holds of the writer is the writer's public key. -/
theorem Mirror.public_w (h : Mirror w r) (kp : KpSlot) : holdsPublicOf (r.pkVal kp.remote) (w.kpVal kp) := by
  cases kp with
  | S => exact h.static_w
  | E => exact h.ephemeral_w

/-- The public key of a key pair is held. -/
theorem holdsPublicOf_dhPub {e : Key} {own : Option Key} (h : own = some e) :
    holdsPublicOf (some (Config.params.dhPub e)) own := by
  intro v hv
  cases hv
  exact ⟨e, h, rfl⟩

/-- The field that a message holds after its first bytes. -/
theorem field_of_prefix {m b M : Bytes} {a n : Nat} (hm : m.length = a) (hb : b.length = n) (h : m ++ b <+: M) :
    (M.drop a).take n = b := by
  obtain ⟨c, rfl⟩ := h
  subst hm hb
  rw [List.append_assoc, List.drop_left, List.take_left]

/-- What the reader does where the writer put `x` into the message: it does the peer's entry well and the two mirror each
other again, or its DH fails. -/
def ReaderFollows (v r : State) (x : Expanded) : Prop :=
  (∃ q, runExpanded Config.params x.peer r = .ok () q ∧ Mirror v q ∧ q.msg = r.msg)
    ∨ ∃ q, runExpanded Config.params x.peer r = .err .dhFailure q

theorem wE_follows (hm : Mirror w r) (hk : Expanded.wE.after w.known = some k) (hready : Ready .writing w 32)
    (hv : tokenEWrite Config.params w = .ok () v) (hpre : v.msg <+: r.msg)
    (hl : Expanded.rE.after r.known = some l) (hreader : Ready .reading r 32) : ReaderFollows v r .wE := by
  simp only [Expanded.after, Option.ite_none_right_eq_some, Option.ite_none_left_eq_some] at hk hl
  obtain ⟨e, he⟩ := Option.isSome_iff_exists.mp (hk.1 : w.kE.isSome = true)
  have hre : r.kRE = none := by simpa [State.known] using hl.1
  obtain ⟨x, hx⟩ := Option.isSome_iff_exists.mp hready.ctxT
  have hend := hready.tail rfl
  rw [tokenEWrite_of_some he hx hend.ge hready.room] at hv
  cases hv
  rw [replaced_at_end hend] at hpre
  have hfield := field_of_prefix hend (Vector.length_toList) hpre
  have hread := tokenERead_of_none (P := Config.params) hre (hm.ctxT.symm.trans hx) (hreader.span rfl)
  rw [← hm.off, hfield, keyOfBytes_toList] at hread
  refine .inl ⟨_, hread, ⟨rfl, hm.keyed, hm.psk, holdsPublicOf_dhPub he, hm.static_w, hm.ephemeral_r, hm.static_r, rfl⟩, rfl⟩

theorem wS_follows (hm : Mirror w r) (hk : Expanded.wS.after w.known = some k) (hready : Ready .writing w 48)
    (hv : tokenSWrite Config.params w = .ok () v) (hpre : v.msg <+: r.msg)
    (hl : Expanded.rS.after r.known = some l) (hreader : Ready .reading r 48) : ReaderFollows v r .wS := by
  simp only [Expanded.after, Option.ite_none_right_eq_some, Bool.and_eq_true, Bool.not_eq_true'] at hk hl
  obtain ⟨⟨hs, hkeyed⟩, -⟩ := hk
  obtain ⟨⟨hrs, hkeyedR⟩, -⟩ := hl
  obtain ⟨a, ha⟩ := Option.isSome_iff_exists.mp (hs : w.kS.isSome = true)
  have hrs : r.kRS = none := by simpa [State.known] using hrs
  obtain ⟨x, hx⟩ := Option.isSome_iff_exists.mp hready.ctxT
  have hend := hready.tail rfl
  rw [tokenSWrite_of_some ha hkeyed hx hend.ge hready.room] at hv
  cases hv
  rw [replaced_at_end hend] at hpre
  have hfield := field_of_prefix hend (n := 48) (by simp [Config.params.spEncrypt_length]) hpre
  have hread := tokenSRead_of_none (P := Config.params) hrs (hreader.span rfl)
  rw [← hm.off, hfield, ssDecrypt_of_encrypted hkeyedR (hm.ctxT.symm.trans hx), Res.bind_ok, keyOfBytes_toList] at hread
  exact .inl ⟨_, hread, ⟨rfl, hm.keyed, hm.psk, hm.ephemeral_w, holdsPublicOf_dhPub ha, hm.ephemeral_r, hm.static_r,
    congrArg (· + 48) hm.off⟩, rfl⟩

theorem mix_follows {kp : KpSlot} {pk : PkSlot} (hm : Mirror w r) (hk : (Expanded.mix kp pk).after w.known = some k)
    (hready : Ready .writing w 0) (hv : mixDh Config.params kp pk w = .ok () v)
    (hl : (Expanded.mix pk.own kp.remote).after r.known = some l) : ReaderFollows v r (.mix kp pk) := by
  simp only [Expanded.after, Option.ite_none_right_eq_some, Bool.and_eq_true] at hk hl
  obtain ⟨a, ha⟩ := Option.isSome_iff_exists.mp ((kpVal_isSome w kp).trans hk.1.1)
  obtain ⟨b, hb⟩ := Option.isSome_iff_exists.mp ((pkVal_isSome w pk).trans hk.1.2)
  obtain ⟨c, hc⟩ := Option.isSome_iff_exists.mp ((pkVal_isSome r kp.remote).trans hl.1.2)
  obtain ⟨x, hx⟩ := Option.isSome_iff_exists.mp hready.ctxT
  obtain ⟨d, hd, rfl⟩ := hm.public_r pk b hb
  obtain ⟨a', ha', rfl⟩ := hm.public_w kp c hc
  obtain rfl : a = a' := Option.some.inj (ha.symm.trans ha')
  rw [mixDh_of_valid ha hb hx] at hv
  have hread := mixDh_of_valid (P := Config.params) hd hc (hm.ctxT.symm.trans hx)
  cases hz : Config.params.dhCombine a (Config.params.dhPub d) with
  | none => rw [hz] at hv; cases hv
  | some z =>
    rw [hz] at hv
    cases hv
    cases hy : Config.params.dhCombine d (Config.params.dhPub a) with
    | none =>
      rw [hy] at hread
      exact .inr ⟨_, hread⟩
    | some y =>
      obtain rfl := Config.params.dhCombine_comm a d z y hz hy
      rw [hy] at hread
      exact .inl ⟨_, hread, { hm with ctxT := rfl, keyed := rfl }, rfl⟩

theorem psk_follows (hm : Mirror w r) (hk : Expanded.psk.after w.known = some k) (hready : Ready .writing w 0)
    (hv : tokenPsk Config.params w = .ok () v) : ReaderFollows v r .psk := by
  simp only [Expanded.after, Option.ite_none_right_eq_some] at hk
  obtain ⟨z, hz⟩ := Option.isSome_iff_exists.mp (hk.1 : w.kPSK.isSome = true)
  obtain ⟨x, hx⟩ := Option.isSome_iff_exists.mp hready.ctxT
  rw [tokenPsk_of_some hz hx] at hv
  cases hv
  exact .inl ⟨_, tokenPsk_of_some (hm.psk.symm.trans hz) (hm.ctxT.symm.trans hx),
    { hm with ctxT := rfl, keyed := rfl }, rfl⟩

/-- One entry: where the writer's ended well, the reader follows (R97 to R105). -/
theorem entry_follows {x : Expanded} (hm : Mirror w r) (hx : x.runsIn .writing = true) (hk : x.after w.known = some k)
    (hready : Ready .writing w x.len) (hv : runExpanded Config.params x w = .ok () v) (hpre : v.msg <+: r.msg)
    (hl : x.peer.after r.known = some l) (hreader : Ready .reading r x.len) : ReaderFollows v r x := by
  cases x with
  | wE => exact wE_follows hm hk hready hv hpre hl hreader
  | wS => exact wS_follows hm hk hready hv hpre hl hreader
  | mix kp pk => exact mix_follows hm hk hready hv hl
  | psk => exact psk_follows hm hk hready hv
  | rE => cases hx
  | rS => cases hx

/-- A message: where the writer's entries end well, the reader's end well on the writer's bytes, with the two sides
mirroring each other again, or in DHFailure. -/
theorem message_follows {xs : List Expanded} {w' : State} (hm : Mirror w r) (hx : ∀ x ∈ xs, x.runsIn .writing = true)
    (hk : afterAll xs w.known = some k) (hready : Ready .writing w (lenAll xs))
    (hw : runExpansion Config.params xs w = .ok () w') (hpre : w'.msg <+: r.msg)
    (hl : afterAll (xs.map Expanded.peer) r.known = some l) (hreader : Ready .reading r (lenAll xs)) :
    (∃ r', runExpansion Config.params (xs.map Expanded.peer) r = .ok () r' ∧ Mirror w' r')
      ∨ ∃ q, runExpansion Config.params (xs.map Expanded.peer) r = .err .dhFailure q := by
  induction xs generalizing w r with
  | nil =>
    cases hw
    exact .inl ⟨r, rfl, hm⟩
  | cons x xs ih =>
    have hlen : lenAll (x :: xs) = x.len + lenAll xs := rfl
    rw [hlen] at hready hreader
    obtain ⟨_, v, hv, hrest⟩ := Res.bind_eq_ok.mp hw
    obtain ⟨k', hk', hkrest⟩ := Option.bind_eq_some_iff.mp hk
    obtain ⟨l', hl', hlrest⟩ := Option.bind_eq_some_iff.mp hl
    have hx0 := hx x (List.mem_cons_self ..)
    have hxs : ∀ y ∈ xs, y.runsIn .writing = true := fun y hy => hx y (List.mem_cons_of_mem x hy)
    have hready0 : Ready .writing w x.len := hready.mono (Nat.le_add_right ..)
    have hreader0 : Ready .reading r x.len := hreader.mono (Nat.le_add_right ..)
    have hadv : Advanced .writing w v k' x.len :=
      (runExpanded_progresses hx0 hk' hready0).advanced_of_ok hv
    have hgrows : v.msg <+: w'.msg :=
      ((runExpansion_progresses hxs (hadv.known ▸ hkrest) (hready.rest hadv)).advanced_of_ok hrest).grows
    rw [List.map_cons, runExpansion]
    rcases entry_follows hm hx0 hk' hready0 hv (hgrows.trans hpre) hl' hreader0 with ⟨q, hq, hmq, hmsg⟩ | ⟨q, hq⟩
    · have hadvR : Advanced .reading r q l' x.len := by
        have hprog := runExpanded_progresses (P := Config.params) (Expanded.peer_runsIn hx0) hl'
          (hreader0.mono x.peer_len.le)
        rw [x.peer_len] at hprog
        exact hprog.advanced_of_ok hq
      rw [hq, Res.bind_ok]
      exact ih hmq hxs (hadv.known ▸ hkrest) (hready.rest hadv) hrest (hmsg ▸ hpre) (hadvR.known ▸ hlrest)
        (hreader.rest hadvR)
    · rw [hq, Res.bind_err]
      exact .inr ⟨q, rfl⟩

end

/-! ### A message between two machines -/

/-- `Peers` without the names of the sides: two XCBs in the same handshake at the same point, in opposite roles. -/
structure Pair (w r : State) : Prop where
  inv_w : w.Inv
  inv_r : r.Inv
  good_w : w.fatal = false
  good_r : r.fatal = false
  active_w : w.phase = .active
  active_r : r.phase = .active
  role : w.role ≠ r.role
  pattern : w.pattern = r.pattern
  seq : w.seq = r.seq
  mirror : Mirror (hsWriteStart w) (hsReadStart r)

theorem Peers.pair {i r : State} (h : Peers i r) : Pair i r :=
  ⟨h.inv_i, h.inv_r, h.good_i, h.good_r, h.active_i, h.active_r, by rw [h.role_i, h.role_r]; decide, h.pattern, h.seq,
    ⟨h.ctxT, h.keyed, h.psk, h.ephemeral_i, h.static_i, h.ephemeral_r, h.static_r, rfl⟩⟩

theorem Pair.symm {w r : State} (h : Pair w r) : Pair r w :=
  ⟨h.inv_r, h.inv_w, h.good_r, h.good_w, h.active_r, h.active_w, h.role.symm, h.pattern.symm, h.seq.symm,
    { h.mirror.symm with off := rfl }⟩

theorem Pair.peers {i r : State} (h : Pair i r) (hi : i.role = .initiator) (hr : r.role = .responder) : Peers i r :=
  ⟨h.inv_w, h.inv_r, h.good_w, h.good_r, h.active_w, h.active_r, hi, hr, h.pattern, h.seq, h.mirror.ctxT, h.mirror.keyed,
    h.mirror.psk, h.mirror.ephemeral_w, h.mirror.static_w, h.mirror.ephemeral_r, h.mirror.static_r⟩

/-- A frame within capacity put into MSG keeps the host-driven invariant. -/
theorem setMsg_inv {s : State} (h : s.Inv) {m : Bytes} (hm : m.length ≤ 65535) : State.Inv { s with msg := m } :=
  ⟨{ h.consistent with memWf := setBuf_memWf (b := .MSG) h.consistent.memWf hm }, h.hostOnly, h.transients,
    fun hp hg => (h.handshake hp hg).congr rfl rfl⟩

/-- The tokens of a message on both sides: where the writer's end well, the reader's on its frame do, or its DH fails. -/
theorem Pair.run_follows {w r u : State} (h : Pair w r) (hk : w.seq.toNat < w.pattern.nmsgs)
    (hw : writerOf w.seq.toNat = w.role)
    (hu : runTokens Config.params (rom w.pattern w.seq.toNat) (hsWriteStart w) = .ok () u)
    (hl : (fixedAndKeyed w.pattern w.seq.toNat).1 ≤ u.msg.length) :
    (∃ q, runTokens Config.params (rom w.pattern w.seq.toNat) (hsReadStart { r with msg := u.msg }) = .ok () q
        ∧ Mirror u q)
      ∨ ∃ q, runTokens Config.params (rom w.pattern w.seq.toNat) (hsReadStart { r with msg := u.msg })
          = .err .dhFailure q := by
  have hformW : formOf w.seq.toNat w.role = .writing := if_pos hw
  have hformR : formOf w.seq.toNat r.role = .reading := if_neg fun hr => h.role (hw.symm.trans hr)
  have hle := fixedAndKeyed_le (p := w.pattern) (k := w.seq.toNat)
  have hlen := lenAll_expansion hk w.role
  have hafterW := afterAll_expansion hk w.role
  have hafterR := afterAll_expansion hk r.role
  have hholdsR := (h.inv_r.handshake h.active_r h.good_r).known
  rw [← (h.inv_w.handshake h.active_w h.good_w).known] at hafterW
  rw [← h.pattern, ← h.seq] at hholdsR
  rw [← hholdsR, expansion_peer hk h.role] at hafterR
  rw [runTokens_rom (s := hsWriteStart w) hk hformW.symm] at hu
  rw [runTokens_rom (s := hsReadStart { r with msg := u.msg }) hk hformR.symm,
    show (hsReadStart { r with msg := u.msg }).role = r.role from rfl, expansion_peer hk h.role]
  have hm : Mirror (hsWriteStart w) (hsReadStart { r with msg := u.msg }) := { h.mirror with }
  have hroom : (0 : BitVec 16).toNat + lenAll (expansion w.pattern w.seq.toNat w.role) ≤ 65535 := by
    rw [hlen]
    exact Nat.le_trans (Nat.add_le_add_left hle 0) (by decide)
  refine message_follows hm (hformW ▸ runsIn_expansion hk w.role) hafterW ⟨?_, hroom, fun _ => rfl, by nofun⟩ hu
    List.prefix_rfl hafterR ⟨?_, hroom, by nofun, fun _ => ?_⟩
  · exact h.inv_w.consistent.active_ctxT h.active_w h.good_w
  · exact h.inv_r.consistent.active_ctxT h.active_r h.good_r
  · rw [hlen]
    exact (Nat.zero_add _).trans_le hl

/-- HS_WRITE of a pair that ended well ran its tokens to a state `u`, and its frame is what `u` holds. -/
theorem write_ran {w w' : State} (hinv : w.Inv) (hgood : w.fatal = false) (hp : w.phase = .active)
    (hk : w.seq.toNat < w.pattern.nmsgs) (hw : writerOf w.seq.toNat = w.role) (he : exec .hsWrite w = .next w')
    (hok : w'.err = .ok) :
    ∃ u, runTokens Config.params (rom w.pattern w.seq.toNat) (hsWriteStart w) = .ok () u
      ∧ w' = { (hsWriteEnd u).wipe with err := .ok } ∧ w'.msg = u.msg := by
  rcases write_progresses (P := Config.params) (hinv.consistent.active_ctxT hp hgood) (hinv.handshake hp hgood).known hk hw
    with ⟨u, hu, hadv⟩ | ⟨e, u, hu, -⟩
  · rw [exec_of_command_ok (i := .hsWrite) rfl (by nofun) hgood (hsWrite_of_ok hp hk hw hu) rfl] at he
    cases he
    exact ⟨u, hu, rfl, List.take_of_length_le (hadv.tail rfl).le⟩
  · rw [exec_of_command_err (i := .hsWrite) rfl (by nofun) hgood (hsWrite_of_err hp hk hw hu) rfl] at he
    cases he
    exact absurd hok e.toErr_ne_ok

/-- HS_READ of a frame on which the reader's tokens follow the writer's: DHFailure, or the two mirror each other again. -/
theorem Pair.read {w r u w' : State} (h : Pair w r) (hk : w.seq.toNat < w.pattern.nmsgs)
    (hw : writerOf w.seq.toNat = w.role)
    (hu : runTokens Config.params (rom w.pattern w.seq.toNat) (hsWriteStart w) = .ok () u)
    (hw' : w' = { (hsWriteEnd u).wipe with err := .ok }) (hmsg : w'.msg = u.msg)
    (hlen : u.msg.length = (fixedAndKeyed w.pattern w.seq.toNat).1) :
    ∃ r', exec .hsRead { r with msg := u.msg } = .next r' ∧ (r'.err = .dhFailure
      ∨ (r'.err = .ok ∧ Mirror (hsWriteStart w') (hsReadStart r'))) := by
  have hother : writerOf r.seq.toNat ≠ r.role := by
    rw [← h.seq, hw]
    exact h.role
  have hkR : r.seq.toNat < r.pattern.nmsgs := by rwa [← h.seq, ← h.pattern]
  have hl : fixedLen (rom r.pattern r.seq.toNat) ≤ u.msg.length := by
    rw [← h.seq, ← h.pattern, fixedLen_rom hk, hlen]
  rcases h.run_follows hk hw hu hlen.ge with ⟨q, hq, hm⟩ | ⟨q, hq⟩ <;> rw [h.seq, h.pattern] at hq
  · refine ⟨_, exec_of_command_ok rfl (by nofun) h.good_r
      (hsRead_of_ok (s := { r with msg := u.msg }) h.active_r hkR hother hl hq) rfl, .inr ⟨rfl, ?_⟩⟩
    subst hw'
    exact { hm with off := rfl }
  · exact ⟨_, exec_of_command_err rfl (by nofun) h.good_r
      (hsRead_of_err (s := { r with msg := u.msg }) h.active_r hkR hother hl hq) rfl, .inl rfl⟩

/-- One message of a pair, from the side that writes it: DHFailure on either side, or a pair again. -/
theorem Pair.message {w r : State} (h : Pair w r) (hk : w.seq.toNat < w.pattern.nmsgs)
    (hw : writerOf w.seq.toNat = w.role) :
    ∃ w', exec .hsWrite w = .next w' ∧ (w'.err = .dhFailure ∨ (w'.err = .ok
      ∧ ∃ r', exec .hsRead { r with msg := w'.msg } = .next r'
        ∧ (r'.err = .dhFailure ∨ (r'.err = .ok ∧ Pair w' r' ∧ w'.role = w.role ∧ r'.role = r.role)))) := by
  obtain ⟨w', hexecW, hgoodW, hseqW, hroleW, hpatternW, -, -, -, -, -, -, hresW⟩ :=
    hsWriteInTurnGivesTheMessage w h.inv_w h.good_w h.active_w hk hw
  refine ⟨w', hexecW, ?_⟩
  rcases hresW with ⟨herrW, hphaseW, -, -, -, -, hlenW, -⟩ | ⟨herrW, -⟩
  swap
  · exact .inl herrW
  obtain ⟨u, hu, hw', hmsg⟩ := write_ran h.inv_w h.good_w h.active_w hk hw hexecW herrW
  obtain ⟨r', hexecR, hresR⟩ := h.read hk hw hu hw' hmsg (hmsg ▸ hlenW)
  rw [← hmsg] at hexecR
  refine .inr ⟨herrW, r', hexecR, hresR.imp_right fun ⟨herrR, hm⟩ => ?_⟩
  have hinvR : State.Inv { r with msg := w'.msg } := by
    exact setMsg_inv h.inv_r (hlenW.trans_le (Nat.le_trans fixedAndKeyed_le (by decide)))
  have hother : writerOf r.seq.toNat ≠ r.role := by
    rw [← h.seq, hw]
    exact h.role
  obtain ⟨r'', hexecR', hgoodR, hseqR, hroleR, hpatternR, -, -, -, -, -, -, -, -, hres⟩ :=
    hsReadInTurnTakesTheMessage { r with msg := w'.msg } hinvR h.good_r h.active_r (by rwa [← h.seq, ← h.pattern]) hother
      (by rw [← h.seq, ← h.pattern]; exact hlenW.ge)
  obtain rfl : r' = r'' := by rw [hexecR] at hexecR'; cases hexecR'; rfl
  rcases hres with ⟨-, hphaseR, -⟩ | ⟨herr, -⟩
  · exact ⟨herrR, ⟨exec_inv h.inv_w rfl hexecW, exec_inv hinvR rfl hexecR, hgoodW, hgoodR, hphaseW, hphaseR,
      by rw [hroleW, hroleR]; exact h.role, by rw [hpatternW, hpatternR]; exact h.pattern,
      BitVec.eq_of_toNat_eq (by rw [hseqW, hseqR, h.seq]), hm⟩, hroleW, hroleR⟩
  · rw [herrR] at herr
    rcases herr with herr | herr <;> cases herr

/-- Settles O39: `Pair.message`, from the side that writes. -/
theorem peersStayPeersOverAMessage : Obligations.PeersStayPeersOverAMessage := by
  intro i r h hk
  refine ⟨fun hw => ?_, fun hw => ?_⟩
  · obtain ⟨i', hi, herr | ⟨hok, r', hr, herr | ⟨hok', hpair, hroleI, hroleR⟩⟩⟩ :=
      h.pair.message hk (hw.trans h.role_i.symm)
    · exact ⟨i', hi, .inl herr⟩
    · exact ⟨i', hi, .inr ⟨hok, r', hr, .inl herr⟩⟩
    · exact ⟨i', hi, .inr ⟨hok, r', hr, .inr ⟨hok', hpair.peers (hroleI.trans h.role_i) (hroleR.trans h.role_r)⟩⟩⟩
  · rw [h.seq] at hw
    rw [h.seq, h.pattern] at hk
    obtain ⟨r', hr, herr | ⟨hok, i', hi, herr | ⟨hok', hpair, hroleR, hroleI⟩⟩⟩ :=
      h.pair.symm.message hk (hw.trans h.role_r.symm)
    · exact ⟨r', hr, .inl herr⟩
    · exact ⟨r', hr, .inr ⟨hok, i', hi, .inl herr⟩⟩
    · exact ⟨r', hr, .inr ⟨hok, i', hi,
        .inr ⟨hok', hpair.symm.peers (hroleI.trans h.role_i) (hroleR.trans h.role_r)⟩⟩⟩

end Sys2Proof.Machine
end
